-- ==== Sys2Proof/Word.lean ====
section
/-! DEFINITION. The word and byte of the NORD-10/S (spec/00_scope.md R2, R4): a word is 16 bits, bit 15 the most significant. -/

namespace Sys2Proof

/-- A machine word: an instruction, a register, an address or a memory word (R2, R11, R40). -/
abbrev Word := BitVec 16

/-- Half a word: the left byte is bits 15 to 8, the right byte bits 7 to 0 (R42). -/
abbrev Byte := BitVec 8

end Sys2Proof
end

