-- ==== Sys2Proof/Syntax.lean ====
section
/-! DEFINITION. The instructions of the NORD-10/S: one constructor per row of spec/opcode_table.json (formats R60 to R70 of
spec/30_encoding.md). The ten rows that name particular words of a register operation (R91, R192 to R195) have constructors of
their own; Sys2Proof.Decode says which constructor a word decodes to (log 17). -/

namespace Sys2Proof

/-- The eight registers of a program level, in the order of their numbers 0 to 7 (R10). -/
inductive Reg where
  | sts | d | p | b | l | a | t | x
deriving DecidableEq, Repr

/-- A source field (R186): number 0 is the value zero, 1 to 7 name a register. -/
inductive Src where
  | zero | d | p | b | l | a | t | x
deriving DecidableEq, Repr

/-- A destination field of a register operation, RMPY or SKP (R187): number 0 names nothing, 1 to 7 name a register. -/
inductive Dst where
  | undef | d | p | b | l | a | t | x
deriving DecidableEq, Repr

/-- The address part of a format MR instruction (R60, R100): the mode bits `,X`, `I`, `,B` and the displacement. -/
structure MemRef where
  x : Bool
  i : Bool
  b : Bool
  disp : BitVec 8
deriving DecidableEq, Repr

/-- The kind of a shift, bits 10 and 9 (R281). -/
inductive ShiftKind where
  | arith | rot | zin | lin
deriving DecidableEq, Repr

/-- The condition of BSET and BSKP, bits 8 and 7 (R70). -/
inductive BitCond where
  | zro | one | bcm | bac
deriving DecidableEq, Repr

/-- The instructions, in the order of spec/opcode_table.json. -/
inductive Instr where
  -- memory reference (R103 to R129, R250, R251)
  | stz (m : MemRef)
  | sta (m : MemRef)
  | stt (m : MemRef)
  | stx (m : MemRef)
  | std (m : MemRef)
  | ldd (m : MemRef)
  | stf (m : MemRef)
  | ldf (m : MemRef)
  | min (m : MemRef)
  | lda (m : MemRef)
  | ldt (m : MemRef)
  | ldx (m : MemRef)
  | add (m : MemRef)
  | sub (m : MemRef)
  | and (m : MemRef)
  | ora (m : MemRef)
  | fad (m : MemRef)
  | fsb (m : MemRef)
  | fmu (m : MemRef)
  | fdv (m : MemRef)
  | mpy (m : MemRef)
  | jmp (m : MemRef)
  | jpl (m : MemRef)
  -- conditional jumps (R252 to R259)
  | jap (disp : BitVec 8)
  | jan (disp : BitVec 8)
  | jaz (disp : BitVec 8)
  | jaf (disp : BitVec 8)
  | jpc (disp : BitVec 8)
  | jnc (disp : BitVec 8)
  | jxn (disp : BitVec 8)
  -- skip (R260, R261)
  | skpEql (sr : Src) (dr : Dst)
  | skpGre (sr : Src) (dr : Dst)
  | skpMgre (sr : Src) (dr : Dst)
  | skpUeq (sr : Src) (dr : Dst)
  | skpLst (sr : Src) (dr : Dst)
  | skpMlst (sr : Src) (dr : Dst)
  -- extended (R205, R206, R132, R133)
  | rmpy (sr : Src) (dr : Dst)
  | rdiv (sr : Src)
  | lbyt
  | sbyt
  -- register operations (R185 to R204)
  | radd (adc ad1 cm1 cld : Bool) (sr : Src) (dr : Dst)
  | rsub (sr : Src) (dr : Dst)
  | copy (sr : Src) (dr : Dst)
  | ad1 (sr : Src) (dr : Dst)
  | adc (sr : Src) (dr : Dst)
  | cld (sr : Src) (dr : Dst)
  | cm1 (sr : Src) (dr : Dst)
  | swap (cm1 cld : Bool) (sr : Src) (dr : Dst)
  | rand (cm1 cld : Bool) (sr : Src) (dr : Dst)
  | rexo (cm1 cld : Bool) (sr : Src) (dr : Dst)
  | rora (cm1 cld : Bool) (sr : Src) (dr : Dst)
  | exit
  | rclr (dr : Dst)
  | rinc (dr : Dst)
  | rcdr (dr : Dst)
  -- transfer (R300 to R303)
  | tra (r : Fin 16)
  | trr (r : Fin 16)
  -- floating conversion (R161, R162)
  | nlz (scaling : BitVec 8)
  | dnz (scaling : BitVec 8)
  -- register block (R150 to R153)
  | srb (level : Fin 16)
  | lrb (level : Fin 16)
  -- shifts (R280 to R288)
  | sht (kind : ShiftKind) (count : BitVec 6)
  | shd (kind : ShiftKind) (count : BitVec 6)
  | sha (kind : ShiftKind) (count : BitVec 6)
  | sad (kind : ShiftKind) (count : BitVec 6)
  -- arguments (R170 to R179)
  | sab (arg : BitVec 8)
  | saa (arg : BitVec 8)
  | sat (arg : BitVec 8)
  | sax (arg : BitVec 8)
  | aab (arg : BitVec 8)
  | aaa (arg : BitVec 8)
  | aat (arg : BitVec 8)
  | aax (arg : BitVec 8)
  -- bit instructions (R220 to R233)
  | bset (cond : BitCond) (bitno : Fin 16) (reg : Reg)
  | bskp (cond : BitCond) (bitno : Fin 16) (reg : Reg)
  | bstc (bitno : Fin 16) (reg : Reg)
  | bsta (bitno : Fin 16) (reg : Reg)
  | bldc (bitno : Fin 16) (reg : Reg)
  | blda (bitno : Fin 16) (reg : Reg)
  | banc (bitno : Fin 16) (reg : Reg)
  | band (bitno : Fin 16) (reg : Reg)
  | borc (bitno : Fin 16) (reg : Reg)
  | bora (bitno : Fin 16) (reg : Reg)
deriving DecidableEq, Repr

end Sys2Proof
end

