-- ==== Sys2Proof/WellFormed.lean ====
section
/-! DEFINITION. Well-formed instructions. Every operand type holds exactly the values its field can hold, so what remains to
check is the NAME: a word that a row of the table with its own constructor names (RSUB, COPY, EXIT, RCLR, RINC, RCDR and the
modifier rows AD1, ADC, CLD, CM1; R91, R192 to R195) is written with that constructor and no other. Each well-formed instruction
is one word and each assigned word is one well-formed instruction (log 17). -/

namespace Sys2Proof

/-- RADD with these modifiers and operands has a name of its own in the table (R190 to R193, R201 to R204). -/
def raddHasOwnName : (adc ad1 cm1 cld : Bool) → Src → Bool
  | false, false, false, true, _ => true        -- COPY, RCLR, EXIT
  | false, true, false, false, _ => true        -- AD1, RINC
  | false, true, true, false, _ => true         -- RSUB
  | false, false, true, false, sr => decide (sr = .zero)  -- RCDR
  | true, false, false, false, _ => true        -- ADC
  | _, _, _, _, _ => false

/-- The instruction is written with the constructor its word decodes to. -/
def Instr.wellFormed : Instr → Bool
  | .radd withC withOne compl clear sr _ => !raddHasOwnName withC withOne compl clear sr
  | .copy sr dr => decide (sr ≠ .zero) && !(decide (sr = .l) && decide (dr = .p))
  | .ad1 sr dr => decide (sr ≠ .zero) || decide (dr = .undef)
  | .rinc dr => decide (dr ≠ .undef)
  | .swap compl clear _ _ => compl == clear
  | .stz _ | .sta _ | .stt _ | .stx _ | .std _ | .ldd _ | .stf _ | .ldf _ | .min _ | .lda _ | .ldt _ | .ldx _
  | .add _ | .sub _ | .and _ | .ora _ | .fad _ | .fsb _ | .fmu _ | .fdv _ | .mpy _ | .jmp _ | .jpl _
  | .jap _ | .jan _ | .jaz _ | .jaf _ | .jpc _ | .jnc _ | .jxn _
  | .skpEql _ _ | .skpGre _ _ | .skpMgre _ _ | .skpUeq _ _ | .skpLst _ _ | .skpMlst _ _
  | .rmpy _ _ | .rdiv _ | .lbyt | .sbyt
  | .rsub _ _ | .adc _ _ | .cld _ _ | .cm1 _ _ | .rand _ _ _ _ | .rexo _ _ _ _ | .rora _ _ _ _
  | .exit | .rclr _ | .rcdr _ | .tra _ | .trr _ | .nlz _ | .dnz _ | .srb _ | .lrb _
  | .sht _ _ | .shd _ _ | .sha _ _ | .sad _ _
  | .sab _ | .saa _ | .sat _ | .sax _ | .aab _ | .aaa _ | .aat _ | .aax _
  | .bset _ _ _ | .bskp _ _ _ | .bstc _ _ | .bsta _ _ | .bldc _ _ | .blda _ _ | .banc _ _ | .band _ _
  | .borc _ _ | .bora _ _ => true

end Sys2Proof
end

