-- ==== Sys2Proof/Decode.lean ====
section
/-! DEFINITION. The decoder (spec/30_encoding.md R75, R76, R80, R81), total on every word and rejecting by name, and the encoder,
which writes a word as the inclusive OR of the values of its mnemonics (R90). All codes are octal, as in the spec. -/

namespace Sys2Proof

/-! ### Fields -/

/-- Bits `lo + n - 1` down to `lo` of an instruction word (`IR[hi:lo]`, spec/00_scope.md section 5.2). -/
def bitsOf (w : Word) (lo n : Nat) : BitVec n := w.extractLsb' lo n

/-- The register with a number (R10). -/
def Reg.ofNum (n : BitVec 3) : Reg :=
  match n.toNat with
  | 0 => .sts | 1 => .d | 2 => .p | 3 => .b | 4 => .l | 5 => .a | 6 => .t | _ => .x

/-- The number of a register (R10). -/
def Reg.num : Reg → BitVec 3
  | .sts => 0 | .d => 1 | .p => 2 | .b => 3 | .l => 4 | .a => 5 | .t => 6 | .x => 7

/-- The source a field names (R186). -/
def Src.ofNum (n : BitVec 3) : Src :=
  match n.toNat with
  | 0 => .zero | 1 => .d | 2 => .p | 3 => .b | 4 => .l | 5 => .a | 6 => .t | _ => .x

/-- The number of a source (R186). -/
def Src.num : Src → BitVec 3
  | .zero => 0 | .d => 1 | .p => 2 | .b => 3 | .l => 4 | .a => 5 | .t => 6 | .x => 7

/-- The destination a field names (R187). -/
def Dst.ofNum (n : BitVec 3) : Dst :=
  match n.toNat with
  | 0 => .undef | 1 => .d | 2 => .p | 3 => .b | 4 => .l | 5 => .a | 6 => .t | _ => .x

/-- The number of a destination (R187). -/
def Dst.num : Dst → BitVec 3
  | .undef => 0 | .d => 1 | .p => 2 | .b => 3 | .l => 4 | .a => 5 | .t => 6 | .x => 7

/-- Kind of a shift from bits 10 and 9 (R65, R281). -/
def ShiftKind.ofNum (n : BitVec 2) : ShiftKind :=
  match n.toNat with
  | 0 => .arith | 1 => .rot | 2 => .zin | _ => .lin

/-- Bits 10 and 9 of a kind of shift (R65, R281). -/
def ShiftKind.num : ShiftKind → BitVec 2
  | .arith => 0 | .rot => 1 | .zin => 2 | .lin => 3

/-- Condition of BSET and BSKP from bits 8 and 7 (R70). -/
def BitCond.ofNum (n : BitVec 2) : BitCond :=
  match n.toNat with
  | 0 => .zro | 1 => .one | 2 => .bcm | _ => .bac

/-- Bits 8 and 7 of a condition of BSET and BSKP (R70). -/
def BitCond.num : BitCond → BitVec 2
  | .zro => 0 | .one => 1 | .bcm => 2 | .bac => 3

/-- Mode bits 10, 9, 8 and displacement of a format MR word (R60). -/
def memRefOf (w : Word) : MemRef :=
  { x := w.getLsbD 10, i := w.getLsbD 9, b := w.getLsbD 8, disp := bitsOf w 0 8 }

/-- Source field, bits 5 to 3 (R77). -/
def srcOf (w : Word) : Src := Src.ofNum (bitsOf w 3 3)

/-- Destination field, bits 2 to 0 (R77). -/
def dstOf (w : Word) : Dst := Dst.ofNum (bitsOf w 0 3)

/-- Destination field of a bit instruction, bits 2 to 0, 0 being STS (R77). -/
def regOf (w : Word) : Reg := Reg.ofNum (bitsOf w 0 3)

/-- Level or bit number, bits 6 to 3 (R77). -/
def fourOf (w : Word) : Fin 16 := (bitsOf w 3 4).toFin

/-! ### The decoder -/

/-- Why a word is no instruction: the rows of R80's table of unassigned words, and R81. A step that fetches such a word is
refused under the spec's one name `unassigned`. -/
inductive Unassigned where
  /-- 160000 to 167777: both groups are absent from the source -/
  | group
  /-- 133000 to 133377: conditional jump, condition 6 -/
  | jumpCondition
  /-- 140400 to 140477 and 142400 to 142477: skip conditions 1 and 5 -/
  | skipCondition
  /-- a word of group 140000 with bits 7 to 6 not 00 that is not RMPY, RDIV, LBYT or SBYT -/
  | extended
  /-- a word of group 150000 that R76 does not list -/
  | transferGroup
  /-- a shift with bit 6 set -/
  | shiftBlank
deriving DecidableEq, Repr

/-- Group 130000, conditional jumps (R61, R76). -/
def decodeJump (w : Word) : Except Unassigned Instr :=
  let disp := bitsOf w 0 8
  match (bitsOf w 8 3).toNat with
  | 0 => .ok (.jap disp)
  | 1 => .ok (.jan disp)
  | 2 => .ok (.jaz disp)
  | 3 => .ok (.jaf disp)
  | 4 => .ok (.jpc disp)
  | 5 => .ok (.jnc disp)
  | 7 => .ok (.jxn disp)
  | _ => .error .jumpCondition

/-- Group 140000: SKP and the extended instructions (R62, R64, R76). -/
def decodeSkip (w : Word) : Except Unassigned Instr :=
  let sr := srcOf w
  let dr := dstOf w
  if bitsOf w 6 2 = 0 then
    match (bitsOf w 8 3).toNat with
    | 0 => .ok (.skpEql sr dr)
    | 2 => .ok (.skpGre sr dr)
    | 3 => .ok (.skpMgre sr dr)
    | 4 => .ok (.skpUeq sr dr)
    | 6 => .ok (.skpLst sr dr)
    | 7 => .ok (.skpMlst sr dr)
    | _ => .error .skipCondition
  else if w &&& 0o177700 = 0o141200 then .ok (.rmpy sr dr)
  else if w &&& 0o177707 = 0o141600 then .ok (.rdiv sr)
  else if w = 0o142200 then .ok .lbyt
  else if w = 0o142600 then .ok .sbyt
  else .error .extended

/-- The constructor of an arithmetic register operation (R188): the combined names of R91 and the modifier rows first (log 17). -/
def nameArith (adc ad1 cm1 cld : Bool) (sr : Src) (dr : Dst) : Instr :=
  match adc, ad1, cm1, cld with
  | false, false, false, true =>
    if sr = .zero then .rclr dr
    else if sr = .l ∧ dr = .p then .exit
    else .copy sr dr
  | false, true, false, false => if sr = .zero ∧ dr ≠ .undef then .rinc dr else .ad1 sr dr
  | false, true, true, false => .rsub sr dr
  | false, false, true, false => if sr = .zero then .rcdr dr else .radd false false true false sr dr
  | true, false, false, false => .adc sr dr
  | _, _, _, _ => .radd adc ad1 cm1 cld sr dr

/-- The constructor of a SWAP word (R197): one modifier alone is the row of that modifier (log 17). -/
def nameSwap (cm1 cld : Bool) (sr : Src) (dr : Dst) : Instr :=
  match cm1, cld with
  | true, false => .cm1 sr dr
  | false, true => .cld sr dr
  | _, _ => .swap cm1 cld sr dr

/-- Group 144000, register operations (R63, R185, R188, R196). -/
def decodeRegisterOp (w : Word) : Instr :=
  let sr := srcOf w
  let dr := dstOf w
  let cm1 := w.getLsbD 7
  let cld := w.getLsbD 6
  if w.getLsbD 10 then nameArith (w.getLsbD 9) (w.getLsbD 8) cm1 cld sr dr
  else
    match (bitsOf w 8 2).toNat with
    | 0 => nameSwap cm1 cld sr dr
    | 1 => .rand cm1 cld sr dr
    | 2 => .rexo cm1 cld sr dr
    | _ => .rora cm1 cld sr dr

/-- Group 150000: TRA, TRR, NLZ, DNZ, SRB, LRB (R66 to R68, R76). -/
def decodeTransfer (w : Word) : Except Unassigned Instr :=
  if w &&& 0o177760 = 0o150000 then .ok (.tra (bitsOf w 0 4).toFin)
  else if w &&& 0o177760 = 0o150100 then .ok (.trr (bitsOf w 0 4).toFin)
  else if w &&& 0o177400 = 0o151400 then .ok (.nlz (bitsOf w 0 8))
  else if w &&& 0o177400 = 0o152000 then .ok (.dnz (bitsOf w 0 8))
  else if w &&& 0o177607 = 0o152402 then .ok (.srb (fourOf w))
  else if w &&& 0o177607 = 0o152600 then .ok (.lrb (fourOf w))
  else .error .transferGroup

/-- Group 154000, shifts (R65, R76, R81). -/
def decodeShift (w : Word) : Except Unassigned Instr :=
  let kind := ShiftKind.ofNum (bitsOf w 9 2)
  let count := bitsOf w 0 6
  if w.getLsbD 6 then .error .shiftBlank
  else
    match (bitsOf w 7 2).toNat with
    | 0 => .ok (.sht kind count)
    | 1 => .ok (.shd kind count)
    | 2 => .ok (.sha kind count)
    | _ => .ok (.sad kind count)

/-- Group 170000, argument instructions (R69). -/
def decodeArgument (w : Word) : Instr :=
  let arg := bitsOf w 0 8
  match (bitsOf w 8 3).toNat with
  | 0 => .sab arg
  | 1 => .saa arg
  | 2 => .sat arg
  | 3 => .sax arg
  | 4 => .aab arg
  | 5 => .aaa arg
  | 6 => .aat arg
  | _ => .aax arg

/-- Group 174000, bit instructions (R70). -/
def decodeBit (w : Word) : Instr :=
  let cond := BitCond.ofNum (bitsOf w 7 2)
  let n := fourOf w
  let r := regOf w
  match (bitsOf w 7 4).toNat with
  | 0 | 1 | 2 | 3 => .bset cond n r
  | 4 | 5 | 6 | 7 => .bskp cond n r
  | 8 => .bstc n r
  | 9 => .bsta n r
  | 10 => .bldc n r
  | 11 => .blda n r
  | 12 => .banc n r
  | 13 => .band n r
  | 14 => .borc n r
  | _ => .bora n r

/-- The decoding procedure of R76: bits 15 to 11 select the instruction or the group (R75; the codes after the conflicts C2, C6
and C7 of spec/90_conflicts.md). -/
def decode (w : Word) : Except Unassigned Instr :=
  let m := memRefOf w
  match (bitsOf w 11 5).toNat with
  | 0o00 => .ok (.stz m)
  | 0o01 => .ok (.sta m)
  | 0o02 => .ok (.stt m)
  | 0o03 => .ok (.stx m)
  | 0o04 => .ok (.std m)
  | 0o05 => .ok (.ldd m)
  | 0o06 => .ok (.stf m)
  | 0o07 => .ok (.ldf m)
  | 0o10 => .ok (.min m)
  | 0o11 => .ok (.lda m)
  | 0o12 => .ok (.ldt m)
  | 0o13 => .ok (.ldx m)
  | 0o14 => .ok (.add m)
  | 0o15 => .ok (.sub m)
  | 0o16 => .ok (.and m)
  | 0o17 => .ok (.ora m)
  | 0o20 => .ok (.fad m)
  | 0o21 => .ok (.fsb m)
  | 0o22 => .ok (.fmu m)
  | 0o23 => .ok (.fdv m)
  | 0o24 => .ok (.mpy m)
  | 0o25 => .ok (.jmp m)
  | 0o26 => decodeJump w
  | 0o27 => .ok (.jpl m)
  | 0o30 => decodeSkip w
  | 0o31 => .ok (decodeRegisterOp w)
  | 0o32 => decodeTransfer w
  | 0o33 => decodeShift w
  | 0o36 => .ok (decodeArgument w)
  | 0o37 => .ok (decodeBit w)
  | _ => .error .group

/-- The instruction the decoder reads from an instruction of the opcode table whose low `nbits` bits are those of `w`: every
instruction is one word (R83), and a bit the table does not give is 0. -/
def decodeTableWord (nbits w : Nat) : Option Instr :=
  match decode (BitVec.ofNat 16 (w % 2 ^ nbits)) with
  | .ok i => some i
  | .error _ => none

/-! ### The encoder -/

/-- A field placed with its bit 0 at bit `lo` of the word. -/
def placed {n : Nat} (lo : Nat) (v : BitVec n) : Word := v.setWidth 16 <<< lo

/-- A mnemonic that stands for one value, present or not (R90). -/
def valueIf (b : Bool) (v : Word) : Word := if b then v else 0

/-- Mode mnemonics and displacement (R60). -/
def encMem (m : MemRef) : Word :=
  valueIf m.x 0o002000 ||| valueIf m.i 0o001000 ||| valueIf m.b 0o000400 ||| placed 0 m.disp

/-- Source and destination mnemonics (R186, R187). -/
def encSrcDst (sr : Src) (dr : Dst) : Word := placed 3 sr.num ||| placed 0 dr.num

/-- The modifiers common to every register operation (R63). -/
def encModifiers (cm1 cld : Bool) : Word := valueIf cm1 0o000200 ||| valueIf cld 0o000100

/-- Bit number and destination of a bit instruction (R70). -/
def encBit (n : Fin 16) (r : Reg) : Word := placed 3 (BitVec.ofFin n : BitVec 4) ||| placed 0 r.num

/-- Kind and count of a shift (R65). -/
def encShift (k : ShiftKind) (n : BitVec 6) : Word := placed 9 k.num ||| placed 0 n

/-- The word of an instruction: the values of its mnemonics joined (R90, tables of R60 to R70, R75). -/
def encode : Instr → Word
  | .stz m => 0o000000 ||| encMem m
  | .sta m => 0o004000 ||| encMem m
  | .stt m => 0o010000 ||| encMem m
  | .stx m => 0o014000 ||| encMem m
  | .std m => 0o020000 ||| encMem m
  | .ldd m => 0o024000 ||| encMem m
  | .stf m => 0o030000 ||| encMem m
  | .ldf m => 0o034000 ||| encMem m
  | .min m => 0o040000 ||| encMem m
  | .lda m => 0o044000 ||| encMem m
  | .ldt m => 0o050000 ||| encMem m
  | .ldx m => 0o054000 ||| encMem m
  | .add m => 0o060000 ||| encMem m
  | .sub m => 0o064000 ||| encMem m
  | .and m => 0o070000 ||| encMem m
  | .ora m => 0o074000 ||| encMem m
  | .fad m => 0o100000 ||| encMem m
  | .fsb m => 0o104000 ||| encMem m
  | .fmu m => 0o110000 ||| encMem m
  | .fdv m => 0o114000 ||| encMem m
  | .mpy m => 0o120000 ||| encMem m
  | .jmp m => 0o124000 ||| encMem m
  | .jpl m => 0o134000 ||| encMem m
  | .jap d => 0o130000 ||| placed 0 d
  | .jan d => 0o130400 ||| placed 0 d
  | .jaz d => 0o131000 ||| placed 0 d
  | .jaf d => 0o131400 ||| placed 0 d
  | .jpc d => 0o132000 ||| placed 0 d
  | .jnc d => 0o132400 ||| placed 0 d
  | .jxn d => 0o133400 ||| placed 0 d
  | .skpEql sr dr => 0o140000 ||| encSrcDst sr dr
  | .skpGre sr dr => 0o141000 ||| encSrcDst sr dr
  | .skpMgre sr dr => 0o141400 ||| encSrcDst sr dr
  | .skpUeq sr dr => 0o142000 ||| encSrcDst sr dr
  | .skpLst sr dr => 0o143000 ||| encSrcDst sr dr
  | .skpMlst sr dr => 0o143400 ||| encSrcDst sr dr
  | .rmpy sr dr => 0o141200 ||| encSrcDst sr dr
  | .rdiv sr => 0o141600 ||| placed 3 sr.num
  | .lbyt => 0o142200
  | .sbyt => 0o142600
  | .radd adc ad1 cm1 cld sr dr =>
    0o146000 ||| valueIf adc 0o001000 ||| valueIf ad1 0o000400 ||| encModifiers cm1 cld ||| encSrcDst sr dr
  | .rsub sr dr => 0o146600 ||| encSrcDst sr dr
  | .copy sr dr => 0o146100 ||| encSrcDst sr dr
  | .ad1 sr dr => 0o146400 ||| encSrcDst sr dr
  | .adc sr dr => 0o147000 ||| encSrcDst sr dr
  | .cld sr dr => 0o144100 ||| encSrcDst sr dr
  | .cm1 sr dr => 0o144200 ||| encSrcDst sr dr
  | .swap cm1 cld sr dr => 0o144000 ||| encModifiers cm1 cld ||| encSrcDst sr dr
  | .rand cm1 cld sr dr => 0o144400 ||| encModifiers cm1 cld ||| encSrcDst sr dr
  | .rexo cm1 cld sr dr => 0o145000 ||| encModifiers cm1 cld ||| encSrcDst sr dr
  | .rora cm1 cld sr dr => 0o145400 ||| encModifiers cm1 cld ||| encSrcDst sr dr
  | .exit => 0o146142
  | .rclr dr => 0o146100 ||| placed 0 dr.num
  | .rinc dr => 0o146400 ||| placed 0 dr.num
  | .rcdr dr => 0o146200 ||| placed 0 dr.num
  | .tra r => 0o150000 ||| placed 0 (BitVec.ofFin r : BitVec 4)
  | .trr r => 0o150100 ||| placed 0 (BitVec.ofFin r : BitVec 4)
  | .nlz s => 0o151400 ||| placed 0 s
  | .dnz s => 0o152000 ||| placed 0 s
  | .srb n => 0o152402 ||| placed 3 (BitVec.ofFin n : BitVec 4)
  | .lrb n => 0o152600 ||| placed 3 (BitVec.ofFin n : BitVec 4)
  | .sht k n => 0o154000 ||| encShift k n
  | .shd k n => 0o154200 ||| encShift k n
  | .sha k n => 0o154400 ||| encShift k n
  | .sad k n => 0o154600 ||| encShift k n
  | .sab v => 0o170000 ||| placed 0 v
  | .saa v => 0o170400 ||| placed 0 v
  | .sat v => 0o171000 ||| placed 0 v
  | .sax v => 0o171400 ||| placed 0 v
  | .aab v => 0o172000 ||| placed 0 v
  | .aaa v => 0o172400 ||| placed 0 v
  | .aat v => 0o173000 ||| placed 0 v
  | .aax v => 0o173400 ||| placed 0 v
  | .bset c n r => 0o174000 ||| placed 7 c.num ||| encBit n r
  | .bskp c n r => 0o175000 ||| placed 7 c.num ||| encBit n r
  | .bstc n r => 0o176000 ||| encBit n r
  | .bsta n r => 0o176200 ||| encBit n r
  | .bldc n r => 0o176400 ||| encBit n r
  | .blda n r => 0o176600 ||| encBit n r
  | .banc n r => 0o177000 ||| encBit n r
  | .band n r => 0o177200 ||| encBit n r
  | .borc n r => 0o177400 ||| encBit n r
  | .bora n r => 0o177600 ||| encBit n r

end Sys2Proof
end

