-- ==== Sys2Proof/Config.lean ====
section
/-! DEFINITION. What spec/00_scope.md section 4 leaves to the implementation, and the free values.

The parameters MEM_WORDS, BYTE_X_HALVING, ARG_ADD_FLAGS, RB_CURRENT_LEVEL and LIN_MULTI are plain data (`Params`), held in the
state and never written, so that a claim over every state covers every setting (log 1). The functions and draws of which the spec gives no law
are opaque constants: nothing can be proved of their values (logs 7, 15). -/

namespace Sys2Proof.Config

/-- BYTE_X_HALVING (R131): how `(X)/2` treats bit 15 of X. -/
inductive ByteXHalving where
  | logical
  | arithmetic
deriving DecidableEq, Repr

/-- ARG_ADD_FLAGS (R179): what AAA, AAX, AAT and AAB do to C, O and Q. -/
inductive ArgAddFlags where
  | unchanged
  | asAdd
  | draw
deriving DecidableEq, Repr

/-- RB_CURRENT_LEVEL (R153): what LRB and SRB do when the level they name is the current level. -/
inductive RbCurrentLevel where
  /-- `refuse(rb_current_level)` -/
  | refuse
  /-- R151 and R152 as written, P read as pc0 and a loaded P a control transfer -/
  | literal
deriving DecidableEq, Repr

/-- LIN_MULTI (R283): what a LIN shift of more than one place feeds in after the first place. -/
inductive LinMulti where
  /-- `refuse(lin_multi)` -/
  | refuse
  /-- the M of before the instruction at every place -/
  | constant
  /-- each place feeds in the bit that the previous place shifted out -/
  | chain
deriving DecidableEq, Repr

/-- The implementation's parameters (spec/00_scope.md section 4). No instruction writes them. -/
structure Params where
  /-- MEM_WORDS, the number of memory words present: addresses 0 to memWords - 1 (R53) -/
  memWords : Nat
  byteXHalving : ByteXHalving
  argAddFlags : ArgAddFlags
  rbCurrentLevel : RbCurrentLevel
  linMulti : LinMulti
deriving DecidableEq, Repr

/-- The spec's defaults (spec/00_scope.md section 4). -/
def Params.default : Params :=
  { memWords := 65536, byteXHalving := .logical, argAddFlags := .draw, rbCurrentLevel := .refuse, linMulti := .refuse }

/-- The setting at reset: the spec's defaults, but where a default refuses and another setting has an effect, that setting, so that
the instruction does not end a run. [DESIGN CHOICE, unsafe, logs 9, 10] -/
def Params.atReset : Params :=
  { Params.default with rbCurrentLevel := .literal, linMulti := .chain }

/-- MEM_WORDS is 1 to 65536 (spec/92_eei_decisions.md D2). -/
def Params.wf (p : Params) : Bool :=
  decide (1 ≤ p.memWords) && decide (p.memWords ≤ 65536)

/-- What a floating operation returns (R123, R160): the new TAD = T::A::D and the new C and Z. -/
structure FloatResult where
  tad : BitVec 48
  c : Bool
  z : Bool
deriving DecidableEq, Repr, Inhabited

/-- FP_ADD of TG, C, Z, TAD and the memory operand (R123). [DESIGN CHOICE, safe, log 15] -/
opaque fpAdd : Bool → Bool → Bool → BitVec 48 → BitVec 48 → FloatResult

/-- FP_SUB of TG, C, Z, TAD (minuend) and the memory operand (subtrahend) (R123, R127). [DESIGN CHOICE, safe, log 15] -/
opaque fpSub : Bool → Bool → Bool → BitVec 48 → BitVec 48 → FloatResult

/-- FP_MUL of TG, C, Z, TAD and the memory operand (R123). [DESIGN CHOICE, safe, log 15] -/
opaque fpMul : Bool → Bool → Bool → BitVec 48 → BitVec 48 → FloatResult

/-- FP_DIV of TG, C, Z, TAD (dividend) and the memory operand (divisor) (R123, R129). [DESIGN CHOICE, safe, log 15] -/
opaque fpDiv : Bool → Bool → Bool → BitVec 48 → BitVec 48 → FloatResult

/-- FP_NLZ of TG, C, Z, A, D, T and the scaling factor (R160). [DESIGN CHOICE, safe, log 15] -/
opaque fpNlz : Bool → Bool → Bool → Word → Word → Word → Int → FloatResult

/-- FP_DNZ of TG, C, Z, TAD and the scaling factor (R160). [DESIGN CHOICE, safe, log 15] -/
opaque fpDnz : Bool → Bool → Bool → BitVec 48 → Int → FloatResult

/-- The n-th drawn word (spec/00_scope.md section 5.2, `draw`). [DESIGN CHOICE, safe, log 7] -/
opaque drawWord : Nat → Word

/-- The n-th drawn bit (spec/00_scope.md section 5.2, `draw`). [DESIGN CHOICE, safe, log 7] -/
opaque drawBit : Nat → Bool

/-- ENV_READ (R301): what the n-th draw reads from the internal register with this number. [DESIGN CHOICE, safe, log 7] -/
opaque envRead : Fin 16 → Nat → Word

end Sys2Proof.Config
end

