-- ==== Sys2Proof/Machine/State.lean ====
section
/-! DEFINITION. The state of the machine (spec/10_state.md), the reasons a step can stop, and the state a run starts from. -/

namespace Sys2Proof.Machine

/-- The eight registers of one program level (R10). `sts` is register 0, `x` register 7. -/
structure RegBlock where
  /-- status; bits 7 to 1 are the flags M C O Q Z K TG (R16), the other bits have no storage (R18, log 8) -/
  sts : Word
  d : Word
  /-- program counter, the address of the current instruction (R13) -/
  p : Word
  b : Word
  l : Word
  a : Word
  t : Word
  x : Word
deriving DecidableEq, Repr

/-- The state of the machine: plain data. -/
structure State where
  /-- the register block of each program level, `xl[0..15][0..7]` (R10) -/
  levels : Vector RegBlock 16
  /-- LEVEL, the current program level (R12) -/
  level : Fin 16
  /-- memory, as bytes that are not `Memory.unlisted`: byte 2a is the left byte of word a and 2a + 1 its right byte (R26, R42, log 5) -/
  mem : List Host.Cell
  /-- the implementation's parameters (spec/00_scope.md section 4); the model's own field, written by no step (log 1) -/
  params : Config.Params
  /-- how many draws were made; the model's own field (log 7) -/
  draws : Nat
deriving DecidableEq, Repr

/-- Why the machine stops at an access. -/
inductive Fault where
  /-- An access (fetch, indirect word or operand) to the word address `addr` at or beyond MEM_WORDS: the spec's
  `refuse(no_memory)` (R53). Raised by the operations that read and write memory words. Safe: no state follows. -/
  | noMemory (addr : Word)
deriving DecidableEq, Repr

/-- Why a step is refused: the spec's `refuse(reason)` (R323), by which it gives the word no meaning. -/
inductive Refusal where
  /-- The instruction has no meaning in this model yet; no instruction is in this case. Safe. -/
  | notModelled (mnemonic : String)
  /-- The fetched word is no instruction of R76, or a blank field is not zero (R80, R81). Raised by step. Safe. -/
  | unassigned (w : Word)
  /-- A register operation, RMPY or SKP with destination field 0 (R187, R260). Raised by `destination`. Safe. -/
  | dest0
  /-- A register operation with ADC and AD1 both (R193). Raised by `arithOp`. Safe. -/
  | adcAndAd1
  /-- RDIV with divisor zero (R206). Raised by `quotientRemainder`. Safe. -/
  | rdivByZero
  /-- RDIV with a quotient outside 16 signed bits (R206). Raised by `quotientRemainder`. Safe. -/
  | rdivOverflow
  /-- LRB or SRB that names the current level, with the setting `refuse` of RB_CURRENT_LEVEL (R153). Raised by `blockAddress`. Safe. -/
  | rbCurrentLevel
  /-- A LIN shift of more than one place, with the setting `refuse` of LIN_MULTI (R283). Raised by `shifted`. Safe. -/
  | linMulti
  /-- BSKP with condition BCM (R223). Raised by `execBskp`. Safe. -/
  | bskpBcm
  /-- A bit instruction that addresses bit 0 or a bit 8 to 15 of STS (R233). Raised by `getBit` and `putBit`. Safe. -/
  | stsUndefinedBit
  /-- TRA with a register number that is not in the source's table (R300). Raised by `execTra`. Safe. -/
  | traRegister
  /-- TRR, whatever the register (R303). Raised by `execTrr`. Safe. -/
  | trr
deriving DecidableEq, Repr

/-- A register block of zeros. [DESIGN CHOICE, unsafe, log 3: the spec gives no reset value, R28] -/
def RegBlock.zero : RegBlock :=
  { sts := 0, d := 0, p := 0, b := 0, l := 0, a := 0, t := 0, x := 0 }

/-- The state a run starts from. The spec gives none of it (R28, R350): registers zero [DESIGN CHOICE, unsafe, log 3], level 0
[DESIGN CHOICE, unsafe, log 2], nothing listed in memory [DESIGN CHOICE, unsafe, log 4], the parameters at
`Config.Params.atReset` [DESIGN CHOICE, unsafe, logs 1, 9, 10], no draw made [DESIGN CHOICE, safe, log 7]. -/
def State.reset : State :=
  { levels := Vector.replicate 16 RegBlock.zero
    level := 0
    mem := []
    params := Config.Params.atReset
    draws := 0 }

end Sys2Proof.Machine
end

