-- ==== Sys2Proof/Machine/Memory.lean ====
section
/-! DEFINITION. Memory as a list of bytes in one canonical form: addresses strictly rising, and no entry equal to what an unlisted
byte reads as. The byte with number 2a is the left byte of word a, the byte 2a + 1 its right byte (R42, log 5). -/

namespace Sys2Proof.Machine

/-- What a byte that nothing has written reads as. [DESIGN CHOICE, unsafe, log 4: the spec gives none, R28] -/
def Memory.unlisted : Byte := 0

/-- The byte with number `k`. -/
def Memory.read : List Host.Cell → Nat → Byte
  | [], _ => Memory.unlisted
  | (j, v) :: m, k => if j = k then v else Memory.read m k

/-- The list without any entry for byte `k`. -/
def Memory.erase : List Host.Cell → Nat → List Host.Cell
  | [], _ => []
  | (j, v) :: m, k => if j = k then Memory.erase m k else (j, v) :: Memory.erase m k

/-- The list with an entry for byte `k` put before the first higher address. -/
def Memory.insert : List Host.Cell → Nat → Byte → List Host.Cell
  | [], k, v => [(k, v)]
  | (j, u) :: m, k, v => if k < j then (k, v) :: (j, u) :: m else (j, u) :: Memory.insert m k v

/-- Memory after byte `k` is written. Writing what an unlisted byte reads as removes the entry. -/
def Memory.write (m : List Host.Cell) (k : Nat) (v : Byte) : List Host.Cell :=
  if v = Memory.unlisted then Memory.erase m k else Memory.insert (Memory.erase m k) k v

/-- A byte number lies above `lo`, where there is a `lo`. -/
def Memory.above (lo : Option Nat) (k : Nat) : Bool :=
  match lo with
  | none => true
  | some j => decide (j < k)

/-- Every entry lies above `lo`, addresses rise, and no entry is the unlisted value. -/
def Memory.wfFrom : Option Nat → List Host.Cell → Bool
  | _, [] => true
  | lo, (k, v) :: m =>
    Memory.above lo k && decide (v ≠ Memory.unlisted) && Memory.wfFrom (some k) m

/-- The canonical form: addresses strictly rising and no entry equal to what an unlisted byte reads as. -/
def Memory.wf (m : List Host.Cell) : Bool := Memory.wfFrom none m

/-- No byte of a word at or beyond `words` is listed (R53: there is no such word). -/
def Memory.within (words : Nat) (m : List Host.Cell) : Bool :=
  m.all fun c => decide (c.1 < 2 * words)

end Sys2Proof.Machine
end

