-- ==== Sys2Proof/Machine/Ops.lean ====
section
/-! DEFINITION. The named operations over registers, flags and memory, in the notation of spec/00_scope.md section 5.2.

The spec describes no exception, no interrupt entry and no return from one (R322, R324, R326, R327), so there is no operation
here that takes or returns from an exception. -/

namespace Sys2Proof.Machine

/-! ### Outcomes -/

/-- What an operation that can stop the step answers. -/
abbrev Result (α : Type) := Host.Outcome α Fault Refusal

/-- Continue where the first operation answered; a stop stops the whole step (R53: a refused step has no successor state). -/
def andThen {α β : Type} (o : Result α) (k : α → Result β) : Result β :=
  match o with
  | .next a => k a
  | .fault r => .fault r
  | .refused r => .refused r

/-! ### Registers -/

/-- Read a register of a block by name. -/
def RegBlock.get (rb : RegBlock) : Reg → Word
  | .sts => rb.sts
  | .d => rb.d
  | .p => rb.p
  | .b => rb.b
  | .l => rb.l
  | .a => rb.a
  | .t => rb.t
  | .x => rb.x

/-- Write a register of a block by name. -/
def RegBlock.set (rb : RegBlock) (r : Reg) (v : Word) : RegBlock :=
  match r with
  | .sts => { rb with sts := v }
  | .d => { rb with d := v }
  | .p => { rb with p := v }
  | .b => { rb with b := v }
  | .l => { rb with l := v }
  | .a => { rb with a := v }
  | .t => { rb with t := v }
  | .x => { rb with x := v }

/-- The register block of level `n`. -/
def State.blockAt (s : State) (n : Fin 16) : RegBlock := s.levels[n]

/-- Replace the register block of level `n`. -/
def State.setBlockAt (s : State) (n : Fin 16) (rb : RegBlock) : State :=
  { s with levels := s.levels.set n.val rb n.isLt }

/-- `xl[n][r]`: register `r` of level `n` (spec/00_scope.md section 5.2). -/
def State.regAt (s : State) (n : Fin 16) (r : Reg) : Word := (s.blockAt n).get r

/-- `xl[n][r] <- v`. -/
def State.setRegAt (s : State) (n : Fin 16) (r : Reg) (v : Word) : State :=
  s.setBlockAt n ((s.blockAt n).set r v)

/-- `x[r]`: register `r` of the current level. In the state an instruction starts from, `x[P]` is pc0 (R13). -/
def State.reg (s : State) (r : Reg) : Word := s.regAt s.level r

/-- `x[r] <- v`. A write of P is a control transfer: the written value is the address of the next instruction (R14). -/
def State.setReg (s : State) (r : Reg) (v : Word) : State := s.setRegAt s.level r v

/-- `x[P] <- pc0 + 1`, the default successor (R13). A meaning writes its results on this state, so that a write of P in its rule
stands. [DEDUCED, safe, log 20] -/
def State.advance (s : State) : State := s.setReg .p (s.reg .p + 1)

/-- `skip`: `x[P] <- pc0 + 2` (R13). -/
def State.skip (s : State) : State := s.setReg .p (s.reg .p + 2)

/-- Skip the next word where the condition holds (R107, R223, R260). -/
def State.skipIf (s : State) (c : Bool) : State := if c then s.skip else s.advance

/-! ### Flags -/

/-- The seven named flags of STS (R16). -/
inductive Flag where
  | tg | k | z | q | o | c | m
deriving DecidableEq, Repr

/-- The bit of STS that holds a flag (R16; SSO after C6). -/
def Flag.bit : Flag → Fin 16
  | .tg => 1 | .k => 2 | .z => 3 | .q => 4 | .o => 5 | .c => 6 | .m => 7

/-- `v[n] <- b`: the word with bit `n` replaced. -/
def putBitOf (v : Word) (n : Fin 16) (b : Bool) : Word :=
  if b then v ||| BitVec.twoPow 16 n.val else v &&& ~~~(BitVec.twoPow 16 n.val)

/-- A flag of the current level (R16). -/
def State.flag (s : State) (f : Flag) : Bool := (s.reg .sts).getLsbD f.bit.val

/-- Write one flag of the current level, and that bit only (spec/00_scope.md section 5.2). -/
def State.setFlag (s : State) (f : Flag) (b : Bool) : State :=
  s.setReg .sts (putBitOf (s.reg .sts) f.bit b)

/-- The bits of STS that are flags, 7 to 1. -/
def stsMask : Word := 0o000376

/-- An STS word with the flags of `flags` and the other bits of `rest` (R151, R152, R302). -/
def mergeSts (flags rest : Word) : Word := (flags &&& stsMask) ||| (rest &&& ~~~stsMask)

/-! ### Memory -/

/-- The number of the left or right byte of a word (R42, log 5). -/
def byteNumber (a : Word) (right : Bool) : Nat := 2 * a.toNat + right.toNat

/-- One byte of memory by its number. -/
def State.byteAt (s : State) (k : Nat) : Byte := Memory.read s.mem k

/-- Memory after one byte is written. -/
def State.putByte (s : State) (k : Nat) (v : Byte) : State := { s with mem := Memory.write s.mem k v }

/-- The word at a word address (R40): its left byte is bits 15 to 8 (R42). -/
def State.wordAt (s : State) (a : Word) : Word :=
  s.byteAt (byteNumber a false) ++ s.byteAt (byteNumber a true)

/-- Memory after one word is written. -/
def State.putWord (s : State) (a v : Word) : State :=
  (s.putByte (byteNumber a false) (v.extractLsb' 8 8)).putByte (byteNumber a true) (v.extractLsb' 0 8)

/-- The word exists: its address is below MEM_WORDS (R53). -/
def State.present (s : State) (a : Word) : Bool := decide (a.toNat < s.params.memWords)

/-- `MemRead(a, 1)` (R41, R53). -/
def loadWord (s : State) (a : Word) : Result Word :=
  if s.present a then .next (s.wordAt a) else .fault (.noMemory a)

/-- `MemWrite(a, 1, v)` (R41, R53). -/
def storeWord (a v : Word) (s : State) : Result State :=
  if s.present a then .next (s.putWord a v) else .fault (.noMemory a)

/-- `MemRead(a, 2)`: the words at a and a + 1 mod 65536 (R41). -/
def loadTwo (s : State) (a : Word) : Result (Word × Word) :=
  andThen (loadWord s a) fun w0 =>
  andThen (loadWord s (a + 1)) fun w1 => .next (w0, w1)

/-- `MemRead(a, 3)` as the 48-bit value w0 :: w1 :: w2 (R41, R43, R123). -/
def loadFloat (s : State) (a : Word) : Result (BitVec 48) :=
  andThen (loadWord s a) fun w0 =>
  andThen (loadWord s (a + 1)) fun w1 =>
  andThen (loadWord s (a + 2)) fun w2 => .next (w0 ++ w1 ++ w2)

/-- `MemWrite(a, n, vs)`: consecutive words from `a`, each address mod 65536 (R41). -/
def storeWords (a : Word) : List Word → State → Result State
  | [], s => .next s
  | v :: vs, s => andThen (storeWord a v s) fun t => storeWords (a + 1) vs t

/-- The words of a register block in memory, in the order P, X, T, A, D, L, STS, B (R150). -/
def loadBlock (s : State) (a : Word) : Result RegBlock :=
  andThen (loadWord s a) fun p =>
  andThen (loadWord s (a + 1)) fun x =>
  andThen (loadWord s (a + 2)) fun t =>
  andThen (loadWord s (a + 3)) fun ra =>
  andThen (loadWord s (a + 4)) fun d =>
  andThen (loadWord s (a + 5)) fun l =>
  andThen (loadWord s (a + 6)) fun sts =>
  andThen (loadWord s (a + 7)) fun b =>
  .next { sts := sts, d := d, p := p, b := b, l := l, a := ra, t := t, x := x }

/-! ### Composite registers (R19) -/

/-- AD = A :: D, the double accumulator. -/
def State.double (s : State) : BitVec 32 := s.reg .a ++ s.reg .d

/-- `AD <- v`. -/
def State.setDouble (s : State) (v : BitVec 32) : State :=
  (s.setReg .a (v.extractLsb' 16 16)).setReg .d (v.extractLsb' 0 16)

/-- TAD = T :: A :: D, the floating accumulator. -/
def State.float (s : State) : BitVec 48 := s.reg .t ++ s.reg .a ++ s.reg .d

/-- `TAD <- v`. -/
def State.setFloat (s : State) (v : BitVec 48) : State :=
  ((s.setReg .t (v.extractLsb' 32 16)).setReg .a (v.extractLsb' 16 16)).setReg .d (v.extractLsb' 0 16)

/-! ### Draws -/

/-- The state after `n` draws (spec/00_scope.md section 5.2: chosen afresh each time; log 7). -/
def State.drew (s : State) (n : Nat) : State := { s with draws := s.draws + n }

end Sys2Proof.Machine
end

