-- ==== Sys2Proof/Machine/Flags.lean ====
section
/-! DEFINITION. The flag laws: additions (R116), MPY (R115), argument additions (R179), and the flags a floating function returns
(R123). The M flag of a shift is computed with the shift (Machine/Shift.lean). -/

namespace Sys2Proof.Machine

/-- What an addition yields: the result, the carry out of bit 15 and the signed overflow (R116). -/
structure Sum where
  r : Word
  c : Bool
  v : Bool
deriving DecidableEq, Repr

/-- `ADD16(a, b, cin)` (R116). [PRESUMED, unsafe, log 21: the spec's decision D6] -/
def add16 (a b : Word) (cin : Bool) : Sum :=
  let n := a.toNat + b.toNat + cin.toNat
  let r := BitVec.ofNat 16 n
  { r := r, c := n.testBit 16, v := (a.msb == b.msb) && (r.msb != a.msb) }

/-- The overflow pair: Q follows the operation, O is set and never cleared (R115, R116). -/
def State.setOverflow (s : State) (v : Bool) : State :=
  (s.setFlag .q v).setFlag .o (s.flag .o || v)

/-- `SETFLAGS(c, v)` (R116). -/
def State.setAddFlags (s : State) (c v : Bool) : State :=
  (s.setFlag .c c).setOverflow v

/-- C, O and Q after an argument addition of `a` and `b` (R179), by the parameter ARG_ADD_FLAGS. -/
def State.setArgFlags (s : State) (a b : Word) : State :=
  match s.params.argAddFlags with
  | .unchanged => s
  | .asAdd => s.setAddFlags (add16 a b false).c (add16 a b false).v
  | .draw =>
    (((s.setFlag .c (Config.drawBit s.draws)).setFlag .o (Config.drawBit (s.draws + 1))).setFlag .q
      (Config.drawBit (s.draws + 2))).drew 3

/-- A signed number that does not fit 16 bits (R115, R206). -/
def overflows16 (n : Int) : Bool := decide (n < -32768) || decide (32767 < n)

/-- The result of a floating function: TAD, C and Z (R123, R126, R160). -/
def State.setFloatResult (s : State) (f : Config.FloatResult) : State :=
  ((s.setFloat f.tad).setFlag .c f.c).setFlag .z f.z

end Sys2Proof.Machine
end

