-- ==== Sys2Proof/Machine/Operands.lean ====
section
/-! DEFINITION. The operand forms: effective address (R100), source and destination (R186, R187, R207), byte address (R131) and
addressed bit (R221). -/

namespace Sys2Proof.Machine

/-- The displacement or argument as a 16-bit value: `sext_8(v) mod 65536` (R77, R170). -/
def signed8 (v : BitVec 8) : Word := v.signExtend 16

/-- The base of an address before indirection and post-indexing (R100): B with `,B`; X-relative alone has none; else pc0. -/
def eaBase (m : MemRef) (s : State) : Word :=
  if m.b then s.reg .b
  else if m.i || !m.x then s.reg .p
  else 0

/-- Indirection, one level: after B, before X (R100). -/
def eaIndirect (m : MemRef) (s : State) (a : Word) : Result Word :=
  if m.i then loadWord s a else .next a

/-- `EA(IR)`: the effective address (R100). -/
def ea (m : MemRef) (s : State) : Result Word :=
  andThen (eaIndirect m s (eaBase m s + signed8 m.disp)) fun a =>
  .next (if m.x then a + s.reg .x else a)

/-- The register a source field names, if it names one (R186). -/
def sourceReg : Src → Option Reg
  | .zero => none
  | .d => some .d
  | .p => some .p
  | .b => some .b
  | .l => some .l
  | .a => some .a
  | .t => some .t
  | .x => some .x

/-- `SRC(IR)`: the value of a source, zero for field 0; P yields pc0 (R186). -/
def sourceValue (sr : Src) (s : State) : Word :=
  match sourceReg sr with
  | none => 0
  | some r => s.reg r

/-- The register a destination field names; field 0 is refused (R187). -/
def destination : Dst → Result Reg
  | .undef => .refused .dest0
  | .d => .next .d
  | .p => .next .p
  | .b => .next .b
  | .l => .next .l
  | .a => .next .a
  | .t => .next .t
  | .x => .next .x

/-- The source operand of `OPERANDS(IR)`: complemented with CM1 (R207). -/
def sourceOperand (cm1 : Bool) (sr : Src) (s : State) : Word :=
  if cm1 then ~~~(sourceValue sr s) else sourceValue sr s

/-- The destination operand of `OPERANDS(IR)`: zero with CLD (R207). -/
def destOperand (cld : Bool) (r : Reg) (s : State) : Word :=
  if cld then 0 else s.reg r

/-- `(X)/2` (R131): bit 15 of the half is zero, or bit 15 of X where BYTE_X_HALVING is arithmetic. -/
def halved (mode : Config.ByteXHalving) (x : Word) : Word :=
  match mode with
  | .logical => x >>> 1
  | .arithmetic => x.sshiftRight 1

/-- `BYTEADDR()`: the word that holds the addressed byte (R131). -/
def byteWord (s : State) : Word := s.reg .t + halved s.params.byteXHalving (s.reg .x)

/-- `BYTEADDR()`: bit 0 of X selects the right byte (R131). -/
def byteRight (s : State) : Bool := (s.reg .x).getLsbD 0

/-- The addressed bit exists: STS has only bits 1 to 7 (R233). -/
def bitDefined (n : Fin 16) (r : Reg) : Bool :=
  decide (r ≠ .sts) || (decide (1 ≤ n.val) && decide (n.val ≤ 7))

/-- `GETBIT(IR)` (R221): the addressed bit; of P it is a bit of pc0. -/
def getBit (n : Fin 16) (r : Reg) (s : State) : Result Bool :=
  if bitDefined n r then .next ((s.reg r).getLsbD n.val) else .refused .stsUndefinedBit

/-- `PUTBIT(IR, b)` (R221): the register as read in `s`, with bit `n` replaced, is written in `t`; P becomes a control transfer. -/
def putBit (n : Fin 16) (r : Reg) (b : Bool) (s t : State) : Result State :=
  if bitDefined n r then .next (t.setReg r (putBitOf (s.reg r) n b)) else .refused .stsUndefinedBit

end Sys2Proof.Machine
end

