-- ==== Sys2Proof/Machine/Argument.lean ====
section
/-! DEFINITION. Argument instructions (spec/43_argument.md). -/

namespace Sys2Proof.Machine

/-- Set a register to the argument (R170): the shape of SAA, SAX, SAT, SAB. -/
def setArgument (r : Reg) (arg : BitVec 8) (s : State) : Result State :=
  .next (s.advance.setReg r (signed8 arg))

/-- Add the argument to a register (R170), the flags by R179: the shape of AAA, AAX, AAT, AAB. -/
def addArgument (r : Reg) (arg : BitVec 8) (s : State) : Result State :=
  .next ((s.advance.setReg r (s.reg r + signed8 arg)).setArgFlags (s.reg r) (signed8 arg))

/-- SAB (R177). -/
def execSab (arg : BitVec 8) (s : State) : Result State := setArgument .b arg s

/-- SAA (R171). -/
def execSaa (arg : BitVec 8) (s : State) : Result State := setArgument .a arg s

/-- SAT (R175). -/
def execSat (arg : BitVec 8) (s : State) : Result State := setArgument .t arg s

/-- SAX (R173). -/
def execSax (arg : BitVec 8) (s : State) : Result State := setArgument .x arg s

/-- AAB (R178). -/
def execAab (arg : BitVec 8) (s : State) : Result State := addArgument .b arg s

/-- AAA (R172). -/
def execAaa (arg : BitVec 8) (s : State) : Result State := addArgument .a arg s

/-- AAT (R176). -/
def execAat (arg : BitVec 8) (s : State) : Result State := addArgument .t arg s

/-- AAX (R174). -/
def execAax (arg : BitVec 8) (s : State) : Result State := addArgument .x arg s

end Sys2Proof.Machine
end

