-- ==== Sys2Proof/Machine/Arithmetic.lean ====
section
/-! DEFINITION. Arithmetical and logical instructions with a memory operand: ADD, SUB, AND, ORA, MPY (spec/40_memory_reference.md). -/

namespace Sys2Proof.Machine

/-- Read the memory operand and go on with it: the shape of the instructions of this file. -/
def withOperand (m : MemRef) (s : State) (k : Word → State) : Result State :=
  andThen (ea m s) fun el =>
  andThen (loadWord s el) fun w => .next (k w)

/-- Write the result of an addition to a register, with C, Q and O (R116). -/
def State.setSum (s : State) (r : Reg) (sum : Sum) : State := (s.setReg r sum.r).setAddFlags sum.c sum.v

/-- ADD (R111). -/
def execAdd (m : MemRef) (s : State) : Result State :=
  withOperand m s fun w => s.advance.setSum .a (add16 (s.reg .a) w false)

/-- SUB (R112): the addition of the one's complement plus one. -/
def execSub (m : MemRef) (s : State) : Result State :=
  withOperand m s fun w => s.advance.setSum .a (add16 (s.reg .a) (~~~w) true)

/-- AND (R113). -/
def execAnd (m : MemRef) (s : State) : Result State :=
  withOperand m s fun w => s.advance.setReg .a (s.reg .a &&& w)

/-- ORA (R114). -/
def execOra (m : MemRef) (s : State) : Result State :=
  withOperand m s fun w => s.advance.setReg .a (s.reg .a ||| w)

/-- MPY (R115): signed; A receives the low 16 bits; Q and O only. [DEDUCED, unsafe, log 21: the spec's decision D7] -/
def execMpy (m : MemRef) (s : State) : Result State :=
  withOperand m s fun w =>
    let p := (s.reg .a).toInt * w.toInt
    (s.advance.setReg .a (BitVec.ofInt 16 p)).setOverflow (overflows16 p)

end Sys2Proof.Machine
end

