-- ==== Sys2Proof/Machine/Bit.lean ====
section
/-! DEFINITION. Bit instructions (spec/45_bit.md). -/

namespace Sys2Proof.Machine

/-- Set the addressed bit and go on with the next instruction (R221, R222). -/
def writeBit (n : Fin 16) (r : Reg) (b : Bool) (s : State) : Result State := putBit n r b s s.advance

/-- BSET (R222). -/
def execBset (cond : BitCond) (n : Fin 16) (r : Reg) (s : State) : Result State :=
  match cond with
  | .zro => writeBit n r false s
  | .one => writeBit n r true s
  | .bcm => andThen (getBit n r s) fun b => writeBit n r (!b) s
  | .bac => writeBit n r (s.flag .k) s

/-- BSKP (R223): the bit is read first; BCM is no condition and is refused. -/
def execBskp (cond : BitCond) (n : Fin 16) (r : Reg) (s : State) : Result State :=
  andThen (getBit n r s) fun b =>
  match cond with
  | .zro => .next (s.skipIf (!b))
  | .one => .next (s.skipIf b)
  | .bcm => .refused .bskpBcm
  | .bac => .next (s.skipIf (b == s.flag .k))

/-- Store a bit, then write K: the shape of BSTA and BSTC (R224, R225). Where the bit is K itself the second write stands. -/
def storeBit (n : Fin 16) (r : Reg) (b k : Bool) (s : State) : Result State :=
  andThen (writeBit n r b s) fun t => .next (t.setFlag .k k)

/-- BSTC (R225): store the complement of K and set K. -/
def execBstc (n : Fin 16) (r : Reg) (s : State) : Result State := storeBit n r (!s.flag .k) true s

/-- BSTA (R224): store and clear K. -/
def execBsta (n : Fin 16) (r : Reg) (s : State) : Result State := storeBit n r (s.flag .k) false s

/-- Compute K from K and the addressed bit: the shape of the instructions that load or combine K (R226 to R231). -/
def combineK (f : Bool → Bool → Bool) (n : Fin 16) (r : Reg) (s : State) : Result State :=
  andThen (getBit n r s) fun b => .next (s.advance.setFlag .k (f (s.flag .k) b))

/-- BLDC (R227). -/
def execBldc (n : Fin 16) (r : Reg) (s : State) : Result State := combineK (fun _ b => !b) n r s

/-- BLDA (R226). -/
def execBlda (n : Fin 16) (r : Reg) (s : State) : Result State := combineK (fun _ b => b) n r s

/-- BANC (R228). -/
def execBanc (n : Fin 16) (r : Reg) (s : State) : Result State := combineK (fun k b => k && !b) n r s

/-- BAND (R230). -/
def execBand (n : Fin 16) (r : Reg) (s : State) : Result State := combineK (fun k b => k && b) n r s

/-- BORC (R229). -/
def execBorc (n : Fin 16) (r : Reg) (s : State) : Result State := combineK (fun k b => k || !b) n r s

/-- BORA (R231). -/
def execBora (n : Fin 16) (r : Reg) (s : State) : Result State := combineK (fun k b => k || b) n r s

end Sys2Proof.Machine
end

