-- ==== Sys2Proof/Machine/Block.lean ====
section
/-! DEFINITION. Register block instructions LRB and SRB (spec/41_register_block.md). -/

namespace Sys2Proof.Machine

/-- The instruction names the current level and RB_CURRENT_LEVEL is `refuse` (R153). -/
def blockRefused (n : Fin 16) (s : State) : Bool :=
  decide (n = s.level) && decide (s.params.rbCurrentLevel = .refuse)

/-- The address of the register block, X of the current level (R150), where the level may be named (R153). With the setting `literal` P
of the current level is read as pc0 and a loaded P is a control transfer, which is what R151 and R152 then say. -/
def blockAddress (n : Fin 16) (s : State) : Result Word :=
  if blockRefused n s then .refused .rbCurrentLevel else .next (s.reg .x)

/-- LRB (R151): the block at (X) of the current level to level `n`; of STS only the flags are loaded. -/
def execLrb (n : Fin 16) (s : State) : Result State :=
  andThen (blockAddress n s) fun el =>
  andThen (loadBlock s el) fun rb =>
  .next (s.advance.setBlockAt n { rb with sts := mergeSts rb.sts (s.regAt n .sts) })

/-- SRB (R152): the block of level `n` to (X) of the current level; the undefined bits of STS are drawn. -/
def execSrb (n : Fin 16) (s : State) : Result State :=
  andThen (blockAddress n s) fun el =>
  storeWords el
    [s.regAt n .p, s.regAt n .x, s.regAt n .t, s.regAt n .a, s.regAt n .d, s.regAt n .l,
      mergeSts (s.regAt n .sts) (Config.drawWord s.draws), s.regAt n .b]
    (s.advance.drew 1)

end Sys2Proof.Machine
end

