-- ==== Sys2Proof/Machine/ByteOps.lean ====
section
/-! DEFINITION. Byte instructions LBYT and SBYT (spec/40_memory_reference.md R131 to R133). -/

namespace Sys2Proof.Machine

/-- LBYT (R132): the byte to bits 7 to 0 of A, the upper half cleared. [PRESUMED, unsafe, log 22: the spec's decision D11] -/
def execLbyt (s : State) : Result State :=
  andThen (loadWord s (byteWord s)) fun w =>
  let byte : Byte := if byteRight s then w.extractLsb' 0 8 else w.extractLsb' 8 8
  .next (s.advance.setReg .a (byte.setWidth 16))

/-- SBYT (R133): bits 7 to 0 of A replace one byte of the word. [PRESUMED, unsafe, log 22: the spec's decision D11] -/
def execSbyt (s : State) : Result State :=
  andThen (loadWord s (byteWord s)) fun w =>
  let byte : Byte := (s.reg .a).extractLsb' 0 8
  let new : Word := if byteRight s then w.extractLsb' 8 8 ++ byte else byte ++ w.extractLsb' 0 8
  storeWord (byteWord s) new s.advance

end Sys2Proof.Machine
end

