-- ==== Sys2Proof/Machine/Extended.lean ====
section
/-! DEFINITION. Extended arithmetic operations RMPY and RDIV (spec/44_register_operations.md R205, R206). No flag changes. -/

namespace Sys2Proof.Machine

/-- RMPY (R205): the signed 32-bit product in AD. [PRESUMED, unsafe, log 23: the spec's decision D19] -/
def execRmpy (sr : Src) (dr : Dst) (s : State) : Result State :=
  andThen (destination dr) fun r =>
  .next (s.advance.setDouble (BitVec.ofInt 32 ((sourceValue sr s).toInt * (s.reg r).toInt)))

/-- What RDIV leaves in A and D (R206): quotient rounded toward zero and remainder. Divisor zero and a quotient that does not fit are
refused. [PRESUMED, unsafe, log 23: the spec's decision D19] -/
def quotientRemainder (n : BitVec 32) (d : Word) : Result (Word × Word) :=
  if d = 0 then .refused .rdivByZero
  else
    let q := Int.tdiv n.toInt d.toInt
    if overflows16 q then .refused .rdivOverflow
    else .next (BitVec.ofInt 16 q, BitVec.ofInt 16 (n.toInt - q * d.toInt))

/-- RDIV (R206). -/
def execRdiv (sr : Src) (s : State) : Result State :=
  andThen (quotientRemainder s.double (sourceValue sr s)) fun qr =>
  .next ((s.advance.setReg .a qr.1).setReg .d qr.2)

end Sys2Proof.Machine
end

