-- ==== Sys2Proof/Machine/Floating.lean ====
section
/-! DEFINITION. Floating instructions FAD, FSB, FMU, FDV (spec/40_memory_reference.md R123 to R129) and floating conversions NLZ,
DNZ (spec/42_floating_conversion.md). The results are the opaque functions of Config (log 15). -/

namespace Sys2Proof.Machine

/-- A floating operation of TAD and the memory operand: the shape of R126. -/
def floatOp (f : Bool → Bool → Bool → BitVec 48 → BitVec 48 → Config.FloatResult) (m : MemRef) (s : State) : Result State :=
  andThen (ea m s) fun el =>
  andThen (loadFloat s el) fun fw =>
  .next (s.advance.setFloatResult (f (s.flag .tg) (s.flag .c) (s.flag .z) s.float fw))

/-- FAD (R126). -/
def execFad (m : MemRef) (s : State) : Result State := floatOp Config.fpAdd m s

/-- FSB (R127). -/
def execFsb (m : MemRef) (s : State) : Result State := floatOp Config.fpSub m s

/-- FMU (R128). -/
def execFmu (m : MemRef) (s : State) : Result State := floatOp Config.fpMul m s

/-- FDV (R129). -/
def execFdv (m : MemRef) (s : State) : Result State := floatOp Config.fpDiv m s

/-- NLZ (R161): the number in A to a floating number in TAD. -/
def execNlz (scaling : BitVec 8) (s : State) : Result State :=
  .next (s.advance.setFloatResult
    (Config.fpNlz (s.flag .tg) (s.flag .c) (s.flag .z) (s.reg .a) (s.reg .d) (s.reg .t) scaling.toInt))

/-- DNZ (R162): the floating number in TAD to a fixed point number in A. -/
def execDnz (scaling : BitVec 8) (s : State) : Result State :=
  .next (s.advance.setFloatResult
    (Config.fpDnz (s.flag .tg) (s.flag .c) (s.flag .z) s.float scaling.toInt))

end Sys2Proof.Machine
end

