-- ==== Sys2Proof/Machine/Jump.lean ====
section
/-! DEFINITION. Sequencing instructions JMP, JPL and the conditional jumps (spec/46_sequencing.md). -/

namespace Sys2Proof.Machine

/-- JMP (R250): the effective address is the target; no operand is read at it. -/
def execJmp (m : MemRef) (s : State) : Result State :=
  andThen (ea m s) fun el => .next (s.setReg .p el)

/-- JPL (R251): L receives pc0 + 1, the return address. [DEDUCED, unsafe, log 20: conflict C11, decision D5] -/
def execJpl (m : MemRef) (s : State) : Result State :=
  andThen (ea m s) fun el => .next ((s.setReg .l (s.reg .p + 1)).setReg .p el)

/-- `CJTARGET(IR)` (R252): pc0 plus the displacement. [DEDUCED, unsafe, log 20: decision D42] -/
def jumpTarget (disp : BitVec 8) (s : State) : Word := s.reg .p + signed8 disp

/-- Jump where the condition holds, else go on with the next instruction (R252). -/
def condJump (c : Bool) (disp : BitVec 8) (s : State) : State :=
  if c then s.setReg .p (jumpTarget disp s) else s.advance

/-- JAP (R253): A ≥ 0. -/
def execJap (disp : BitVec 8) (s : State) : Result State := .next (condJump (!(s.reg .a).msb) disp s)

/-- JAN (R254): A < 0. -/
def execJan (disp : BitVec 8) (s : State) : Result State := .next (condJump (s.reg .a).msb disp s)

/-- JAZ (R255): A = 0. -/
def execJaz (disp : BitVec 8) (s : State) : Result State := .next (condJump (s.reg .a == 0) disp s)

/-- JAF (R256): A ≠ 0. -/
def execJaf (disp : BitVec 8) (s : State) : Result State := .next (condJump (s.reg .a != 0) disp s)

/-- X := X + 1 (R257, R258). -/
def incrementX (s : State) : State := s.setReg .x (s.reg .x + 1)

/-- JPC (R257): increment X, jump where the new X ≥ 0. -/
def execJpc (disp : BitVec 8) (s : State) : Result State :=
  .next (condJump (!((incrementX s).reg .x).msb) disp (incrementX s))

/-- JNC (R258): increment X, jump where the new X < 0. -/
def execJnc (disp : BitVec 8) (s : State) : Result State :=
  .next (condJump ((incrementX s).reg .x).msb disp (incrementX s))

/-- JXN (R259): X < 0. -/
def execJxn (disp : BitVec 8) (s : State) : Result State := .next (condJump (s.reg .x).msb disp s)

end Sys2Proof.Machine
end

