-- ==== Sys2Proof/Machine/Load.lean ====
section
/-! DEFINITION. Load instructions: LDA, LDT, LDX, LDD, LDF (spec/40_memory_reference.md). -/

namespace Sys2Proof.Machine

/-- Load the word at the effective address into a register: the shape of the single load instructions. -/
def loadReg (r : Reg) (m : MemRef) (s : State) : Result State :=
  andThen (ea m s) fun el =>
  andThen (loadWord s el) fun w => .next (s.advance.setReg r w)

/-- LDA (R108). -/
def execLda (m : MemRef) (s : State) : Result State := loadReg .a m s

/-- LDT (R109). -/
def execLdt (m : MemRef) (s : State) : Result State := loadReg .t m s

/-- LDX (R110); the old X indexes. -/
def execLdx (m : MemRef) (s : State) : Result State := loadReg .x m s

/-- LDD (R121). -/
def execLdd (m : MemRef) (s : State) : Result State :=
  andThen (ea m s) fun el =>
  andThen (loadTwo s el) fun w => .next ((s.advance.setReg .a w.1).setReg .d w.2)

/-- LDF (R125). -/
def execLdf (m : MemRef) (s : State) : Result State :=
  andThen (ea m s) fun el =>
  andThen (loadFloat s el) fun w => .next (s.advance.setFloat w)

end Sys2Proof.Machine
end

