-- ==== Sys2Proof/Machine/RegisterOps.lean ====
section
/-! DEFINITION. Register operations (spec/44_register_operations.md): the arithmetic operation with its modifiers, the logical
operations, and the rows that name particular words of them. Operands are read before anything is written (R207). -/

namespace Sys2Proof.Machine

/-- The carry-in of an arithmetic register operation: one with AD1, the old C with ADC (R188, R192, R193). -/
def carryIn (adc ad1 : Bool) (s : State) : Bool := ad1 || (adc && s.flag .c)

/-- The arithmetic register operation (R188). -/
def arithOp (adc ad1 cm1 cld : Bool) (sr : Src) (dr : Dst) (s : State) : Result State :=
  andThen (destination dr) fun r =>
  if adc && ad1 then .refused .adcAndAd1
  else
    let sum := add16 (destOperand cld r s) (sourceOperand cm1 sr s) (carryIn adc ad1 s)
    .next ((s.advance.setReg r sum.r).setAddFlags sum.c sum.v)

/-- A logical register operation other than SWAP (R198 to R200): no flag (R196). -/
def logicOp (f : Word → Word → Word) (cm1 cld : Bool) (sr : Src) (dr : Dst) (s : State) : Result State :=
  andThen (destination dr) fun r =>
  .next (s.advance.setReg r (f (destOperand cld r s) (sourceOperand cm1 sr s)))

/-- Register exchange (R197): the source register receives the destination operand, then the destination the source operand. -/
def swapOp (cm1 cld : Bool) (sr : Src) (dr : Dst) (s : State) : Result State :=
  andThen (destination dr) fun r =>
  let t := match sourceReg sr with
    | none => s.advance
    | some q => s.advance.setReg q (destOperand cld r s)
  .next (t.setReg r (sourceOperand cm1 sr s))

/-- RADD with any modifiers (R188, R189). -/
def execRadd (adc ad1 cm1 cld : Bool) (sr : Src) (dr : Dst) (s : State) : Result State :=
  arithOp adc ad1 cm1 cld sr dr s

/-- RSUB (R190): RADD AD1 CM1. -/
def execRsub (sr : Src) (dr : Dst) (s : State) : Result State := arithOp false true true false sr dr s

/-- COPY (R191): RADD CLD. -/
def execCopy (sr : Src) (dr : Dst) (s : State) : Result State := arithOp false false false true sr dr s

/-- The row AD1 (R192): RADD with AD1 alone. -/
def execAd1 (sr : Src) (dr : Dst) (s : State) : Result State := arithOp false true false false sr dr s

/-- The row ADC (R193): RADD with ADC alone. -/
def execAdc (sr : Src) (dr : Dst) (s : State) : Result State := arithOp true false false false sr dr s

/-- The row CLD (R194): the operation of code 144000 (SWAP) with CLD alone. -/
def execCld (sr : Src) (dr : Dst) (s : State) : Result State := swapOp false true sr dr s

/-- The row CM1 (R195): the operation of code 144000 (SWAP) with CM1 alone. -/
def execCm1 (sr : Src) (dr : Dst) (s : State) : Result State := swapOp true false sr dr s

/-- SWAP (R197). -/
def execSwap (cm1 cld : Bool) (sr : Src) (dr : Dst) (s : State) : Result State := swapOp cm1 cld sr dr s

/-- RAND (R198). -/
def execRand (cm1 cld : Bool) (sr : Src) (dr : Dst) (s : State) : Result State :=
  logicOp (fun d v => d &&& v) cm1 cld sr dr s

/-- REXO (R199). -/
def execRexo (cm1 cld : Bool) (sr : Src) (dr : Dst) (s : State) : Result State :=
  logicOp (fun d v => d ^^^ v) cm1 cld sr dr s

/-- RORA (R200). -/
def execRora (cm1 cld : Bool) (sr : Src) (dr : Dst) (s : State) : Result State :=
  logicOp (fun d v => d ||| v) cm1 cld sr dr s

/-- EXIT (R201): COPY SL DP. -/
def execExit (s : State) : Result State := arithOp false false false true .l .p s

/-- RCLR (R202): COPY with source field 0. -/
def execRclr (dr : Dst) (s : State) : Result State := arithOp false false false true .zero dr s

/-- RINC (R203): RADD AD1 with source field 0. -/
def execRinc (dr : Dst) (s : State) : Result State := arithOp false true false false .zero dr s

/-- RCDR (R204): RADD CM1 with source field 0. -/
def execRcdr (dr : Dst) (s : State) : Result State := arithOp false false true false .zero dr s

end Sys2Proof.Machine
end

