-- ==== Sys2Proof/Machine/Shift.lean ====
section
/-! DEFINITION. Shift instructions (spec/47_shift.md): one place at a time (R282, R288), for a register of any width. -/

namespace Sys2Proof.Machine

/-- What a left shift by one place feeds into bit 0 (R281); `link` is what LIN feeds in. -/
def leftInput {w : Nat} (kind : ShiftKind) (link : Bool) (v : BitVec w) : Bool :=
  match kind with
  | .arith => false
  | .rot => v.msb
  | .zin => false
  | .lin => link

/-- What a right shift by one place feeds into the top bit (R281). -/
def rightInput {w : Nat} (kind : ShiftKind) (link : Bool) (v : BitVec w) : Bool :=
  match kind with
  | .arith => v.msb
  | .rot => v.getLsbD 0
  | .zin => false
  | .lin => link

/-- One place (R288): the new value and the bit that left. -/
def shiftPlace {w : Nat} (left : Bool) (kind : ShiftKind) (link : Bool) (v : BitVec w) : BitVec w × Bool :=
  if left then
    (v <<< 1 ||| (BitVec.ofBool (leftInput kind link v)).setWidth w, v.msb)
  else
    (v >>> 1 ||| (if rightInput kind link v then BitVec.twoPow w (w - 1) else 0), v.getLsbD 0)

/-- What LIN feeds in at a place: the M of before the instruction, or the bit the previous place shifted out (R283). With the setting
`refuse` there is only a first place, where both are the old M. -/
def linkInput (mode : Config.LinMulti) (m0 last : Bool) : Bool :=
  match mode with
  | .constant => m0
  | .refuse => last
  | .chain => last

/-- `n` places (R288); `last` is the bit that left at the place before, the old M at the first. -/
def shiftPlaces {w : Nat} (mode : Config.LinMulti) (left : Bool) (kind : ShiftKind) (m0 : Bool) :
    Nat → BitVec w → Bool → BitVec w × Bool
  | 0, v, last => (v, last)
  | n + 1, v, last =>
    let place := shiftPlace left kind (linkInput mode m0 last) v
    shiftPlaces mode left kind m0 n place.1 place.2

/-- A LIN shift of more than one place where LIN_MULTI is `refuse` (R283, R288). -/
def linRefused (kind : ShiftKind) (count : BitVec 6) (s : State) : Bool :=
  decide (kind = .lin) && decide (1 < count.toInt.natAbs) && decide (s.params.linMulti = .refuse)

/-- A shift by the signed counter: left where positive, right where negative (R282). The value and the last bit that left. -/
def shifted {w : Nat} (s : State) (kind : ShiftKind) (count : BitVec 6) (v : BitVec w) : Result (BitVec w × Bool) :=
  if linRefused kind count s then .refused .linMulti
  else .next
    (shiftPlaces s.params.linMulti (decide (0 < count.toInt)) kind (s.flag .m) count.toInt.natAbs v (s.flag .m))

/-- Shift one register (R288); count 0 changes nothing, M included (R282). -/
def shiftReg (r : Reg) (kind : ShiftKind) (count : BitVec 6) (s : State) : Result State :=
  if count = 0 then .next s.advance
  else
    andThen (shifted s kind count (s.reg r)) fun out =>
    .next ((s.advance.setReg r out.1).setFlag .m out.2)

/-- SHT (R284). -/
def execSht (kind : ShiftKind) (count : BitVec 6) (s : State) : Result State := shiftReg .t kind count s

/-- SHD (R285). -/
def execShd (kind : ShiftKind) (count : BitVec 6) (s : State) : Result State := shiftReg .d kind count s

/-- SHA (R286). -/
def execSha (kind : ShiftKind) (count : BitVec 6) (s : State) : Result State := shiftReg .a kind count s

/-- SAD (R287): A and D connected. -/
def execSad (kind : ShiftKind) (count : BitVec 6) (s : State) : Result State :=
  if count = 0 then .next s.advance
  else
    andThen (shifted s kind count s.double) fun out =>
    .next ((s.advance.setDouble out.1).setFlag .m out.2)

end Sys2Proof.Machine
end

