-- ==== Sys2Proof/Machine/Skip.lean ====
section
/-! DEFINITION. The skip instruction SKP with each condition (spec/46_sequencing.md R260, R261). The destination register is the left
operand. [PRESUMED, unsafe, log 24: the spec's decision D23] -/

namespace Sys2Proof.Machine

/-- SKP with a relation (R260): nothing is written but P. -/
def skipOn (rel : Word → Word → Bool) (sr : Src) (dr : Dst) (s : State) : Result State :=
  andThen (destination dr) fun r => .next (s.skipIf (rel (s.reg r) (sourceValue sr s)))

/-- SKP EQL (R261). -/
def execSkpEql (sr : Src) (dr : Dst) (s : State) : Result State := skipOn (fun d v => d == v) sr dr s

/-- SKP GRE (R261): signed. -/
def execSkpGre (sr : Src) (dr : Dst) (s : State) : Result State :=
  skipOn (fun d v => decide (v.toInt ≤ d.toInt)) sr dr s

/-- SKP MGRE (R261): unsigned. -/
def execSkpMgre (sr : Src) (dr : Dst) (s : State) : Result State :=
  skipOn (fun d v => decide (v.toNat ≤ d.toNat)) sr dr s

/-- SKP UEQ (R261). -/
def execSkpUeq (sr : Src) (dr : Dst) (s : State) : Result State := skipOn (fun d v => d != v) sr dr s

/-- SKP LST (R261): signed. -/
def execSkpLst (sr : Src) (dr : Dst) (s : State) : Result State :=
  skipOn (fun d v => decide (d.toInt < v.toInt)) sr dr s

/-- SKP MLST (R261): unsigned. -/
def execSkpMlst (sr : Src) (dr : Dst) (s : State) : Result State :=
  skipOn (fun d v => decide (d.toNat < v.toNat)) sr dr s

end Sys2Proof.Machine
end

