-- ==== Sys2Proof/Machine/Store.lean ====
section
/-! DEFINITION. Store instructions: STZ, STA, STT, STX, STD, STF, MIN (spec/40_memory_reference.md). -/

namespace Sys2Proof.Machine

/-- Store consecutive words at the effective address: the shape of the store instructions. -/
def storeAtEa (m : MemRef) (vs : List Word) (s : State) : Result State :=
  andThen (ea m s) fun el => storeWords el vs s.advance

/-- STZ (R103). -/
def execStz (m : MemRef) (s : State) : Result State := storeAtEa m [0] s

/-- STA (R104). -/
def execSta (m : MemRef) (s : State) : Result State := storeAtEa m [s.reg .a] s

/-- STT (R105). -/
def execStt (m : MemRef) (s : State) : Result State := storeAtEa m [s.reg .t] s

/-- STX (R106). -/
def execStx (m : MemRef) (s : State) : Result State := storeAtEa m [s.reg .x] s

/-- STD (R120): A at EL, D at EL + 1. -/
def execStd (m : MemRef) (s : State) : Result State := storeAtEa m [s.reg .a, s.reg .d] s

/-- STF (R124): T, A, D at EL, EL + 1, EL + 2. -/
def execStf (m : MemRef) (s : State) : Result State := storeAtEa m [s.reg .t, s.reg .a, s.reg .d] s

/-- MIN (R107): increment the word; skip where the new value is zero. -/
def execMin (m : MemRef) (s : State) : Result State :=
  andThen (ea m s) fun el =>
  andThen (loadWord s el) fun w =>
  storeWord el (w + 1) (s.skipIf (w + 1 == 0))

end Sys2Proof.Machine
end

