-- ==== Sys2Proof/Machine/Transfer.lean ====
section
/-! DEFINITION. Transfer instructions TRA and TRR (spec/48_transfer.md). -/

namespace Sys2Proof.Machine

/-- The internal registers whose value is a draw (R300, R301): OPR 2, PSR 3, PVL 4, IIC 5, PID 6, PIE 7, ALD 12, PES 13, PEA 15
(octal). -/
def drawnRegister (r : Fin 16) : Bool :=
  match r.val with
  | 0o2 | 0o3 | 0o4 | 0o5 | 0o6 | 0o7 | 0o12 | 0o13 | 0o15 => true
  | _ => false

/-- TRA (R300): STS with its undefined bits drawn (R302), a drawn register (R301), or no register of the table. -/
def execTra (r : Fin 16) (s : State) : Result State :=
  if r = 1 then .next ((s.advance.setReg .a (mergeSts (s.reg .sts) (Config.drawWord s.draws))).drew 1)
  else if drawnRegister r then .next ((s.advance.setReg .a (Config.envRead r s.draws)).drew 1)
  else .refused .traRegister

/-- TRR (R303): refused for every register; the table of registers it writes is lost with the end of the source. -/
def execTrr (_r : Fin 16) (_s : State) : Result State := .refused .trr

end Sys2Proof.Machine
end

