-- ==== Sys2Proof/Machine/Dispatch.lean ====
section
/-! DEFINITION. The meaning of every instruction: one arm per constructor of Instr. -/

namespace Sys2Proof.Machine

def exec (i : Instr) (s : State) : Host.Outcome State Fault Refusal :=
  match i with
  | .stz m => Sys2Proof.Machine.execStz m s
  | .sta m => Sys2Proof.Machine.execSta m s
  | .stt m => Sys2Proof.Machine.execStt m s
  | .stx m => Sys2Proof.Machine.execStx m s
  | .std m => Sys2Proof.Machine.execStd m s
  | .ldd m => Sys2Proof.Machine.execLdd m s
  | .stf m => Sys2Proof.Machine.execStf m s
  | .ldf m => Sys2Proof.Machine.execLdf m s
  | .min m => Sys2Proof.Machine.execMin m s
  | .lda m => Sys2Proof.Machine.execLda m s
  | .ldt m => Sys2Proof.Machine.execLdt m s
  | .ldx m => Sys2Proof.Machine.execLdx m s
  | .add m => Sys2Proof.Machine.execAdd m s
  | .sub m => Sys2Proof.Machine.execSub m s
  | .and m => Sys2Proof.Machine.execAnd m s
  | .ora m => Sys2Proof.Machine.execOra m s
  | .fad m => Sys2Proof.Machine.execFad m s
  | .fsb m => Sys2Proof.Machine.execFsb m s
  | .fmu m => Sys2Proof.Machine.execFmu m s
  | .fdv m => Sys2Proof.Machine.execFdv m s
  | .mpy m => Sys2Proof.Machine.execMpy m s
  | .jmp m => Sys2Proof.Machine.execJmp m s
  | .jpl m => Sys2Proof.Machine.execJpl m s
  | .jap disp => Sys2Proof.Machine.execJap disp s
  | .jan disp => Sys2Proof.Machine.execJan disp s
  | .jaz disp => Sys2Proof.Machine.execJaz disp s
  | .jaf disp => Sys2Proof.Machine.execJaf disp s
  | .jpc disp => Sys2Proof.Machine.execJpc disp s
  | .jnc disp => Sys2Proof.Machine.execJnc disp s
  | .jxn disp => Sys2Proof.Machine.execJxn disp s
  | .skpEql sr dr => Sys2Proof.Machine.execSkpEql sr dr s
  | .skpGre sr dr => Sys2Proof.Machine.execSkpGre sr dr s
  | .skpMgre sr dr => Sys2Proof.Machine.execSkpMgre sr dr s
  | .skpUeq sr dr => Sys2Proof.Machine.execSkpUeq sr dr s
  | .skpLst sr dr => Sys2Proof.Machine.execSkpLst sr dr s
  | .skpMlst sr dr => Sys2Proof.Machine.execSkpMlst sr dr s
  | .rmpy sr dr => Sys2Proof.Machine.execRmpy sr dr s
  | .rdiv sr => Sys2Proof.Machine.execRdiv sr s
  | .lbyt => Sys2Proof.Machine.execLbyt s
  | .sbyt => Sys2Proof.Machine.execSbyt s
  | .radd adc ad1 cm1 cld sr dr => Sys2Proof.Machine.execRadd adc ad1 cm1 cld sr dr s
  | .rsub sr dr => Sys2Proof.Machine.execRsub sr dr s
  | .copy sr dr => Sys2Proof.Machine.execCopy sr dr s
  | .ad1 sr dr => Sys2Proof.Machine.execAd1 sr dr s
  | .adc sr dr => Sys2Proof.Machine.execAdc sr dr s
  | .cld sr dr => Sys2Proof.Machine.execCld sr dr s
  | .cm1 sr dr => Sys2Proof.Machine.execCm1 sr dr s
  | .swap cm1 cld sr dr => Sys2Proof.Machine.execSwap cm1 cld sr dr s
  | .rand cm1 cld sr dr => Sys2Proof.Machine.execRand cm1 cld sr dr s
  | .rexo cm1 cld sr dr => Sys2Proof.Machine.execRexo cm1 cld sr dr s
  | .rora cm1 cld sr dr => Sys2Proof.Machine.execRora cm1 cld sr dr s
  | .exit => Sys2Proof.Machine.execExit s
  | .rclr dr => Sys2Proof.Machine.execRclr dr s
  | .rinc dr => Sys2Proof.Machine.execRinc dr s
  | .rcdr dr => Sys2Proof.Machine.execRcdr dr s
  | .tra r => Sys2Proof.Machine.execTra r s
  | .trr r => Sys2Proof.Machine.execTrr r s
  | .nlz scaling => Sys2Proof.Machine.execNlz scaling s
  | .dnz scaling => Sys2Proof.Machine.execDnz scaling s
  | .srb level => Sys2Proof.Machine.execSrb level s
  | .lrb level => Sys2Proof.Machine.execLrb level s
  | .sht kind count => Sys2Proof.Machine.execSht kind count s
  | .shd kind count => Sys2Proof.Machine.execShd kind count s
  | .sha kind count => Sys2Proof.Machine.execSha kind count s
  | .sad kind count => Sys2Proof.Machine.execSad kind count s
  | .sab arg => Sys2Proof.Machine.execSab arg s
  | .saa arg => Sys2Proof.Machine.execSaa arg s
  | .sat arg => Sys2Proof.Machine.execSat arg s
  | .sax arg => Sys2Proof.Machine.execSax arg s
  | .aab arg => Sys2Proof.Machine.execAab arg s
  | .aaa arg => Sys2Proof.Machine.execAaa arg s
  | .aat arg => Sys2Proof.Machine.execAat arg s
  | .aax arg => Sys2Proof.Machine.execAax arg s
  | .bset cond bitno reg => Sys2Proof.Machine.execBset cond bitno reg s
  | .bskp cond bitno reg => Sys2Proof.Machine.execBskp cond bitno reg s
  | .bstc bitno reg => Sys2Proof.Machine.execBstc bitno reg s
  | .bsta bitno reg => Sys2Proof.Machine.execBsta bitno reg s
  | .bldc bitno reg => Sys2Proof.Machine.execBldc bitno reg s
  | .blda bitno reg => Sys2Proof.Machine.execBlda bitno reg s
  | .banc bitno reg => Sys2Proof.Machine.execBanc bitno reg s
  | .band bitno reg => Sys2Proof.Machine.execBand bitno reg s
  | .borc bitno reg => Sys2Proof.Machine.execBorc bitno reg s
  | .bora bitno reg => Sys2Proof.Machine.execBora bitno reg s

end Sys2Proof.Machine
end

