-- ==== Sys2Proof/Machine/Step.lean ====
section
/-! DEFINITION. One step of the machine (spec/10_state.md R13), and the placing of a word where the next step fetches. -/

namespace Sys2Proof.Machine

/-- One step (R13): fetch the word at P of the current level, decode it (R76), execute it. The meanings move P themselves. -/
def step (s : State) : Host.Outcome State Fault Refusal :=
  andThen (loadWord s (s.reg .p)) fun w =>
  match decode w with
  | .ok i => exec i s
  | .error _ => .refused (.unassigned w)

/-- `s` with an instruction of the opcode table stored where `step` fetches next. Every instruction is one word (R83). -/
def State.withFetchWord (s : State) (nbits w : Nat) : State :=
  s.putWord (s.reg .p) (BitVec.ofNat 16 (w % 2 ^ nbits))

end Sys2Proof.Machine
end

