-- ==== Sys2Proof/Safety.lean ====
section
/-! DEFINITION. The terms in which statements about the machine are made: what an instruction leaves unchanged, the invariant of
every step, the classes of instructions the spec's whole-machine rules speak of, and a run to END_ADDR. -/

namespace Sys2Proof.Machine

/-! ### Frames -/

/-- `t` is `s` but for the program counter of the current level, the registers `regs` of the current level, the bits `bits` of its
status register, and the memory words `words`: the level, the parameters, every other level, every other register, every other bit
of STS and every other byte of memory are as in `s`. -/
structure Frame (regs : List Reg) (bits : List (Fin 16)) (words : List Word) (s t : State) : Prop where
  level : t.level = s.level
  params : t.params = s.params
  otherLevels : ∀ n, n ≠ s.level → ∀ r, t.regAt n r = s.regAt n r
  registers : ∀ r, r ≠ .p → r ≠ .sts → r ∉ regs → t.reg r = s.reg r
  status : ∀ i : Fin 16, i ∉ bits → (t.reg .sts).getLsbD i.val = (s.reg .sts).getLsbD i.val
  memory : ∀ k, (∀ a ∈ words, k ≠ byteNumber a false ∧ k ≠ byteNumber a true) → t.byteAt k = s.byteAt k

/-- The flags C, Q and O of STS, which an addition may write (R116). -/
def additionBits : List (Fin 16) := [Flag.bit .c, Flag.bit .q, Flag.bit .o]

/-- The law of the flags of an addition `a + b + cin` said on integers (R116): carry out of bit 15, signed overflow, and the
sticky overflow. -/
def AdditionFlags (a b : Word) (cin : Bool) (s t : State) : Prop :=
  t.flag .c = decide (65536 ≤ a.toNat + b.toNat + cin.toNat) ∧
  t.flag .q = decide (a.toInt + b.toInt + cin.toNat < -32768 ∨ 32767 < a.toInt + b.toInt + cin.toNat) ∧
  t.flag .o = (s.flag .o || t.flag .q)

/-- Every word of an operand of `n` words at `a` exists (R41, R53). -/
def allPresent (s : State) (a : Word) (n : Nat) : Bool :=
  (List.range n).all fun k => s.present (a + BitVec.ofNat 16 k)

/-- Word `k` of an operand of `n` words at `a` is the first that does not exist (R53, R325). -/
def firstAbsent (s : State) (a : Word) (n k : Nat) : Bool :=
  decide (k < n) && allPresent s a k && !s.present (a + BitVec.ofNat 16 k)

/-! ### Shifts in closed form (R282, R283) -/

/-- A left shift by `n` > 0 places of a register of `w` bits: the value and the last bit that left, without going place by place. -/
def shiftLeftClosed {w : Nat} (mode : Config.LinMulti) (kind : ShiftKind) (m0 : Bool) (n : Nat) (v : BitVec w) :
    BitVec w × Bool :=
  match kind, mode with
  | .arith, _ => (v <<< n, decide (n ≤ w) && v.getLsbD (w - n))
  | .zin, _ => (v <<< n, decide (n ≤ w) && v.getLsbD (w - n))
  | .rot, _ => (v.rotateLeft n, (v.rotateLeft n).getLsbD 0)
  | .lin, .constant =>
    (v <<< n ||| (if m0 then BitVec.ofNat w (2 ^ n - 1) else 0), if n ≤ w then v.getLsbD (w - n) else m0)
  | .lin, _ =>
    let u := (BitVec.cons m0 v).rotateLeft n
    (u.setWidth w, u.msb)

/-- A right shift by `n` > 0 places in the same way. -/
def shiftRightClosed {w : Nat} (mode : Config.LinMulti) (kind : ShiftKind) (m0 : Bool) (n : Nat) (v : BitVec w) :
    BitVec w × Bool :=
  match kind, mode with
  | .arith, _ => (v.sshiftRight n, if n ≤ w then v.getLsbD (n - 1) else v.msb)
  | .zin, _ => (v >>> n, v.getLsbD (n - 1))
  | .rot, _ => (v.rotateRight n, (v.rotateRight n).msb)
  | .lin, .constant =>
    (v >>> n ||| (if m0 then ~~~(BitVec.allOnes w >>> n) else 0), if n ≤ w then v.getLsbD (n - 1) else m0)
  | .lin, _ =>
    let u := (BitVec.cons m0 v).rotateRight n
    (u.setWidth w, u.msb)

/-- A shift by the signed counter `n` in closed form (R282). -/
def shiftClosed {w : Nat} (mode : Config.LinMulti) (kind : ShiftKind) (m0 : Bool) (n : Int) (v : BitVec w) : BitVec w × Bool :=
  if 0 < n then shiftLeftClosed mode kind m0 n.natAbs v else shiftRightClosed mode kind m0 n.natAbs v

/-! ### The invariant of every step -/

/-- Memory is canonical, lists no byte of a word that does not exist, and MEM_WORDS is 1 to 65536. -/
def Inv (s : State) : Prop :=
  Memory.wf s.mem = true ∧ Memory.within s.params.memWords s.mem = true ∧ s.params.wf = true

/-! ### Classes of instructions -/

/-- A bit instruction that writes the flag: BSET, BSTA or BSTC addressed to its bit of STS (R17, R222, R224, R225). -/
def isBitWriter (f : Flag) : Instr → Bool
  | .bset _ n r | .bsta n r | .bstc n r => decide (r = .sts) && decide (n = f.bit)
  | _ => false

/-- A bit instruction whose result is K (R17, R224 to R231). -/
def isKResult : Instr → Bool
  | .bstc _ _ | .bsta _ _ | .bldc _ _ | .blda _ _ | .banc _ _ | .band _ _ | .borc _ _ | .bora _ _ => true
  | _ => false

/-- LRB (R151). -/
def isLrb : Instr → Bool
  | .lrb _ => true
  | _ => false

/-- SRB (R152). -/
def isSrb : Instr → Bool
  | .srb _ => true
  | _ => false

/-- An instruction whose result a floating function gives (R123, R160). -/
def isFloating : Instr → Bool
  | .fad _ | .fsb _ | .fmu _ | .fdv _ | .nlz _ | .dnz _ => true
  | _ => false

/-- ADD, SUB or an arithmetic register operation (R111, R112, R188). -/
def isAddition : Instr → Bool
  | .add _ | .sub _ | .radd _ _ _ _ _ _ | .rsub _ _ | .copy _ _ | .ad1 _ _ | .adc _ _ | .exit | .rclr _ | .rinc _
  | .rcdr _ => true
  | _ => false

/-- AAA, AAX, AAT or AAB (R179). -/
def isArgumentAddition : Instr → Bool
  | .aab _ | .aaa _ | .aat _ | .aax _ => true
  | _ => false

/-- MPY (R115). -/
def isMpy : Instr → Bool
  | .mpy _ => true
  | _ => false

/-- A shift with a counter other than zero (R17, R280). -/
def isShift : Instr → Bool
  | .sht _ n | .shd _ n | .sha _ n | .sad _ n => decide (n ≠ 0)
  | _ => false

/-- The instructions that write memory (R45). -/
def isStore : Instr → Bool
  | .stz _ | .sta _ | .stt _ | .stx _ | .std _ | .stf _ | .min _ | .sbyt | .srb _ => true
  | _ => false

/-- R17's column "written by", for each flag, with NLZ and DNZ as writers of C and Z (R161, R162). -/
def mayWrite (f : Flag) (i : Instr) : Bool :=
  isBitWriter f i || isLrb i ||
    (match f with
    | .tg => false
    | .k => isKResult i
    | .z => isFloating i
    | .q => isAddition i || isMpy i || isArgumentAddition i
    | .o => isAddition i || isMpy i || isArgumentAddition i
    | .c => isAddition i || isFloating i || isArgumentAddition i
    | .m => isShift i)

/-- The instruction can leave P at another place than the next word: a jump, a skip, or a write of P by register number
(R14, R107, R223, R250 to R260, R153). -/
def mayTransfer (level : Fin 16) : Instr → Bool
  | .jmp _ | .jpl _ | .jap _ | .jan _ | .jaz _ | .jaf _ | .jpc _ | .jnc _ | .jxn _ | .min _ | .exit | .bskp _ _ _ => true
  | .skpEql _ _ | .skpGre _ _ | .skpMgre _ _ | .skpUeq _ _ | .skpLst _ _ | .skpMlst _ _ => true
  | .radd _ _ _ _ _ dr | .rsub _ dr | .copy _ dr | .ad1 _ dr | .adc _ dr | .rclr dr | .rinc dr | .rcdr dr
  | .rand _ _ _ dr | .rexo _ _ _ dr | .rora _ _ _ dr => decide (dr = .p)
  | .swap _ _ sr dr | .cld sr dr | .cm1 sr dr => decide (dr = .p) || decide (sr = .p)
  | .bset _ _ r | .bsta _ r | .bstc _ r => decide (r = .p)
  | .lrb n => decide (n = level)
  | _ => false

/-! ### Isolation of levels -/

/-- The two states differ at most in the registers of levels that are not current. -/
def SameOnCurrentLevel (s t : State) : Prop :=
  s.level = t.level ∧ s.mem = t.mem ∧ s.params = t.params ∧ s.draws = t.draws ∧ s.blockAt s.level = t.blockAt t.level

/-- Two outcomes that a program on the current level cannot tell apart. -/
def SameOutcome (o o' : Result State) : Prop :=
  match o, o' with
  | .next s, .next t => SameOnCurrentLevel s t
  | .fault f, .fault f' => f = f'
  | .refused r, .refused r' => r = r'
  | _, _ => False

/-! ### Runs -/

/-- A run has ended: an instruction is about to be fetched from END_ADDR (R354, a convention of the harness; log 19). -/
def ended (endAddr : Word) (s : State) : Bool := decide (s.reg .p = endAddr)

/-- At most `n` steps, stopping at END_ADDR or at the first stop (R354). -/
def runTo (endAddr : Word) : Nat → State → Result State
  | 0, s => .next s
  | n + 1, s => if ended endAddr s then .next s else andThen (step s) (runTo endAddr n)

/-- A safe run: it reaches END_ADDR within `n` steps, without a fault or a refusal. -/
def SafeRun (endAddr : Word) (n : Nat) (s : State) : Prop :=
  ∃ t, runTo endAddr n s = .next t ∧ ended endAddr t = true

end Sys2Proof.Machine
end

