-- ==== Sys2Proof/Certificates/Slice0/Obligations.lean ====
section
/-! DEFINITION. The statements for the provers. Each is a rule of spec/ or, where its docstring says so, rests on a decision of the
spec (D<n>) or a choice of the model (log <n>). `Frame` (Safety.lean) says what an instruction leaves unchanged. -/

open Sys2Proof Sys2Proof.Machine

/-! ### Memory and addressing -/

/-- R100: the eight addressing modes of its table, every address sum mod 65536. P is pc0. Where an indirect word is read, it exists. -/
def Obligations.EffectiveAddressFollowsTheModeTable : Prop :=
  ∀ (d : BitVec 8) (s : State) (del : Word), del = BitVec.ofInt 16 d.toInt →
    ea { x := false, i := false, b := false, disp := d } s = .next (s.reg .p + del) ∧
    ea { x := true, i := false, b := false, disp := d } s = .next (s.reg .x + del) ∧
    ea { x := false, i := false, b := true, disp := d } s = .next (s.reg .b + del) ∧
    ea { x := true, i := false, b := true, disp := d } s = .next (s.reg .b + del + s.reg .x) ∧
    (s.present (s.reg .p + del) = true →
      ea { x := false, i := true, b := false, disp := d } s = .next (s.wordAt (s.reg .p + del)) ∧
      ea { x := true, i := true, b := false, disp := d } s = .next (s.wordAt (s.reg .p + del) + s.reg .x)) ∧
    (s.present (s.reg .b + del) = true →
      ea { x := false, i := true, b := true, disp := d } s = .next (s.wordAt (s.reg .b + del)) ∧
      ea { x := true, i := true, b := true, disp := d } s = .next (s.wordAt (s.reg .b + del) + s.reg .x))

/-- R53, R41 and R325, decisions D43 and D38: an access at or beyond MEM_WORDS stops the instruction, whichever access it is: the fetch, the
indirect word, the operand of one word, the first word that does not exist of an operand of two, three or eight words, the word of a
byte. A stopped step has no next state. LRB and SRB where they are not refused for the level they name. -/
def Obligations.AbsentMemoryStopsTheStep : Prop :=
  (∀ s : State, s.present (s.reg .p) = false → step s = .fault (.noMemory (s.reg .p))) ∧
  (∀ (m : MemRef) (s : State) (a : Word), m.i = true →
    a = (if m.b then s.reg .b else s.reg .p) + BitVec.ofInt 16 m.disp.toInt → s.present a = false →
    ∀ i ∈ [Instr.stz m, .sta m, .stt m, .stx m, .std m, .ldd m, .stf m, .ldf m, .min m, .lda m, .ldt m, .ldx m, .add m, .sub m,
      .and m, .ora m, .fad m, .fsb m, .fmu m, .fdv m, .mpy m, .jmp m, .jpl m], exec i s = .fault (.noMemory a)) ∧
  (∀ (m : MemRef) (s : State) (el : Word), ea m s = .next el →
    (s.present el = false →
      ∀ i ∈ [Instr.stz m, .sta m, .stt m, .stx m, .min m, .lda m, .ldt m, .ldx m, .add m, .sub m, .and m, .ora m, .mpy m],
        exec i s = .fault (.noMemory el)) ∧
    (∀ k, firstAbsent s el 2 k = true →
      ∀ i ∈ [Instr.std m, .ldd m], exec i s = .fault (.noMemory (el + BitVec.ofNat 16 k))) ∧
    (∀ k, firstAbsent s el 3 k = true →
      ∀ i ∈ [Instr.stf m, .ldf m, .fad m, .fsb m, .fmu m, .fdv m], exec i s = .fault (.noMemory (el + BitVec.ofNat 16 k)))) ∧
  (∀ s : State, s.present (byteWord s) = false →
    ∀ i ∈ [Instr.lbyt, .sbyt], exec i s = .fault (.noMemory (byteWord s))) ∧
  (∀ (n : Fin 16) (s : State) (k : Nat), (n ≠ s.level ∨ s.params.rbCurrentLevel = .literal) →
    firstAbsent s (s.reg .x) 8 k = true →
    ∀ i ∈ [Instr.lrb n, .srb n], exec i s = .fault (.noMemory (s.reg .x + BitVec.ofNat 16 k)))

/-- R103 to R106: STZ, STA, STT and STX, of format MR with their operation codes, store one word at the effective address and change
nothing else but P. -/
def Obligations.SingleStoresWriteTheirRegister : Prop :=
  (∀ m : MemRef, decode (0o000000 ||| encMem m) = .ok (.stz m) ∧ decode (0o004000 ||| encMem m) = .ok (.sta m) ∧
    decode (0o010000 ||| encMem m) = .ok (.stt m) ∧ decode (0o014000 ||| encMem m) = .ok (.stx m)) ∧
  ∀ (m : MemRef) (s : State) (el : Word), ea m s = .next el → s.present el = true →
    (∃ t, exec (.stz m) s = .next t ∧ t.wordAt el = 0 ∧ Frame [] [] [el] s t) ∧
    (∃ t, exec (.sta m) s = .next t ∧ t.wordAt el = s.reg .a ∧ Frame [] [] [el] s t) ∧
    (∃ t, exec (.stt m) s = .next t ∧ t.wordAt el = s.reg .t ∧ Frame [] [] [el] s t) ∧
    (∃ t, exec (.stx m) s = .next t ∧ t.wordAt el = s.reg .x ∧ Frame [] [] [el] s t)

/-- R120 and R124: STD stores A and D at EL and EL + 1, STF stores T, A and D at EL, EL + 1 and EL + 2 (mod 65536). -/
def Obligations.DoubleAndFloatingStoresWriteTheirWords : Prop :=
  ∀ (m : MemRef) (s : State) (el : Word), ea m s = .next el →
    (allPresent s el 2 = true →
      ∃ t, exec (.std m) s = .next t ∧ t.wordAt el = s.reg .a ∧ t.wordAt (el + 1) = s.reg .d ∧
        Frame [] [] [el, el + 1] s t) ∧
    (allPresent s el 3 = true →
      ∃ t, exec (.stf m) s = .next t ∧ t.wordAt el = s.reg .t ∧ t.wordAt (el + 1) = s.reg .a ∧
        t.wordAt (el + 2) = s.reg .d ∧ Frame [] [] [el, el + 1, el + 2] s t)

/-- R107, decisions D37 and D4: MIN increments the word and skips exactly when the old value was 177777; no register, no flag. -/
def Obligations.MinIncrementsAndSkipsOnZero : Prop :=
  ∀ (m : MemRef) (s : State) (el : Word), ea m s = .next el → s.present el = true →
    ∃ t, exec (.min m) s = .next t ∧ t.wordAt el = s.wordAt el + 1 ∧
      t.reg .p = (if s.wordAt el = 0o177777 then s.reg .p + 2 else s.reg .p + 1) ∧ Frame [] [] [el] s t

/-- R108 and R110: LDA and LDX, of format MR with their operation codes, load the word at the effective address and change nothing else
but P; X as it was indexes. LDT likewise (R109, whose printed code conflict C2 corrects: its decoding is not stated here). -/
def Obligations.SingleLoadsReadTheirWord : Prop :=
  (∀ m : MemRef, decode (0o044000 ||| encMem m) = .ok (.lda m) ∧ decode (0o054000 ||| encMem m) = .ok (.ldx m)) ∧
  ∀ (m : MemRef) (s : State) (el : Word), ea m s = .next el → s.present el = true →
    (∃ t, exec (.lda m) s = .next t ∧ t.reg .a = s.wordAt el ∧ Frame [.a] [] [] s t) ∧
    (∃ t, exec (.ldt m) s = .next t ∧ t.reg .t = s.wordAt el ∧ Frame [.t] [] [] s t) ∧
    (∃ t, exec (.ldx m) s = .next t ∧ t.reg .x = s.wordAt el ∧ Frame [.x] [] [] s t)

/-- R121 and R125: LDD loads A and D, LDF loads T, A and D, from consecutive words (mod 65536). -/
def Obligations.DoubleAndFloatingLoadsReadTheirWords : Prop :=
  ∀ (m : MemRef) (s : State) (el : Word), ea m s = .next el →
    (allPresent s el 2 = true →
      ∃ t, exec (.ldd m) s = .next t ∧ t.reg .a = s.wordAt el ∧ t.reg .d = s.wordAt (el + 1) ∧
        Frame [.a, .d] [] [] s t) ∧
    (allPresent s el 3 = true →
      ∃ t, exec (.ldf m) s = .next t ∧ t.reg .t = s.wordAt el ∧ t.reg .a = s.wordAt (el + 1) ∧
        t.reg .d = s.wordAt (el + 2) ∧ Frame [.t, .a, .d] [] [] s t)

/-! ### Arithmetic and logic with memory -/

/-- R111 and R116, decisions D6 and D4: ADD adds mod 65536, C is the carry out, Q the signed overflow, O the sticky overflow. -/
def Obligations.AddSumsWithCarryAndOverflow : Prop :=
  ∀ (m : MemRef) (s : State) (el : Word), ea m s = .next el → s.present el = true →
    ∃ t, exec (.add m) s = .next t ∧ t.reg .a = s.reg .a + s.wordAt el ∧
      AdditionFlags (s.reg .a) (s.wordAt el) false s t ∧ t.reg .p = s.reg .p + 1 ∧ Frame [.a] additionBits [] s t

/-- R112, decisions D6, D40 and D4: SUB subtracts mod 65536, C = 1 exactly when no borrow occurs, Q is the signed overflow of the
difference, O the sticky overflow. -/
def Obligations.SubSubtractsWithNoBorrowCarry : Prop :=
  ∀ (m : MemRef) (s : State) (el : Word), ea m s = .next el → s.present el = true →
    ∃ t, exec (.sub m) s = .next t ∧ t.reg .a = s.reg .a - s.wordAt el ∧
      t.flag .c = decide ((s.wordAt el).toNat ≤ (s.reg .a).toNat) ∧
      t.flag .q = decide ((s.reg .a).toInt - (s.wordAt el).toInt < -32768 ∨
        32767 < (s.reg .a).toInt - (s.wordAt el).toInt) ∧
      t.flag .o = (s.flag .o || t.flag .q) ∧ t.reg .p = s.reg .p + 1 ∧ Frame [.a] additionBits [] s t

/-- R113 and R114: AND and ORA, of format MR with their operation codes, combine A with the word, no flag. -/
def Obligations.AndOraCombineWithoutFlags : Prop :=
  (∀ m : MemRef, decode (0o070000 ||| encMem m) = .ok (.and m) ∧ decode (0o074000 ||| encMem m) = .ok (.ora m)) ∧
  ∀ (m : MemRef) (s : State) (el : Word), ea m s = .next el → s.present el = true →
    (∃ t, exec (.and m) s = .next t ∧ t.reg .a = s.reg .a &&& s.wordAt el ∧ Frame [.a] [] [] s t) ∧
    (∃ t, exec (.ora m) s = .next t ∧ t.reg .a = s.reg .a ||| s.wordAt el ∧ Frame [.a] [] [] s t)

/-- R115, decisions D7 and D4: MPY leaves the low 16 bits of the product in A, Q says that the signed product does not fit, O is
sticky, C and D are unchanged. -/
def Obligations.MpyMultipliesAndFlagsOverflow : Prop :=
  ∀ (m : MemRef) (s : State) (el : Word), ea m s = .next el → s.present el = true →
    ∃ t, exec (.mpy m) s = .next t ∧ t.reg .a = s.reg .a * s.wordAt el ∧
      (t.flag .q = true ↔ (t.reg .a).toInt ≠ (s.reg .a).toInt * (s.wordAt el).toInt) ∧
      t.flag .o = (s.flag .o || t.flag .q) ∧ t.reg .p = s.reg .p + 1 ∧
      Frame [.a] [Flag.bit .q, Flag.bit .o] [] s t

/-! ### Floating and conversion -/

/-- R126 to R129, decisions D10 and D4: FAD, FSB, FMU and FDV give TAD, C and Z the value of their parameter function (log 15) and
change nothing else. -/
def Obligations.FloatingOperationsApplyTheirFunction : Prop :=
  ∀ (m : MemRef) (s : State) (el : Word) (fw : BitVec 48), ea m s = .next el → allPresent s el 3 = true →
    fw = s.wordAt el ++ s.wordAt (el + 1) ++ s.wordAt (el + 2) →
    ∀ (i : Instr) (f : Bool → Bool → Bool → BitVec 48 → BitVec 48 → Config.FloatResult),
      (i, f) ∈ [(Instr.fad m, Config.fpAdd), (Instr.fsb m, Config.fpSub), (Instr.fmu m, Config.fpMul),
        (Instr.fdv m, Config.fpDiv)] →
      ∃ t, exec i s = .next t ∧
        t.reg .t ++ t.reg .a ++ t.reg .d = (f (s.flag .tg) (s.flag .c) (s.flag .z) s.float fw).tad ∧
        t.flag .c = (f (s.flag .tg) (s.flag .c) (s.flag .z) s.float fw).c ∧
        t.flag .z = (f (s.flag .tg) (s.flag .c) (s.flag .z) s.float fw).z ∧
        t.reg .p = s.reg .p + 1 ∧ Frame [.t, .a, .d] [Flag.bit .c, Flag.bit .z] [] s t

/-- R161 and R162, decisions D10 and D4: NLZ and DNZ give TAD, C and Z the value of their parameter function (log 15). -/
def Obligations.ConversionsApplyTheirFunction : Prop :=
  ∀ (k : BitVec 8) (s : State) (i : Instr) (f : Config.FloatResult),
    (i, f) ∈ [(Instr.nlz k, Config.fpNlz (s.flag .tg) (s.flag .c) (s.flag .z) (s.reg .a) (s.reg .d) (s.reg .t) k.toInt),
      (Instr.dnz k, Config.fpDnz (s.flag .tg) (s.flag .c) (s.flag .z) (s.reg .t ++ s.reg .a ++ s.reg .d) k.toInt)] →
    ∃ t, exec i s = .next t ∧ t.reg .t = f.tad.extractLsb' 32 16 ∧ t.reg .a = f.tad.extractLsb' 16 16 ∧
      t.reg .d = f.tad.extractLsb' 0 16 ∧ t.flag .c = f.c ∧ t.flag .z = f.z ∧
      t.reg .p = s.reg .p + 1 ∧ Frame [.t, .a, .d] [Flag.bit .c, Flag.bit .z] [] s t

/-! ### Bytes -/

/-- R42 and R131, decisions D12 and D35: the byte addressed by T and X is number X of the string that starts with the left byte of word
(T), every sum mod the memory's 131072 bytes; X is unsigned with BYTE_X_HALVING = logical and signed with arithmetic. -/
def Obligations.BytesOfAStringAreNumberedByX : Prop :=
  ∀ s : State,
    (s.params.byteXHalving = .logical →
      byteNumber (byteWord s) (byteRight s) = (2 * (s.reg .t).toNat + (s.reg .x).toNat) % 131072) ∧
    (s.params.byteXHalving = .arithmetic →
      (byteNumber (byteWord s) (byteRight s) : Int) = (2 * ((s.reg .t).toNat : Int) + (s.reg .x).toInt) % 131072)

/-- R132, decisions D11 and D4: LBYT loads the addressed byte into bits 7 to 0 of A and clears bits 15 to 8; no flag. -/
def Obligations.LbytLoadsTheAddressedByte : Prop :=
  ∀ s : State, s.present (byteWord s) = true →
    ∃ t, exec .lbyt s = .next t ∧ (t.reg .a).toNat = (s.byteAt (byteNumber (byteWord s) (byteRight s))).toNat ∧
      t.reg .p = s.reg .p + 1 ∧ Frame [.a] [] [] s t

/-- R133, decisions D11 and D4: SBYT stores bits 7 to 0 of A in the addressed byte, and every other byte of memory, the other byte of
the word too, keeps its value; no register, no flag. -/
def Obligations.SbytStoresOnlyTheAddressedByte : Prop :=
  ∀ s : State, s.present (byteWord s) = true →
    ∃ t, exec .sbyt s = .next t ∧
      t.byteAt (byteNumber (byteWord s) (byteRight s)) = (s.reg .a).extractLsb' 0 8 ∧
      (∀ k, k ≠ byteNumber (byteWord s) (byteRight s) → t.byteAt k = s.byteAt k) ∧
      t.reg .p = s.reg .p + 1 ∧ Frame [] [] [byteWord s] s t

/-! ### Register blocks -/

/-- R150, R151 and R153, decisions D13, D14 and D4: LRB loads the eight registers of the named level from the words at X of the current
level, of STS the flags only, and changes nothing else but P. With the current level named and RB_CURRENT_LEVEL = literal, the loaded P
stands; with refuse it is refused (`FormsTheSpecRefusesStop`). -/
def Obligations.LrbLoadsTheNamedLevel : Prop :=
  ∀ (n : Fin 16) (s : State), (n ≠ s.level ∨ s.params.rbCurrentLevel = .literal) → allPresent s (s.reg .x) 8 = true →
    ∃ t, exec (.lrb n) s = .next t ∧
      t.regAt n .p = s.wordAt (s.reg .x) ∧ t.regAt n .x = s.wordAt (s.reg .x + 1) ∧
      t.regAt n .t = s.wordAt (s.reg .x + 2) ∧ t.regAt n .a = s.wordAt (s.reg .x + 3) ∧
      t.regAt n .d = s.wordAt (s.reg .x + 4) ∧ t.regAt n .l = s.wordAt (s.reg .x + 5) ∧
      t.regAt n .b = s.wordAt (s.reg .x + 7) ∧
      (∀ i : Fin 16, (t.regAt n .sts).getLsbD i.val =
        if 1 ≤ i.val ∧ i.val ≤ 7 then (s.wordAt (s.reg .x + 6)).getLsbD i.val else (s.regAt n .sts).getLsbD i.val) ∧
      (n ≠ s.level → t.reg .p = s.reg .p + 1) ∧
      (∀ k, k ≠ n → ∀ r, (k ≠ s.level ∨ r ≠ .p) → t.regAt k r = s.regAt k r) ∧
      t.level = s.level ∧ t.params = s.params ∧ ∀ k, t.byteAt k = s.byteAt k

/-- R150, R152 and R153, decisions D13, D14 and D4: SRB stores the eight registers of the named level at X of the current level, of STS the
flags in bits 7 to 1, and changes no register but P. With the current level named and RB_CURRENT_LEVEL = literal, pc0 is stored for P;
with refuse it is refused (`FormsTheSpecRefusesStop`). -/
def Obligations.SrbStoresTheNamedLevel : Prop :=
  ∀ (n : Fin 16) (s : State), (n ≠ s.level ∨ s.params.rbCurrentLevel = .literal) → allPresent s (s.reg .x) 8 = true →
    ∃ t, exec (.srb n) s = .next t ∧
      t.wordAt (s.reg .x) = s.regAt n .p ∧ t.wordAt (s.reg .x + 1) = s.regAt n .x ∧
      t.wordAt (s.reg .x + 2) = s.regAt n .t ∧ t.wordAt (s.reg .x + 3) = s.regAt n .a ∧
      t.wordAt (s.reg .x + 4) = s.regAt n .d ∧ t.wordAt (s.reg .x + 5) = s.regAt n .l ∧
      t.wordAt (s.reg .x + 7) = s.regAt n .b ∧
      (∀ f : Flag, (t.wordAt (s.reg .x + 6)).getLsbD f.bit.val = (s.regAt n .sts).getLsbD f.bit.val) ∧
      t.reg .p = s.reg .p + 1 ∧
      Frame [] [] ((List.range 8).map fun k => s.reg .x + BitVec.ofNat 16 k) s t

/-- R150: "so that SRB followed by LRB restores what was saved". Whatever happened in between to registers, an LRB of the same level
from the same words, where RB_CURRENT_LEVEL does not refuse it, gives back every register of it, and its seven flags. -/
def Obligations.LrbRestoresWhatSrbSaved : Prop :=
  ∀ (n : Fin 16) (s t u : State), exec (.srb n) s = .next t → u.mem = t.mem → u.params = t.params → u.reg .x = s.reg .x →
    (n ≠ u.level ∨ u.params.rbCurrentLevel = .literal) →
    ∃ v, exec (.lrb n) u = .next v ∧ (∀ r, r ≠ .sts → v.regAt n r = s.regAt n r) ∧
      ∀ f : Flag, (v.regAt n .sts).getLsbD f.bit.val = (s.regAt n .sts).getLsbD f.bit.val

/-! ### Arguments -/

/-- R171, R173, R175, R177: SAA, SAX, SAT and SAB, with their codes, write the signed argument as a 16-bit value, no flag. -/
def Obligations.SetArgumentWritesTheSignedArgument : Prop :=
  (∀ v : BitVec 8, decode (0o170400 + v.setWidth 16) = .ok (.saa v) ∧ decode (0o171400 + v.setWidth 16) = .ok (.sax v) ∧
    decode (0o171000 + v.setWidth 16) = .ok (.sat v) ∧ decode (0o170000 + v.setWidth 16) = .ok (.sab v)) ∧
  ∀ (v : BitVec 8) (s : State) (i : Instr) (r : Reg),
    (i, r) ∈ [(Instr.saa v, Reg.a), (Instr.sax v, Reg.x), (Instr.sat v, Reg.t), (Instr.sab v, Reg.b)] →
    ∃ t, exec i s = .next t ∧ (t.reg r).toInt = v.toInt ∧ Frame [r] [] [] s t

/-- R172, R174, R176, R178 and R179, decisions D9 and D4: AAA, AAX, AAT and AAB add the signed argument mod 65536; C, O and Q are
unchanged, or by the law of additions, or drawn, as ARG_ADD_FLAGS says (log 11); of drawn flags nothing is claimed. -/
def Obligations.AddArgumentAddsTheSignedArgument : Prop :=
  ∀ (v : BitVec 8) (s : State) (i : Instr) (r : Reg),
    (i, r) ∈ [(Instr.aaa v, Reg.a), (Instr.aax v, Reg.x), (Instr.aat v, Reg.t), (Instr.aab v, Reg.b)] →
    ∃ t, exec i s = .next t ∧ t.reg r = s.reg r + BitVec.ofInt 16 v.toInt ∧
      (s.params.argAddFlags = .unchanged → t.reg .sts = s.reg .sts) ∧
      (s.params.argAddFlags = .asAdd → AdditionFlags (s.reg r) (BitVec.ofInt 16 v.toInt) false s t) ∧
      t.reg .p = s.reg .p + 1 ∧ Frame [r] additionBits [] s t

/-! ### Register operations -/

/-- R186 and R187: source field 0 is the value zero, and fields 1 to 7 name D, P, B, L, A, T, X on both sides; P yields pc0. -/
def Obligations.OperandFieldsNameTheRegisters : Prop :=
  ∀ (n : BitVec 3) (s : State),
    sourceValue (Src.ofNum n) s = (if n = 0 then 0 else s.reg (Reg.ofNum n)) ∧
    destination (Dst.ofNum n) = (if n = 0 then .refused .dest0 else .next (Reg.ofNum n))

/-- R188, R189, R207 and R116, decisions D6, D15 and D4: RADD with any modifiers but ADC and AD1 together, and its rows AD1 and ADC
alone: the sum of the destination operand (zero with CLD), the source operand (complemented with CM1) and the carry-in (one with AD1,
the old C with ADC), with C, Q and O. Where the destination is P, the sum is the next address. -/
def Obligations.ArithmeticRegisterOperationsAdd : Prop :=
  ∀ (adc ad1 cm1 cld : Bool) (sr : Src) (dr : Dst) (r : Reg) (s : State) (d v : Word) (cin : Bool) (i : Instr),
    destination dr = .next r → (adc && ad1) = false →
    d = (if cld then 0 else s.reg r) → v = (if cm1 then ~~~(sourceValue sr s) else sourceValue sr s) →
    cin = (if ad1 then true else if adc then s.flag .c else false) →
    (i = .radd adc ad1 cm1 cld sr dr ∨ (i = .ad1 sr dr ∧ adc = false ∧ ad1 = true ∧ cm1 = false ∧ cld = false) ∨
      (i = .adc sr dr ∧ adc = true ∧ ad1 = false ∧ cm1 = false ∧ cld = false)) →
    ∃ t, exec i s = .next t ∧ t.reg r = d + v + BitVec.ofNat 16 cin.toNat ∧ AdditionFlags d v cin s t ∧
      (r ≠ .p → t.reg .p = s.reg .p + 1) ∧ Frame [r] additionBits [] s t

/-- R190, decisions D6, D40 and D4: RSUB subtracts the source from the destination, C = 1 exactly when no borrow occurs. -/
def Obligations.RsubSubtractsTheSource : Prop :=
  ∀ (sr : Src) (dr : Dst) (r : Reg) (s : State), destination dr = .next r →
    ∃ t, exec (.rsub sr dr) s = .next t ∧ t.reg r = s.reg r - sourceValue sr s ∧
      t.flag .c = decide ((sourceValue sr s).toNat ≤ (s.reg r).toNat) ∧
      t.flag .q = decide ((s.reg r).toInt - (sourceValue sr s).toInt < -32768 ∨
        32767 < (s.reg r).toInt - (sourceValue sr s).toInt) ∧
      t.flag .o = (s.flag .o || t.flag .q) ∧ (r ≠ .p → t.reg .p = s.reg .p + 1) ∧ Frame [r] additionBits [] s t

/-- R191, R201 and R202, decisions D6 and D4: COPY moves the source, RCLR clears, EXIT continues at L; C and Q become 0 and O is
unchanged. -/
def Obligations.CopyExitAndRclrTransfer : Prop :=
  (∀ (sr : Src) (dr : Dst) (r : Reg) (s : State), destination dr = .next r →
    (∃ t, exec (.copy sr dr) s = .next t ∧ t.reg r = sourceValue sr s ∧ t.flag .c = false ∧ t.flag .q = false ∧
      (r ≠ .p → t.reg .p = s.reg .p + 1) ∧ Frame [r] [Flag.bit .c, Flag.bit .q] [] s t) ∧
    (∃ t, exec (.rclr dr) s = .next t ∧ t.reg r = 0 ∧ t.flag .c = false ∧ t.flag .q = false ∧
      (r ≠ .p → t.reg .p = s.reg .p + 1) ∧ Frame [r] [Flag.bit .c, Flag.bit .q] [] s t)) ∧
  (∀ s : State, ∃ t, exec .exit s = .next t ∧ t.reg .p = s.reg .l ∧ t.flag .c = false ∧ t.flag .q = false ∧
    Frame [] [Flag.bit .c, Flag.bit .q] [] s t)

/-- R203 and R204, decisions D6 and D4: RINC adds one (C only from 177777, Q only from 077777), RCDR subtracts one (C unless from
000000, Q only from 100000). -/
def Obligations.RincAndRcdrCount : Prop :=
  ∀ (dr : Dst) (r : Reg) (s : State), destination dr = .next r →
    (∃ t, exec (.rinc dr) s = .next t ∧ t.reg r = s.reg r + 1 ∧ t.flag .c = decide (s.reg r = 0o177777) ∧
      t.flag .q = decide (s.reg r = 0o077777) ∧ t.flag .o = (s.flag .o || t.flag .q) ∧
      (r ≠ .p → t.reg .p = s.reg .p + 1) ∧ Frame [r] additionBits [] s t) ∧
    (∃ t, exec (.rcdr dr) s = .next t ∧ t.reg r = s.reg r - 1 ∧ t.flag .c = decide (s.reg r ≠ 0) ∧
      t.flag .q = decide (s.reg r = 0o100000) ∧ t.flag .o = (s.flag .o || t.flag .q) ∧
      (r ≠ .p → t.reg .p = s.reg .p + 1) ∧ Frame [r] additionBits [] s t)

/-- R198, R199, R200 and R207, decisions D8, D15 and D4: RAND, REXO and RORA with every modifier; no flag. -/
def Obligations.LogicalRegisterOperationsCombine : Prop :=
  ∀ (cm1 cld : Bool) (sr : Src) (dr : Dst) (r : Reg) (s : State) (d v : Word), destination dr = .next r →
    d = (if cld then 0 else s.reg r) → v = (if cm1 then ~~~(sourceValue sr s) else sourceValue sr s) →
    ∀ (i : Instr) (w : Word),
      (i, w) ∈ [(Instr.rand cm1 cld sr dr, d &&& v), (Instr.rexo cm1 cld sr dr, d ^^^ v),
        (Instr.rora cm1 cld sr dr, d ||| v)] →
      ∃ t, exec i s = .next t ∧ t.reg r = w ∧ (r ≠ .p → t.reg .p = s.reg .p + 1) ∧ Frame [r] [] [] s t

/-- R197 and R207, decisions D8, D15, D18 and D4: SWAP with every modifier, the rows CM1 and CLD being SWAP with that modifier alone
(log 17). The destination receives the source operand; a source register other than the destination receives the destination operand;
with source field 0 that value is discarded. No flag. -/
def Obligations.SwapExchangesTheOperands : Prop :=
  ∀ (cm1 cld : Bool) (sr : Src) (dr : Dst) (r : Reg) (s : State) (i : Instr), destination dr = .next r →
    (i = .swap cm1 cld sr dr ∨ (i = .cm1 sr dr ∧ cm1 = true ∧ cld = false) ∨
      (i = .cld sr dr ∧ cm1 = false ∧ cld = true)) →
    ∃ t, exec i s = .next t ∧
      t.reg r = (if cm1 then ~~~(sourceValue sr s) else sourceValue sr s) ∧
      (∀ q, sourceReg sr = some q → q ≠ r → t.reg q = if cld then 0 else s.reg r) ∧
      (r ≠ .p → sourceReg sr ≠ some .p → t.reg .p = s.reg .p + 1) ∧ Frame (r :: (sourceReg sr).toList) [] [] s t

/-- R91: the combined instructions are names of particular register operations, with their codes: the same word, and the same outcome from
every state; NLZ+20 and DNZ-20 are NLZ and DNZ with a scaling factor of plus and minus sixteen. -/
def Obligations.CombinedNamesAreRegisterOperations : Prop :=
  (encode (.rsub .zero .undef) = 0o146600 ∧ encode (.copy .zero .undef) = 0o146100 ∧ encode .exit = 0o146142 ∧
    encode (.rclr .undef) = 0o146100 ∧ encode (.rinc .undef) = 0o146400 ∧ encode (.rcdr .undef) = 0o146200) ∧
  decode 0o151420 = .ok (.nlz 16) ∧ decode 0o152360 = .ok (.dnz (-16)) ∧
  ∀ (sr : Src) (dr : Dst) (i j : Instr),
    (i, j) ∈ [(Instr.rsub sr dr, Instr.radd false true true false sr dr),
      (Instr.copy sr dr, Instr.radd false false false true sr dr),
      (Instr.exit, Instr.copy .l .p),
      (Instr.rclr dr, Instr.copy .zero dr),
      (Instr.rinc dr, Instr.radd false true false false .zero dr),
      (Instr.rcdr dr, Instr.radd false false true false .zero dr)] →
    encode i = encode j ∧ ∀ s : State, exec i s = exec j s

/-- R323's list but for unassigned (`StepRunsTheDecodedInstruction`) and no_memory (`AbsentMemoryStopsTheStep`): dest0 (R187, R260, D17),
adc_and_ad1 (R193, D16), sts_undefined_bit (R233, D21), bskp_bcm (R223, D20), tra_register (R300, D26), trr (R303, D27), rdiv_by_zero and
rdiv_overflow (R206, D19), and with the setting refuse rb_current_level (R153, D13) and lin_multi (R283, D24) stop the instruction under
their own name. (The order of two reasons is log 18.) -/
def Obligations.FormsTheSpecRefusesStop : Prop :=
  (∀ (s : State) (sr : Src) (adc ad1 cm1 cld : Bool) (i : Instr),
    i ∈ [Instr.radd adc ad1 cm1 cld sr .undef, .rsub sr .undef, .copy sr .undef, .ad1 sr .undef, .adc sr .undef,
      .cld sr .undef, .cm1 sr .undef, .swap cm1 cld sr .undef, .rand cm1 cld sr .undef, .rexo cm1 cld sr .undef,
      .rora cm1 cld sr .undef, .rclr .undef, .rinc .undef, .rcdr .undef, .rmpy sr .undef, .skpEql sr .undef,
      .skpGre sr .undef, .skpMgre sr .undef, .skpUeq sr .undef, .skpLst sr .undef, .skpMlst sr .undef] →
    exec i s = .refused .dest0) ∧
  (∀ (s : State) (cm1 cld : Bool) (sr : Src) (dr : Dst), dr ≠ .undef →
    exec (.radd true true cm1 cld sr dr) s = .refused .adcAndAd1) ∧
  (∀ (s : State) (n : Fin 16) (c : BitCond) (i : Instr), (n = 0 ∨ 8 ≤ n.val) →
    i ∈ [Instr.bset c n .sts, .bskp c n .sts, .bstc n .sts, .bsta n .sts, .bldc n .sts, .blda n .sts, .banc n .sts,
      .band n .sts, .borc n .sts, .bora n .sts] →
    exec i s = .refused .stsUndefinedBit) ∧
  (∀ (s : State) (n : Fin 16) (r : Reg), bitDefined n r = true → exec (.bskp .bcm n r) s = .refused .bskpBcm) ∧
  (∀ (s : State) (r : Fin 16), r ∈ [0o0, 0o10, 0o11, 0o14, 0o16, 0o17] → exec (.tra r) s = .refused .traRegister) ∧
  (∀ (s : State) (r : Fin 16), exec (.trr r) s = .refused .trr) ∧
  (∀ s : State, s.params.rbCurrentLevel = .refuse →
    ∀ i ∈ [Instr.lrb s.level, .srb s.level], exec i s = .refused .rbCurrentLevel) ∧
  (∀ (s : State) (n : BitVec 6), 1 < n.toInt.natAbs → s.params.linMulti = .refuse →
    ∀ i ∈ [Instr.sht .lin n, .shd .lin n, .sha .lin n, .sad .lin n], exec i s = .refused .linMulti) ∧
  (∀ (s : State) (sr : Src),
    (sourceValue sr s = 0 → exec (.rdiv sr) s = .refused .rdivByZero) ∧
    (sourceValue sr s ≠ 0 →
      (Int.tdiv (s.reg .a ++ s.reg .d).toInt (sourceValue sr s).toInt < -32768 ∨
        32767 < Int.tdiv (s.reg .a ++ s.reg .d).toInt (sourceValue sr s).toInt) →
      exec (.rdiv sr) s = .refused .rdivOverflow))

/-! ### Extended arithmetic -/

/-- R205, decisions D8, D19 and D4: RMPY leaves the exact signed product in AD and changes no flag. -/
def Obligations.RmpyLeavesTheExactProduct : Prop :=
  ∀ (sr : Src) (dr : Dst) (r : Reg) (s : State), destination dr = .next r →
    ∃ t, exec (.rmpy sr dr) s = .next t ∧
      (t.reg .a ++ t.reg .d).toInt = (sourceValue sr s).toInt * (s.reg r).toInt ∧
      t.reg .p = s.reg .p + 1 ∧ Frame [.a, .d] [] [] s t

/-- R206, decisions D8, D19 and D4: where a quotient that fits 16 signed bits and a remainder smaller than the divisor, with the sign of the
dividend or zero, exist, RDIV leaves them in A and D, and changes no flag. -/
def Obligations.RdivLeavesQuotientAndRemainder : Prop :=
  ∀ (sr : Src) (s : State) (q r : Int), (s.reg .a ++ s.reg .d).toInt = q * (sourceValue sr s).toInt + r →
    r.natAbs < (sourceValue sr s).toInt.natAbs → (r = 0 ∨ (0 < r ↔ 0 < (s.reg .a ++ s.reg .d).toInt)) →
    -32768 ≤ q → q ≤ 32767 →
    ∃ t, exec (.rdiv sr) s = .next t ∧ (t.reg .a).toInt = q ∧ (t.reg .d).toInt = r ∧
      t.reg .p = s.reg .p + 1 ∧ Frame [.a, .d] [] [] s t

/-- R206, decisions D8, D19 and D4: RDIV completes exactly where the divisor is not zero and the quotient, rounded toward zero, fits 16
signed bits, with quotient and remainder in A and D and no flag changed; else it is refused as rdiv_by_zero or rdiv_overflow. -/
def Obligations.RdivCompletesExactlyOnItsDefinedPath : Prop :=
  ∀ (sr : Src) (s : State) (n d : Int), n = (s.reg .a ++ s.reg .d).toInt → d = (sourceValue sr s).toInt →
    (d = 0 → exec (.rdiv sr) s = .refused .rdivByZero) ∧
    (d ≠ 0 → (Int.tdiv n d < -32768 ∨ 32767 < Int.tdiv n d) → exec (.rdiv sr) s = .refused .rdivOverflow) ∧
    (d ≠ 0 → -32768 ≤ Int.tdiv n d → Int.tdiv n d ≤ 32767 →
      ∃ t, exec (.rdiv sr) s = .next t ∧ (t.reg .a).toInt = Int.tdiv n d ∧ (t.reg .d).toInt = Int.tmod n d ∧
        t.reg .p = s.reg .p + 1 ∧ Frame [.a, .d] [] [] s t)

/-! ### Bits -/

/-- R221 and R222, decision D4: BSET sets the addressed bit to 0, 1, its complement or K, and changes no other bit of any register; P as
the register is a control transfer. -/
def Obligations.BsetSetsTheAddressedBit : Prop :=
  ∀ (c : BitCond) (n : Fin 16) (r : Reg) (s : State), bitDefined n r = true →
    ∃ t, exec (.bset c n r) s = .next t ∧
      (∀ i : Fin 16, (t.reg r).getLsbD i.val =
        if i = n then
          (match c with | .zro => false | .one => true | .bcm => !(s.reg r).getLsbD n.val | .bac => s.flag .k)
        else (s.reg r).getLsbD i.val) ∧
      (r ≠ .p → t.reg .p = s.reg .p + 1) ∧ Frame [r] (if r = .sts then [n] else []) [] s t

/-- R223, decision D4: BSKP skips one word exactly when the addressed bit is 0, is 1, or equals K, and writes nothing but P. -/
def Obligations.BskpSkipsOnItsCondition : Prop :=
  ∀ (c : BitCond) (n : Fin 16) (r : Reg) (s : State), bitDefined n r = true → c ≠ .bcm →
    ∃ t, exec (.bskp c n r) s = .next t ∧
      t.reg .p = (if (s.reg r).getLsbD n.val =
          (match c with | .zro => false | .one => true | .bcm => true | .bac => s.flag .k)
        then s.reg .p + 2 else s.reg .p + 1) ∧
      Frame [] [] [] s t

/-- R224 and R225, decisions D4 and D22: BSTA stores K in the addressed bit and clears K, BSTC stores the complement of K and sets K; where
the bit is K itself the second write stands. -/
def Obligations.BstaAndBstcStoreK : Prop :=
  ∀ (n : Fin 16) (r : Reg) (s : State), bitDefined n r = true →
    ∀ (i : Instr) (b k : Bool), (i, b, k) ∈ [(Instr.bsta n r, s.flag .k, false), (Instr.bstc n r, !s.flag .k, true)] →
    ∃ t, exec i s = .next t ∧ t.flag .k = k ∧
      (∀ j : Fin 16, ¬(r = .sts ∧ j = Flag.bit .k) →
        (t.reg r).getLsbD j.val = if j = n then b else (s.reg r).getLsbD j.val) ∧
      (r ≠ .p → t.reg .p = s.reg .p + 1) ∧
      Frame [r] (if r = .sts then [n, Flag.bit .k] else [Flag.bit .k]) [] s t

/-- R226 to R231: BLDA, BLDC, BANC, BORC, BAND and BORA, with their codes, compute K from K and the addressed bit, and write nothing else
but P. (The bits of STS that the spec does not define: `FormsTheSpecRefusesStop`.) -/
def Obligations.BitLoadsAndCombinesWriteK : Prop :=
  (∀ (n : Fin 16) (r : Reg) (f : Word), f = BitVec.ofNat 16 (8 * n.val) + r.num.setWidth 16 →
    decode (0o176600 + f) = .ok (.blda n r) ∧ decode (0o176400 + f) = .ok (.bldc n r) ∧
    decode (0o177000 + f) = .ok (.banc n r) ∧ decode (0o177400 + f) = .ok (.borc n r) ∧
    decode (0o177200 + f) = .ok (.band n r) ∧ decode (0o177600 + f) = .ok (.bora n r)) ∧
  ∀ (n : Fin 16) (r : Reg) (s : State) (b : Bool), bitDefined n r = true → b = (s.reg r).getLsbD n.val →
    ∀ (i : Instr) (k : Bool),
      (i, k) ∈ [(Instr.blda n r, b), (Instr.bldc n r, !b), (Instr.banc n r, s.flag .k && !b),
        (Instr.borc n r, s.flag .k || !b), (Instr.band n r, s.flag .k && b), (Instr.bora n r, s.flag .k || b)] →
      ∃ t, exec i s = .next t ∧ t.flag .k = k ∧ Frame [] [Flag.bit .k] [] s t

/-! ### Jumps and skips -/

/-- R250: JMP, of format MR with its operation code, continues at the effective address and changes nothing else; no operand is read there. -/
def Obligations.JmpContinuesAtTheEffectiveAddress : Prop :=
  (∀ m : MemRef, decode (0o124000 ||| encMem m) = .ok (.jmp m)) ∧
  ∀ (m : MemRef) (s : State) (el : Word), ea m s = .next el →
    ∃ t, exec (.jmp m) s = .next t ∧ t.reg .p = el ∧ Frame [] [] [] s t

/-- R251 and R201, conflict C11, decision D5: JPL leaves pc0 + 1 in L and continues at the effective address, and an EXIT from any state with
that L continues at the word after the JPL. -/
def Obligations.JplLinksAndExitReturns : Prop :=
  ∀ (m : MemRef) (s : State) (el : Word), ea m s = .next el →
    ∃ t, exec (.jpl m) s = .next t ∧ t.reg .p = el ∧ t.reg .l = s.reg .p + 1 ∧ Frame [.l] [] [] s t ∧
      ∀ u : State, u.reg .l = t.reg .l → ∃ v, exec .exit u = .next v ∧ v.reg .p = s.reg .p + 1

/-- R252 to R256 and R259, decisions D8, D42 and D4: JAP, JAN, JAZ, JAF and JXN continue at pc0 plus the signed displacement exactly when
their test of A or X holds, else at the next word; nothing is written but P. -/
def Obligations.ConditionalJumpsTestAOrX : Prop :=
  ∀ (d : BitVec 8) (s : State) (i : Instr) (c : Bool),
    (i, c) ∈ [(Instr.jap d, decide (0 ≤ (s.reg .a).toInt)), (Instr.jan d, decide ((s.reg .a).toInt < 0)),
      (Instr.jaz d, decide (s.reg .a = 0)), (Instr.jaf d, decide (s.reg .a ≠ 0)),
      (Instr.jxn d, decide ((s.reg .x).toInt < 0))] →
    ∃ t, exec i s = .next t ∧
      t.reg .p = (if c then s.reg .p + BitVec.ofInt 16 d.toInt else s.reg .p + 1) ∧ Frame [] [] [] s t

/-- R257 and R258, decisions D8, D34, D42 and D4: JPC and JNC increment X and test the new X. -/
def Obligations.CountingJumpsTestTheNewX : Prop :=
  ∀ (d : BitVec 8) (s : State) (i : Instr) (c : Bool),
    (i, c) ∈ [(Instr.jpc d, decide (0 ≤ (s.reg .x + 1).toInt)), (Instr.jnc d, decide ((s.reg .x + 1).toInt < 0))] →
    ∃ t, exec i s = .next t ∧ t.reg .x = s.reg .x + 1 ∧
      t.reg .p = (if c then s.reg .p + BitVec.ofInt 16 d.toInt else s.reg .p + 1) ∧ Frame [.x] [] [] s t

/-- R260 and R261, decisions D8, D23 and D4: SKP skips one word exactly when the destination stands in the named relation to the source; signed
and magnitude relations are those of the integers; nothing is written but P. -/
def Obligations.SkpSkipsOnTheNamedRelation : Prop :=
  ∀ (sr : Src) (dr : Dst) (r : Reg) (s : State) (d v : Word), destination dr = .next r → d = s.reg r →
    v = sourceValue sr s →
    ∀ (i : Instr) (c : Bool),
      (i, c) ∈ [(Instr.skpEql sr dr, decide (d = v)), (Instr.skpUeq sr dr, decide (d ≠ v)),
        (Instr.skpGre sr dr, decide (d.toInt ≥ v.toInt)), (Instr.skpLst sr dr, decide (d.toInt < v.toInt)),
        (Instr.skpMgre sr dr, decide (d.toNat ≥ v.toNat)), (Instr.skpMlst sr dr, decide (d.toNat < v.toNat))] →
      ∃ t, exec i s = .next t ∧ t.reg .p = (if c then s.reg .p + 2 else s.reg .p + 1) ∧ Frame [] [] [] s t

/-! ### Shifts -/

/-- R281 to R283 and R288, decision D24: shifting place by place is the closed form: zeros, copies of the sign, a rotation, the old M, or a
rotation through M enter, and the last bit that left is the bit R283 names. For a register of any width. (With LIN_MULTI = refuse the
instructions make one place at most, where the settings agree; `shiftPlaces` goes on there as with chain.) -/
def Obligations.PlaceByPlaceIsTheClosedForm : Prop :=
  ∀ (w : Nat) (mode : Config.LinMulti) (kind : ShiftKind) (m0 : Bool) (n : Nat) (v : BitVec w), 0 < w → 0 < n →
    shiftPlaces mode true kind m0 n v m0 = shiftLeftClosed mode kind m0 n v ∧
    shiftPlaces mode false kind m0 n v m0 = shiftRightClosed mode kind m0 n v

/-- R282 to R286 and R288, decisions D24, D25 and D4, LIN of several places as LIN_MULTI says, where it does not refuse it: SHT, SHD and SHA shift T, D and A, left
for a positive and right for a negative counter, with the last bit that left in M; counter 0 changes nothing but P. -/
def Obligations.SingleShiftsShiftTheirRegister : Prop :=
  ∀ (k : ShiftKind) (n : BitVec 6) (s : State) (i : Instr) (r : Reg),
    (k ≠ .lin ∨ n.toInt.natAbs ≤ 1 ∨ s.params.linMulti ≠ .refuse) →
    (i, r) ∈ [(Instr.sht k n, Reg.t), (Instr.shd k n, Reg.d), (Instr.sha k n, Reg.a)] →
    ∃ t, exec i s = .next t ∧ t.reg .p = s.reg .p + 1 ∧
      (n = 0 → Frame [] [] [] s t) ∧
      (n ≠ 0 → (t.reg r, t.flag .m) = shiftClosed s.params.linMulti k (s.flag .m) n.toInt (s.reg r) ∧
        Frame [r] [Flag.bit .m] [] s t)

/-- R282, R283, R287 and R288, decisions D24, D25 and D4: SAD shifts A and D connected as 32 bits, A the more significant half, where
LIN_MULTI does not refuse it. -/
def Obligations.SadShiftsTheDoubleAccumulator : Prop :=
  ∀ (k : ShiftKind) (n : BitVec 6) (s : State), (k ≠ .lin ∨ n.toInt.natAbs ≤ 1 ∨ s.params.linMulti ≠ .refuse) →
    ∃ t, exec (.sad k n) s = .next t ∧ t.reg .p = s.reg .p + 1 ∧
      (n = 0 → Frame [] [] [] s t) ∧
      (n ≠ 0 → (t.reg .a ++ t.reg .d, t.flag .m) =
          shiftClosed s.params.linMulti k (s.flag .m) n.toInt (s.reg .a ++ s.reg .d) ∧
        Frame [.a, .d] [Flag.bit .m] [] s t)

/-! ### Transfer -/

/-- R300 to R302, decisions D4, D8, D14 and D26: TRA STS gives A the seven flags in bits 7 to 1, and of the drawn bits nothing is claimed; TRA of
a drawn register completes with a free value in A; nothing else changes but P. -/
def Obligations.TraWritesAOnly : Prop :=
  ∀ (r : Fin 16) (s : State), r ∈ [0o1, 0o2, 0o3, 0o4, 0o5, 0o6, 0o7, 0o12, 0o13, 0o15] →
    ∃ t, exec (.tra r) s = .next t ∧
      (r = 1 → ∀ f : Flag, (t.reg .a).getLsbD f.bit.val = s.flag f) ∧
      (r ≠ 1 → t.reg .a = Config.envRead r s.draws) ∧
      t.reg .p = s.reg .p + 1 ∧ Frame [.a] [] [] s t

/-! ### Decoding, encoding, stepping -/

/-- R60 to R77: every well-formed instruction is read back from its word, with every operand at every value. -/
def Obligations.DecodeReadsEveryEncodedInstruction : Prop :=
  ∀ i : Instr, i.wellFormed = true → decode (encode i) = .ok i

/-- R76 and R90: every word that decodes is the word of the instruction it decodes to, which is well-formed: no two words are one
instruction. -/
def Obligations.EncodeGivesBackEveryDecodedWord : Prop :=
  ∀ (w : Word) (i : Instr), decode w = .ok i → i.wellFormed = true ∧ encode i = w

/-- R80: the words that decode to no instruction are exactly those of the table of unassigned words. -/
def Obligations.UnassignedWordsAreExactlyTheTable : Prop :=
  ∀ w : Word, (∃ e, decode w = .error e) ↔
    (w &&& 0o170000 = 0o160000) ∨ (w &&& 0o177400 = 0o133000) ∨
    (w &&& 0o177700 = 0o140400) ∨ (w &&& 0o177700 = 0o142400) ∨
    (w &&& 0o174000 = 0o140000 ∧ w &&& 0o000300 ≠ 0 ∧ w &&& 0o177700 ≠ 0o141200 ∧ w &&& 0o177707 ≠ 0o141600 ∧
      w ≠ 0o142200 ∧ w ≠ 0o142600) ∨
    (0o150020 ≤ w.toNat ∧ w.toNat ≤ 0o150077) ∨ (0o150120 ≤ w.toNat ∧ w.toNat ≤ 0o151377) ∨
    (0o152400 ≤ w.toNat ∧ w.toNat ≤ 0o152777 ∧ w &&& 0o177607 ≠ 0o152402 ∧ w &&& 0o177607 ≠ 0o152600) ∨
    (0o153000 ≤ w.toNat ∧ w.toNat ≤ 0o153777) ∨ (w &&& 0o174100 = 0o154100)

/-- Words written out from the encoding tables of the spec (R60 to R70, and the source's examples NLZ+20, DNZ-20, EXIT) decode to the
instructions they stand for. -/
def Obligations.WordsOfTheSpecDecode : Prop :=
  decode 0o047403 = .ok (.lda { x := true, i := true, b := true, disp := 3 }) ∧
  decode 0o130777 = .ok (.jan 0o377) ∧ decode 0o141065 = .ok (.skpGre .t .a) ∧ decode 0o141265 = .ok (.rmpy .t .a) ∧
  decode 0o146142 = .ok .exit ∧ decode 0o144655 = .ok (.rand true false .a .a) ∧ decode 0o156074 = .ok (.sht .zin 0o74) ∧
  decode 0o150012 = .ok (.tra 0o12) ∧ decode 0o151420 = .ok (.nlz 0o20) ∧ decode 0o152360 = .ok (.dnz 0o360) ∧
  decode 0o152630 = .ok (.lrb 3) ∧ decode 0o172775 = .ok (.aaa 0o375) ∧ decode 0o174375 = .ok (.bset .one 15 .a) ∧
  decode 0o177226 = .ok (.band 2 .t)

/-- R13 and R76: where the word at P exists and decodes to an instruction, one step is that instruction's execution and nothing around it; a
word that decodes to none is refused (R80, decision D28). -/
def Obligations.StepRunsTheDecodedInstruction : Prop :=
  ∀ (s : State) (w : Word), s.present (s.reg .p) = true → w = s.wordAt (s.reg .p) →
    (∀ i, decode w = .ok i → step s = exec i s) ∧ (∀ e, decode w = .error e → step s = .refused (.unassigned w))

/-- R51, decision D32: a word that STA stores at the next address is the instruction that the next step executes. -/
def Obligations.AStoreIsSeenByTheNextFetch : Prop :=
  ∀ (m : MemRef) (s t : State) (i : Instr), ea m s = .next (s.reg .p + 1) → exec (.sta m) s = .next t →
    decode (s.reg .a) = .ok i → step t = exec i t

/-! ### Whole-machine rules -/

/-- The invariant holds of the state a run starts from. (That reset lists no memory is the model's choice, log 4.) -/
def Obligations.ResetMeetsTheInvariant : Prop := Sys2Proof.Machine.Inv State.reset

/-- R53 and the canonical form of memory (log 5): from every state that meets it, every step keeps the invariant: memory canonical, no byte
listed beyond MEM_WORDS, MEM_WORDS in its range. -/
def Obligations.EveryStepKeepsTheInvariant : Prop :=
  ∀ s t : State, Sys2Proof.Machine.Inv s → step s = .next t → Sys2Proof.Machine.Inv t

/-- R12, R27 and R324, decision D29: levels are separate register contexts. No instruction changes LEVEL or a parameter; an instruction
other than LRB writes no register of a level that is not current, and LRB none but those of the level it names and P of the current one. -/
def Obligations.LevelsAreSeparateContexts : Prop :=
  ∀ (i : Instr) (s t : State), exec i s = .next t →
    t.level = s.level ∧ t.params = s.params ∧
    ∀ n : Fin 16, n ≠ s.level → i ≠ .lrb n → ∀ r, t.regAt n r = s.regAt n r

/-- R45: only STZ, STA, STT, STX, STD, STF, MIN, SBYT and SRB change memory. -/
def Obligations.OnlyStoresWriteMemory : Prop :=
  ∀ (i : Instr) (s t : State), exec i s = .next t → isStore i = false → ∀ k, t.byteAt k = s.byteAt k

/-- R17, decision D8: an instruction that the table of R17 does not list as a writer of a flag leaves that flag of the current level as it
was. For C and Z, NLZ and DNZ count as writers (R161, R162). A bit instruction counts where it writes that very bit of STS, or K as its
result; a shift where its counter is not zero. -/
def Obligations.FlagsAreWrittenOnlyByTheirWriters : Prop :=
  ∀ (i : Instr) (s t : State) (f : Flag), exec i s = .next t → mayWrite f i = false → t.flag f = s.flag f

/-- The model's choice (log 8; R18 gives these bits no storage): no step changes bit 0 or a bit 8 to 15 of STS of any level. -/
def Obligations.UndefinedStatusBitsAreNeverWritten : Prop :=
  ∀ (s t : State) (n j : Fin 16), step s = .next t → (j = 0 ∨ 8 ≤ j.val) →
    (t.regAt n .sts).getLsbD j.val = (s.regAt n .sts).getLsbD j.val

/-- R13 and R14, decision D4: an instruction that is no jump, no skip and does not write P by number leaves P at the next word. -/
def Obligations.OtherInstructionsGoOnAtTheNextWord : Prop :=
  ∀ (i : Instr) (s t : State), exec i s = .next t → mayTransfer s.level i = false → t.reg .p = s.reg .p + 1

/-- R12 and R331, decision D29: levels are separate register contexts. Two states that differ only in levels that are not current step to
outcomes that differ only there, for every instruction but SRB, which stores another level's registers. -/
def Obligations.OtherLevelsDoNotInfluenceAStep : Prop :=
  ∀ s s' : State, SameOnCurrentLevel s s' → (∀ n, decode (s.wordAt (s.reg .p)) ≠ .ok (.srb n)) →
    SameOutcome (step s) (step s')
end

