-- ==== Sys2Proof/Laws/Memory.lean ====
section
/-! SUPPORT. The laws of memory: read after write, and every write keeps the canonical form and stays within the memory present. -/

namespace Sys2Proof.Machine

theorem Memory.read_erase (m : List Host.Cell) (k j : Nat) :
    Memory.read (Memory.erase m k) j = if j = k then Memory.unlisted else Memory.read m j := by
  induction m with
  | nil => simp [Memory.erase, Memory.read]
  | cons c m ih =>
    obtain ⟨i, v⟩ := c
    by_cases hik : i = k
    · subst hik
      by_cases hj : j = i
      · subst hj; simpa [Memory.erase] using ih
      · simp [Memory.erase, Memory.read, ih, hj, Ne.symm hj]
    · by_cases hj : i = j
      · subst hj
        simp [Memory.erase, Memory.read, hik]
      · simp [Memory.erase, Memory.read, hik, hj, ih]

theorem Memory.read_insert (m : List Host.Cell) (k : Nat) (v : Byte) (j : Nat)
    (h : Memory.read m k = Memory.unlisted → ∀ c ∈ m, c.1 ≠ k) (hk : Memory.read m k = Memory.unlisted) :
    Memory.read (Memory.insert m k v) j = if j = k then v else Memory.read m j := by
  have h' := h hk
  clear h hk
  induction m with
  | nil =>
    by_cases hj : j = k
    · simp [Memory.insert, Memory.read, hj]
    · simp [Memory.insert, Memory.read, hj, Ne.symm hj]
  | cons c m ih =>
    obtain ⟨i, u⟩ := c
    have hi : i ≠ k := h' (i, u) (by simp)
    have ih' := ih (fun c hc => h' c (by simp [hc]))
    by_cases hlt : k < i
    · by_cases hj : j = k
      · simp [Memory.insert, Memory.read, hlt, hj]
      · simp [Memory.insert, Memory.read, hlt, hj, Ne.symm hj]
    · by_cases hj : i = j
      · subst hj
        simp [Memory.insert, Memory.read, hlt, hi]
      · simp [Memory.insert, Memory.read, hlt, hj, ih']

theorem Memory.erase_no_key (m : List Host.Cell) (k : Nat) : ∀ c ∈ Memory.erase m k, c.1 ≠ k := by
  induction m with
  | nil => simp [Memory.erase]
  | cons c m ih =>
    obtain ⟨i, v⟩ := c
    by_cases hik : i = k
    · simpa [Memory.erase, hik] using ih
    · intro c hc
      simp only [Memory.erase, hik, if_false, List.mem_cons] at hc
      rcases hc with rfl | hc
      · exact hik
      · exact ih c hc

/-- Reading after a write: the byte written, and every other byte as before. No condition on the memory. -/
theorem Memory.read_write (m : List Host.Cell) (k : Nat) (v : Byte) (j : Nat) :
    Memory.read (Memory.write m k v) j = if j = k then v else Memory.read m j := by
  unfold Memory.write
  split
  next hv => rw [Memory.read_erase, hv]
  next =>
    rw [Memory.read_insert _ _ _ _ (fun _ => Memory.erase_no_key m k) (by simp [Memory.read_erase]), Memory.read_erase]
    split <;> rfl

/-- A canonical list stays canonical under a lower bound. -/
theorem Memory.wfFrom_weaken {lo : Option Nat} {m : List Host.Cell} (h : Memory.wfFrom lo m) : Memory.wfFrom none m := by
  cases m with
  | nil => rfl
  | cons c m => obtain ⟨k, v⟩ := c; simp only [Memory.wfFrom, Bool.and_eq_true] at h ⊢; exact ⟨⟨rfl, h.1.2⟩, h.2⟩

theorem Memory.wfFrom_lower {i j : Nat} {m : List Host.Cell} (hij : i ≤ j) (h : Memory.wfFrom (some j) m) :
    Memory.wfFrom (some i) m := by
  cases m with
  | nil => rfl
  | cons c m =>
    obtain ⟨k, v⟩ := c
    simp only [Memory.wfFrom, Memory.above, Bool.and_eq_true, decide_eq_true_eq] at h ⊢
    exact ⟨⟨by omega, h.1.2⟩, h.2⟩

theorem Memory.wfFrom_erase {lo : Option Nat} {m : List Host.Cell} (k : Nat) (h : Memory.wfFrom lo m) :
    Memory.wfFrom lo (Memory.erase m k) := by
  induction m generalizing lo with
  | nil => rfl
  | cons c m ih =>
    obtain ⟨j, v⟩ := c
    simp only [Memory.wfFrom, Bool.and_eq_true] at h
    by_cases hjk : j = k
    · subst hjk
      simp only [Memory.erase, if_true]
      cases lo with
      | none => exact Memory.wfFrom_weaken (ih h.2)
      | some i =>
        have hij : i < j := by simpa [Memory.above] using h.1.1
        exact Memory.wfFrom_lower (Nat.le_of_lt hij) (ih h.2)
    · simp only [Memory.erase, hjk, if_false, Memory.wfFrom, Bool.and_eq_true]
      exact ⟨h.1, ih h.2⟩

theorem Memory.wfFrom_insert {lo : Option Nat} {m : List Host.Cell} {k : Nat} {v : Byte}
    (h : Memory.wfFrom lo m) (hv : v ≠ Memory.unlisted) (hk : ∀ c ∈ m, c.1 ≠ k) (hlo : ∀ i, lo = some i → i < k) :
    Memory.wfFrom lo (Memory.insert m k v) := by
  have bound : Memory.above lo k = true := by
    cases lo with
    | none => rfl
    | some i => simpa [Memory.above] using hlo i rfl
  induction m generalizing lo with
  | nil => simp [Memory.insert, Memory.wfFrom, hv, bound]
  | cons c m ih =>
    obtain ⟨j, u⟩ := c
    simp only [Memory.wfFrom, Bool.and_eq_true] at h
    by_cases hlt : k < j
    · simp only [Memory.insert, hlt, if_true, Memory.wfFrom, Bool.and_eq_true, decide_eq_true_eq]
      exact ⟨⟨bound, hv⟩, ⟨by simpa [Memory.above] using hlt, by simpa using h.1.2⟩, h.2⟩
    · have hjk : j < k := by
        have := hk (j, u) (by simp)
        simp only [ne_eq] at this
        omega
      simp only [Memory.insert, hlt, if_false, Memory.wfFrom, Bool.and_eq_true]
      refine ⟨h.1, ih h.2 (fun c hc => hk c (by simp [hc])) (fun i hi => ?_) (by simpa [Memory.above] using hjk)⟩
      cases hi
      exact hjk

/-- Every write keeps the canonical form. -/
theorem Memory.wf_write {m : List Host.Cell} (k : Nat) (v : Byte) (h : Memory.wf m) : Memory.wf (Memory.write m k v) := by
  unfold Memory.write
  split
  next => exact Memory.wfFrom_erase k h
  next hv =>
    exact Memory.wfFrom_insert (Memory.wfFrom_erase k h) hv (Memory.erase_no_key m k) (by simp)

theorem Memory.mem_erase {m : List Host.Cell} {k : Nat} {c : Host.Cell} (h : c ∈ Memory.erase m k) : c ∈ m := by
  induction m with
  | nil => simp [Memory.erase] at h
  | cons d m ih =>
    obtain ⟨j, v⟩ := d
    by_cases hjk : j = k
    · simp only [Memory.erase, hjk, if_true] at h
      exact List.mem_cons_of_mem _ (ih h)
    · simp only [Memory.erase, hjk, if_false, List.mem_cons] at h
      rcases h with rfl | h
      · simp
      · exact List.mem_cons_of_mem _ (ih h)

theorem Memory.mem_insert {m : List Host.Cell} {k : Nat} {v : Byte} {c : Host.Cell} (h : c ∈ Memory.insert m k v) :
    c = (k, v) ∨ c ∈ m := by
  induction m with
  | nil => simpa [Memory.insert] using h
  | cons d m ih =>
    obtain ⟨j, u⟩ := d
    simp only [Memory.insert] at h
    split at h
    · simpa using h
    · rcases List.mem_cons.1 h with rfl | h
      · exact .inr (by simp)
      · rcases ih h with rfl | h
        · exact .inl rfl
        · exact .inr (List.mem_cons_of_mem _ h)

/-- A write of a byte of a word that exists lists no byte beyond the memory present. -/
theorem Memory.within_write {words : Nat} {m : List Host.Cell} {k : Nat} (v : Byte) (hk : k < 2 * words)
    (h : Memory.within words m) : Memory.within words (Memory.write m k v) := by
  simp only [Memory.within, List.all_eq_true, decide_eq_true_eq] at h ⊢
  intro c hc
  unfold Memory.write at hc
  split at hc
  · exact h c (Memory.mem_erase hc)
  · rcases Memory.mem_insert hc with rfl | hc
    · exact hk
    · exact h c (Memory.mem_erase hc)

end Sys2Proof.Machine
end

