-- ==== Sys2Proof/Laws/State.lean ====
section
/-! SUPPORT. One lemma per field per update of the state, so that no later proof unfolds a record update. -/

namespace Sys2Proof.Machine

/-! ### Registers -/

@[simp] theorem RegBlock.get_set_same (rb : RegBlock) (r : Reg) (v : Word) : (rb.set r v).get r = v := by
  cases r <;> rfl

@[simp] theorem RegBlock.get_set_ne (rb : RegBlock) {r q : Reg} (v : Word) (h : q ≠ r) : (rb.set r v).get q = rb.get q := by
  cases r <;> cases q <;> first | rfl | exact absurd rfl h

@[simp] theorem State.setBlockAt_level (s : State) (n : Fin 16) (rb : RegBlock) : (s.setBlockAt n rb).level = s.level := rfl
@[simp] theorem State.setBlockAt_mem (s : State) (n : Fin 16) (rb : RegBlock) : (s.setBlockAt n rb).mem = s.mem := rfl
@[simp] theorem State.setBlockAt_params (s : State) (n : Fin 16) (rb : RegBlock) : (s.setBlockAt n rb).params = s.params := rfl
@[simp] theorem State.setBlockAt_draws (s : State) (n : Fin 16) (rb : RegBlock) : (s.setBlockAt n rb).draws = s.draws := rfl

@[simp] theorem State.blockAt_setBlockAt_same (s : State) (n : Fin 16) (rb : RegBlock) :
    (s.setBlockAt n rb).blockAt n = rb := by
  simp [State.blockAt, State.setBlockAt]

@[simp] theorem State.blockAt_setBlockAt_ne (s : State) {n k : Fin 16} (rb : RegBlock) (h : k ≠ n) :
    (s.setBlockAt n rb).blockAt k = s.blockAt k := by
  have : n.val ≠ k.val := fun e => h (Fin.ext e.symm)
  simp [State.blockAt, State.setBlockAt, this]

@[simp] theorem State.setReg_level (s : State) (r : Reg) (v : Word) : (s.setReg r v).level = s.level := rfl
@[simp] theorem State.setReg_mem (s : State) (r : Reg) (v : Word) : (s.setReg r v).mem = s.mem := rfl
@[simp] theorem State.setReg_params (s : State) (r : Reg) (v : Word) : (s.setReg r v).params = s.params := rfl
@[simp] theorem State.setReg_draws (s : State) (r : Reg) (v : Word) : (s.setReg r v).draws = s.draws := rfl

@[simp] theorem State.reg_setReg_same (s : State) (r : Reg) (v : Word) : (s.setReg r v).reg r = v := by
  simp [State.reg, State.setReg, State.setRegAt, State.regAt]

@[simp] theorem State.reg_setReg_ne (s : State) {r q : Reg} (v : Word) (h : q ≠ r) : (s.setReg r v).reg q = s.reg q := by
  simp [State.reg, State.setReg, State.setRegAt, State.regAt, h]

/-- A register write on the current level leaves every other level alone. -/
@[simp] theorem State.regAt_setReg_other (s : State) (r : Reg) (v : Word) {n : Fin 16} (q : Reg) (h : n ≠ s.level) :
    (s.setReg r v).regAt n q = s.regAt n q := by
  simp [State.setReg, State.setRegAt, State.regAt, h]

/-! ### Flags -/

theorem getLsbD_putBitOf (v : Word) (n : Fin 16) (b : Bool) (i : Nat) :
    (putBitOf v n b).getLsbD i = if i = n.val then b else v.getLsbD i := by
  have hn : n.val < 16 := n.isLt
  unfold putBitOf
  by_cases h : i = n.val
  · rw [if_pos h, h]
    cases b <;> simp
  · rw [if_neg h]
    by_cases hi : i < 16
    · cases b <;> simp [h, hi]
    · rw [BitVec.getLsbD_of_ge _ _ (by omega), BitVec.getLsbD_of_ge _ _ (by omega)]

theorem Flag.bit_injective {f g : Flag} (h : f.bit.val = g.bit.val) : f = g := by
  cases f <;> cases g <;> first | rfl | exact absurd h (by decide)

@[simp] theorem State.setFlag_level (s : State) (f : Flag) (b : Bool) : (s.setFlag f b).level = s.level := rfl
@[simp] theorem State.setFlag_mem (s : State) (f : Flag) (b : Bool) : (s.setFlag f b).mem = s.mem := rfl
@[simp] theorem State.setFlag_params (s : State) (f : Flag) (b : Bool) : (s.setFlag f b).params = s.params := rfl
@[simp] theorem State.setFlag_draws (s : State) (f : Flag) (b : Bool) : (s.setFlag f b).draws = s.draws := rfl

@[simp] theorem State.flag_setFlag_same (s : State) (f : Flag) (b : Bool) : (s.setFlag f b).flag f = b := by
  rw [State.flag, State.setFlag, State.reg_setReg_same, getLsbD_putBitOf, if_pos rfl]

@[simp] theorem State.flag_setFlag_ne (s : State) {f g : Flag} (b : Bool) (h : g ≠ f) : (s.setFlag f b).flag g = s.flag g := by
  have : g.bit.val ≠ f.bit.val := fun e => h (Flag.bit_injective e)
  rw [State.flag, State.setFlag, State.reg_setReg_same, getLsbD_putBitOf, if_neg this, State.flag]

@[simp] theorem State.reg_setFlag (s : State) (f : Flag) (b : Bool) {r : Reg} (h : r ≠ .sts) : (s.setFlag f b).reg r = s.reg r := by
  simp [State.setFlag, h]

@[simp] theorem State.flag_setReg (s : State) {r : Reg} (v : Word) (f : Flag) (h : r ≠ .sts) :
    (s.setReg r v).flag f = s.flag f := by
  simp [State.flag, Ne.symm h]

@[simp] theorem State.regAt_setFlag_other (s : State) (f : Flag) (b : Bool) {n : Fin 16} (q : Reg) (h : n ≠ s.level) :
    (s.setFlag f b).regAt n q = s.regAt n q := by
  simp [State.setFlag, h]

/-! ### The program counter -/

@[simp] theorem State.advance_level (s : State) : s.advance.level = s.level := rfl
@[simp] theorem State.advance_mem (s : State) : s.advance.mem = s.mem := rfl
@[simp] theorem State.advance_params (s : State) : s.advance.params = s.params := rfl
@[simp] theorem State.advance_draws (s : State) : s.advance.draws = s.draws := rfl
@[simp] theorem State.advance_p (s : State) : s.advance.reg .p = s.reg .p + 1 := by simp [State.advance]
@[simp] theorem State.advance_reg (s : State) {r : Reg} (h : r ≠ .p) : s.advance.reg r = s.reg r := by simp [State.advance, h]
@[simp] theorem State.advance_flag (s : State) (f : Flag) : s.advance.flag f = s.flag f := by simp [State.advance]

@[simp] theorem State.advance_regAt_other (s : State) {n : Fin 16} (q : Reg) (h : n ≠ s.level) :
    s.advance.regAt n q = s.regAt n q := by
  simp [State.advance, h]

@[simp] theorem State.skipIf_level (s : State) (c : Bool) : (s.skipIf c).level = s.level := by cases c <;> rfl
@[simp] theorem State.skipIf_mem (s : State) (c : Bool) : (s.skipIf c).mem = s.mem := by cases c <;> rfl
@[simp] theorem State.skipIf_params (s : State) (c : Bool) : (s.skipIf c).params = s.params := by cases c <;> rfl
@[simp] theorem State.skipIf_draws (s : State) (c : Bool) : (s.skipIf c).draws = s.draws := by cases c <;> rfl

theorem State.skipIf_p (s : State) (c : Bool) : (s.skipIf c).reg .p = if c then s.reg .p + 2 else s.reg .p + 1 := by
  cases c <;> simp [State.skipIf, State.skip]

@[simp] theorem State.skipIf_reg (s : State) (c : Bool) {r : Reg} (h : r ≠ .p) : (s.skipIf c).reg r = s.reg r := by
  cases c <;> simp [State.skipIf, State.skip, h]

@[simp] theorem State.skipIf_regAt_other (s : State) (c : Bool) {n : Fin 16} (q : Reg) (h : n ≠ s.level) :
    (s.skipIf c).regAt n q = s.regAt n q := by
  cases c <;> simp [State.skipIf, State.skip, h]

/-! ### Draws -/

@[simp] theorem State.drew_level (s : State) (n : Nat) : (s.drew n).level = s.level := rfl
@[simp] theorem State.drew_mem (s : State) (n : Nat) : (s.drew n).mem = s.mem := rfl
@[simp] theorem State.drew_params (s : State) (n : Nat) : (s.drew n).params = s.params := rfl
@[simp] theorem State.drew_draws (s : State) (n : Nat) : (s.drew n).draws = s.draws + n := rfl
@[simp] theorem State.drew_reg (s : State) (n : Nat) (r : Reg) : (s.drew n).reg r = s.reg r := rfl
@[simp] theorem State.drew_regAt (s : State) (n : Nat) (k : Fin 16) (r : Reg) : (s.drew n).regAt k r = s.regAt k r := rfl
@[simp] theorem State.drew_flag (s : State) (n : Nat) (f : Flag) : (s.drew n).flag f = s.flag f := rfl

/-! ### Memory -/

@[simp] theorem State.putByte_level (s : State) (k : Nat) (v : Byte) : (s.putByte k v).level = s.level := rfl
@[simp] theorem State.putByte_params (s : State) (k : Nat) (v : Byte) : (s.putByte k v).params = s.params := rfl
@[simp] theorem State.putByte_draws (s : State) (k : Nat) (v : Byte) : (s.putByte k v).draws = s.draws := rfl
@[simp] theorem State.putByte_reg (s : State) (k : Nat) (v : Byte) (r : Reg) : (s.putByte k v).reg r = s.reg r := rfl
@[simp] theorem State.putByte_regAt (s : State) (k : Nat) (v : Byte) (n : Fin 16) (r : Reg) :
    (s.putByte k v).regAt n r = s.regAt n r := rfl

/-- Reading a byte after a byte is written. -/
theorem State.byteAt_putByte (s : State) (k : Nat) (v : Byte) (j : Nat) :
    (s.putByte k v).byteAt j = if j = k then v else s.byteAt j := Memory.read_write s.mem k v j

@[simp] theorem State.putWord_level (s : State) (a v : Word) : (s.putWord a v).level = s.level := rfl
@[simp] theorem State.putWord_params (s : State) (a v : Word) : (s.putWord a v).params = s.params := rfl
@[simp] theorem State.putWord_draws (s : State) (a v : Word) : (s.putWord a v).draws = s.draws := rfl
@[simp] theorem State.putWord_reg (s : State) (a v : Word) (r : Reg) : (s.putWord a v).reg r = s.reg r := rfl
@[simp] theorem State.putWord_flag (s : State) (a v : Word) (f : Flag) : (s.putWord a v).flag f = s.flag f := rfl
@[simp] theorem State.putWord_regAt (s : State) (a v : Word) (n : Fin 16) (r : Reg) :
    (s.putWord a v).regAt n r = s.regAt n r := rfl

/-- The left and right byte of a word together are the word. -/
theorem bytes_of_word (v : Word) : v.extractLsb' 8 8 ++ v.extractLsb' 0 8 = v := by
  apply BitVec.eq_of_getLsbD_eq
  intro i hi
  rw [BitVec.getLsbD_append, BitVec.getLsbD_extractLsb', BitVec.getLsbD_extractLsb']
  by_cases h : i < 8
  · simp [h]
  · simp only [h, decide_false, show 8 + (i - 8) = i by omega]
    simp [show i - 8 < 8 by omega]

/-- Reading a byte after a word is written: only the two bytes of that word change. -/
theorem State.byteAt_putWord (s : State) (a v : Word) (j : Nat) :
    (s.putWord a v).byteAt j =
      if j = byteNumber a true then v.extractLsb' 0 8
      else if j = byteNumber a false then v.extractLsb' 8 8
      else s.byteAt j := by
  simp [State.putWord, State.byteAt_putByte]

theorem byteNumber_false (a : Word) : byteNumber a false = 2 * a.toNat := by simp [byteNumber]
theorem byteNumber_true (a : Word) : byteNumber a true = 2 * a.toNat + 1 := by simp [byteNumber]

theorem State.byteAt_putWord_outside (s : State) (a v : Word) {j : Nat} (h0 : j ≠ byteNumber a false)
    (h1 : j ≠ byteNumber a true) : (s.putWord a v).byteAt j = s.byteAt j := by
  simp [State.byteAt_putWord, h0, h1]

/-- Read after write of a word. -/
@[simp] theorem State.wordAt_putWord_same (s : State) (a v : Word) : (s.putWord a v).wordAt a = v := by
  have h : byteNumber a false ≠ byteNumber a true := by rw [byteNumber_false, byteNumber_true]; omega
  simp [State.wordAt, State.byteAt_putWord, h, bytes_of_word]

/-- A write of one word leaves every other word alone. -/
@[simp] theorem State.wordAt_putWord_ne (s : State) {a b : Word} (v : Word) (h : b ≠ a) :
    (s.putWord a v).wordAt b = s.wordAt b := by
  have hn : b.toNat ≠ a.toNat := fun e => h (BitVec.eq_of_toNat_eq e)
  have h1 : ∀ x y, byteNumber b x ≠ byteNumber a y := by
    intro x y
    cases x <;> cases y <;> simp only [byteNumber_false, byteNumber_true] <;> omega
  simp [State.wordAt, State.byteAt_putWord, h1]

/-- Memory reads depend on memory alone. -/
theorem State.byteAt_of_mem {s t : State} (h : t.mem = s.mem) (k : Nat) : t.byteAt k = s.byteAt k := by
  simp [State.byteAt, h]

theorem State.wordAt_of_mem {s t : State} (h : t.mem = s.mem) (a : Word) : t.wordAt a = s.wordAt a := by
  simp [State.wordAt, State.byteAt_of_mem h]

@[simp] theorem State.wordAt_setReg (s : State) (r : Reg) (v a : Word) : (s.setReg r v).wordAt a = s.wordAt a := rfl
@[simp] theorem State.wordAt_setFlag (s : State) (f : Flag) (b : Bool) (a : Word) : (s.setFlag f b).wordAt a = s.wordAt a := rfl
@[simp] theorem State.wordAt_advance (s : State) (a : Word) : s.advance.wordAt a = s.wordAt a := rfl

theorem State.present_of_params {s t : State} (h : t.params = s.params) (a : Word) : t.present a = s.present a := by
  simp [State.present, h]

/-! ### Composite registers and flag laws -/

@[simp] theorem State.setDouble_level (s : State) (v : BitVec 32) : (s.setDouble v).level = s.level := rfl
@[simp] theorem State.setDouble_mem (s : State) (v : BitVec 32) : (s.setDouble v).mem = s.mem := rfl
@[simp] theorem State.setDouble_params (s : State) (v : BitVec 32) : (s.setDouble v).params = s.params := rfl
@[simp] theorem State.setFloat_level (s : State) (v : BitVec 48) : (s.setFloat v).level = s.level := rfl
@[simp] theorem State.setFloat_mem (s : State) (v : BitVec 48) : (s.setFloat v).mem = s.mem := rfl
@[simp] theorem State.setFloat_params (s : State) (v : BitVec 48) : (s.setFloat v).params = s.params := rfl
@[simp] theorem State.setOverflow_level (s : State) (v : Bool) : (s.setOverflow v).level = s.level := rfl
@[simp] theorem State.setOverflow_mem (s : State) (v : Bool) : (s.setOverflow v).mem = s.mem := rfl
@[simp] theorem State.setOverflow_params (s : State) (v : Bool) : (s.setOverflow v).params = s.params := rfl
@[simp] theorem State.setAddFlags_level (s : State) (c v : Bool) : (s.setAddFlags c v).level = s.level := rfl
@[simp] theorem State.setAddFlags_mem (s : State) (c v : Bool) : (s.setAddFlags c v).mem = s.mem := rfl
@[simp] theorem State.setAddFlags_params (s : State) (c v : Bool) : (s.setAddFlags c v).params = s.params := rfl

@[simp] theorem State.setArgFlags_level (s : State) (a b : Word) : (s.setArgFlags a b).level = s.level := by
  unfold State.setArgFlags; split <;> rfl
@[simp] theorem State.setArgFlags_mem (s : State) (a b : Word) : (s.setArgFlags a b).mem = s.mem := by
  unfold State.setArgFlags; split <;> rfl
@[simp] theorem State.setArgFlags_params (s : State) (a b : Word) : (s.setArgFlags a b).params = s.params := by
  unfold State.setArgFlags; split <;> rfl

end Sys2Proof.Machine
end

