-- ==== Sys2Proof/Laws/Ops.lean ====
section
/-! SUPPORT. For each shared operation, once, everything it can do where it answers a next state or a value. -/

namespace Sys2Proof.Machine

@[simp] theorem andThen_next {α β : Type} (a : α) (k : α → Result β) : andThen (.next a) k = k a := rfl
@[simp] theorem andThen_fault {α β : Type} (r : Fault) (k : α → Result β) : andThen (.fault r) k = .fault r := rfl
@[simp] theorem andThen_refused {α β : Type} (r : Refusal) (k : α → Result β) : andThen (.refused r) k = .refused r := rfl

/-- A sequence answers where both parts do. -/
theorem andThen_eq_next {α β : Type} {o : Result α} {k : α → Result β} {b : β} :
    andThen o k = .next b ↔ ∃ a, o = .next a ∧ k a = .next b := by
  cases o <;> simp [andThen]

theorem loadWord_eq_next {s : State} {a w : Word} : loadWord s a = .next w ↔ s.present a = true ∧ w = s.wordAt a := by
  unfold loadWord
  split
  next h => simp [h, eq_comm (a := w)]
  next h => simp [h]

theorem loadWord_present {s : State} {a : Word} (h : s.present a = true) : loadWord s a = .next (s.wordAt a) := by
  simp [loadWord, h]

theorem storeWord_eq_next {a v : Word} {s t : State} :
    storeWord a v s = .next t ↔ s.present a = true ∧ t = s.putWord a v := by
  unfold storeWord
  split
  next h => simp [h, eq_comm (a := t)]
  next h => simp [h]

theorem storeWord_present {a v : Word} {s : State} (h : s.present a = true) : storeWord a v s = .next (s.putWord a v) := by
  simp [storeWord, h]

/-- A store of words changes memory only, keeps its canonical form, and stays within the memory present. -/
theorem storeWords_spec {vs : List Word} {a : Word} {s t : State} (h : storeWords a vs s = .next t) :
    t.levels = s.levels ∧ t.level = s.level ∧ t.params = s.params ∧ t.draws = s.draws ∧
      (Memory.wf s.mem → Memory.wf t.mem) ∧
      (Memory.within s.params.memWords s.mem → Memory.within s.params.memWords t.mem) := by
  induction vs generalizing a s with
  | nil => simp only [storeWords, Host.Outcome.next.injEq] at h; subst h; simp
  | cons v vs ih =>
    simp only [storeWords, andThen_eq_next, storeWord_eq_next] at h
    obtain ⟨u, ⟨hp, rfl⟩, h⟩ := h
    obtain ⟨h1, h2, h3, h4, h5, h6⟩ := ih h
    have hp' : a.toNat < s.params.memWords := by simpa [State.present] using hp
    refine ⟨h1, h2, h3, h4, fun hw => h5 (Memory.wf_write _ _ (Memory.wf_write _ _ hw)), fun hw => h6 ?_⟩
    have h0 : byteNumber a false < 2 * s.params.memWords := by rw [byteNumber_false]; omega
    have h1 : byteNumber a true < 2 * s.params.memWords := by rw [byteNumber_true]; omega
    exact Memory.within_write _ h1 (Memory.within_write _ h0 hw)

/-- The effective address depends on P, B, X and one memory word; where it answers, the indirect word was present. -/
theorem ea_eq_next {m : MemRef} {s : State} {el : Word} :
    ea m s = .next el ↔
      (m.i = true → s.present (eaBase m s + signed8 m.disp) = true) ∧
      el = (if m.i then s.wordAt (eaBase m s + signed8 m.disp) else eaBase m s + signed8 m.disp) +
        (if m.x then s.reg .x else 0) := by
  unfold ea eaIndirect
  cases hi : m.i <;> cases hx : m.x <;>
    simp [andThen_eq_next, loadWord_eq_next, eq_comm (a := el)]

/-- A destination field answers the register of its number, for every number but 0. -/
theorem destination_eq_next {dr : Dst} {r : Reg} :
    destination dr = .next r ↔ dr ≠ .undef ∧ r = (match dr with
      | .undef => .sts | .d => .d | .p => .p | .b => .b | .l => .l | .a => .a | .t => .t | .x => .x) := by
  cases dr <;> simp [destination, eq_comm (a := r)]

/-- No destination is STS. -/
theorem destination_ne_sts {dr : Dst} {r : Reg} (h : destination dr = .next r) : r ≠ .sts := by
  cases dr <;> simp [destination] at h <;> subst h <;> decide

/-- No source is STS. -/
theorem sourceReg_ne_sts {sr : Src} {r : Reg} (h : sourceReg sr = some r) : r ≠ .sts := by
  cases sr <;> simp [sourceReg] at h <;> subst h <;> decide

theorem getBit_eq_next {n : Fin 16} {r : Reg} {s : State} {b : Bool} :
    getBit n r s = .next b ↔ bitDefined n r = true ∧ b = (s.reg r).getLsbD n.val := by
  unfold getBit
  split
  next h => simp [h, eq_comm (a := b)]
  next h => simp [h]

theorem putBit_eq_next {n : Fin 16} {r : Reg} {b : Bool} {s t u : State} :
    putBit n r b s t = .next u ↔ bitDefined n r = true ∧ u = t.setReg r (putBitOf (s.reg r) n b) := by
  unfold putBit
  split
  next h => simp [h, eq_comm (a := u)]
  next h => simp [h]

theorem loadFloat_eq_next {s : State} {a : Word} {v : BitVec 48} :
    loadFloat s a = .next v ↔
      s.present a = true ∧ s.present (a + 1) = true ∧ s.present (a + 2) = true ∧
      v = s.wordAt a ++ s.wordAt (a + 1) ++ s.wordAt (a + 2) := by
  simp only [loadFloat, andThen_eq_next, loadWord_eq_next]
  constructor
  · rintro ⟨_, ⟨h0, rfl⟩, _, ⟨h1, rfl⟩, _, ⟨h2, rfl⟩, h⟩
    exact ⟨h0, h1, h2, by simpa using h.symm⟩
  · rintro ⟨h0, h1, h2, rfl⟩
    exact ⟨_, ⟨h0, rfl⟩, _, ⟨h1, rfl⟩, _, ⟨h2, rfl⟩, rfl⟩

theorem loadTwo_eq_next {s : State} {a : Word} {v : Word × Word} :
    loadTwo s a = .next v ↔
      s.present a = true ∧ s.present (a + 1) = true ∧ v = (s.wordAt a, s.wordAt (a + 1)) := by
  simp only [loadTwo, andThen_eq_next, loadWord_eq_next]
  constructor
  · rintro ⟨_, ⟨h0, rfl⟩, _, ⟨h1, rfl⟩, h⟩
    exact ⟨h0, h1, by simpa using h.symm⟩
  · rintro ⟨h0, h1, rfl⟩
    exact ⟨_, ⟨h0, rfl⟩, _, ⟨h1, rfl⟩, rfl⟩

end Sys2Proof.Machine
end

