-- ==== Sys2Proof/Laws/Meanings.lean ====
section
/-! SUPPORT. For each operation that several meanings share, once, everything it can do where it answers a next state. -/

namespace Sys2Proof.Machine

/-! ### Memory operands -/

theorem storeWords_cons_eq_next {a v : Word} {vs : List Word} {s t : State} :
    storeWords a (v :: vs) s = .next t ↔ s.present a = true ∧ storeWords (a + 1) vs (s.putWord a v) = .next t := by
  simp only [storeWords, andThen_eq_next, storeWord_eq_next]
  constructor
  · rintro ⟨_, ⟨h, rfl⟩, h'⟩
    exact ⟨h, h'⟩
  · rintro ⟨h, h'⟩
    exact ⟨_, ⟨h, rfl⟩, h'⟩

theorem storeWords_nil_eq_next {a : Word} {s t : State} : storeWords a [] s = .next t ↔ t = s := by
  simp [storeWords, eq_comm]

theorem storeAtEa_eq_next {m : MemRef} {vs : List Word} {s t : State} :
    storeAtEa m vs s = .next t ↔ ∃ el, ea m s = .next el ∧ storeWords el vs s.advance = .next t := by
  simp only [storeAtEa, andThen_eq_next]

theorem loadReg_eq_next {r : Reg} {m : MemRef} {s t : State} :
    loadReg r m s = .next t ↔ ∃ el, ea m s = .next el ∧ s.present el = true ∧ t = s.advance.setReg r (s.wordAt el) := by
  simp only [loadReg, andThen_eq_next, loadWord_eq_next]
  constructor
  · rintro ⟨el, he, _, ⟨hp, rfl⟩, h⟩
    exact ⟨el, he, hp, by simpa using h.symm⟩
  · rintro ⟨el, he, hp, rfl⟩
    exact ⟨el, he, _, ⟨hp, rfl⟩, rfl⟩

theorem withOperand_eq_next {m : MemRef} {s t : State} {k : Word → State} :
    withOperand m s k = .next t ↔ ∃ el, ea m s = .next el ∧ s.present el = true ∧ t = k (s.wordAt el) := by
  simp only [withOperand, andThen_eq_next, loadWord_eq_next]
  constructor
  · rintro ⟨el, he, _, ⟨hp, rfl⟩, h⟩
    exact ⟨el, he, hp, by simpa using h.symm⟩
  · rintro ⟨el, he, hp, rfl⟩
    exact ⟨el, he, _, ⟨hp, rfl⟩, rfl⟩

theorem floatOp_eq_next {f : Bool → Bool → Bool → BitVec 48 → BitVec 48 → Config.FloatResult} {m : MemRef} {s t : State} :
    floatOp f m s = .next t ↔ ∃ el, ea m s = .next el ∧
      s.present el = true ∧ s.present (el + 1) = true ∧ s.present (el + 2) = true ∧
      t = s.advance.setFloatResult (f (s.flag .tg) (s.flag .c) (s.flag .z) s.float
        (s.wordAt el ++ s.wordAt (el + 1) ++ s.wordAt (el + 2))) := by
  simp only [floatOp, andThen_eq_next, loadFloat_eq_next]
  constructor
  · rintro ⟨el, he, _, ⟨h0, h1, h2, rfl⟩, h⟩
    exact ⟨el, he, h0, h1, h2, by simpa using h.symm⟩
  · rintro ⟨el, he, h0, h1, h2, rfl⟩
    exact ⟨el, he, _, ⟨h0, h1, h2, rfl⟩, rfl⟩

theorem loadBlock_eq_next {s : State} {a : Word} {rb : RegBlock} :
    loadBlock s a = .next rb ↔
      (∀ k : Fin 8, s.present (a + BitVec.ofNat 16 k.val) = true) ∧
      rb = { p := s.wordAt a, x := s.wordAt (a + 1), t := s.wordAt (a + 2), a := s.wordAt (a + 3), d := s.wordAt (a + 4),
             l := s.wordAt (a + 5), sts := s.wordAt (a + 6), b := s.wordAt (a + 7) } := by
  simp only [loadBlock, andThen_eq_next, loadWord_eq_next]
  constructor
  · rintro ⟨_, ⟨h0, rfl⟩, _, ⟨h1, rfl⟩, _, ⟨h2, rfl⟩, _, ⟨h3, rfl⟩, _, ⟨h4, rfl⟩, _, ⟨h5, rfl⟩, _, ⟨h6, rfl⟩, _, ⟨h7, rfl⟩, h⟩
    refine ⟨fun k => ?_, by simpa using h.symm⟩
    match k with
    | 0 => simpa using h0
    | 1 => exact h1
    | 2 => exact h2
    | 3 => exact h3
    | 4 => exact h4
    | 5 => exact h5
    | 6 => exact h6
    | 7 => exact h7
  · rintro ⟨h, rfl⟩
    have h0 : s.present a = true := by simpa using h 0
    exact ⟨_, ⟨h0, rfl⟩, _, ⟨h 1, rfl⟩, _, ⟨h 2, rfl⟩, _, ⟨h 3, rfl⟩, _, ⟨h 4, rfl⟩, _, ⟨h 5, rfl⟩, _, ⟨h 6, rfl⟩, _, ⟨h 7, rfl⟩, rfl⟩

/-! ### Additions -/

/-- An addition on integers: the sum mod 65536, the carry out, and the signed overflow (R116). -/
theorem add16_spec (a b : Word) (cin : Bool) :
    (add16 a b cin).r = a + b + BitVec.ofNat 16 cin.toNat ∧
    (add16 a b cin).c = decide (65536 ≤ a.toNat + b.toNat + cin.toNat) ∧
    (add16 a b cin).v = decide (a.toInt + b.toInt + cin.toNat < -32768 ∨ 32767 < a.toInt + b.toInt + cin.toNat) := by
  have ha := a.isLt
  have hb := b.isLt
  have hc : cin.toNat ≤ 1 := by cases cin <;> decide
  refine ⟨?_, ?_, ?_⟩
  · apply BitVec.eq_of_toNat_eq
    simp only [add16, BitVec.toNat_ofNat, BitVec.toNat_add]
    omega
  · simp only [add16, Nat.testBit_eq_decide_div_mod_eq, decide_eq_decide]
    omega
  · simp only [add16, BitVec.toInt_eq_toNat_cond, BitVec.msb_eq_decide, BitVec.toNat_ofNat]
    rw [Bool.eq_iff_iff]
    simp only [Bool.and_eq_true, beq_iff_eq, decide_eq_decide, bne_iff_ne, ne_eq, decide_eq_true_eq]
    split <;> split <;> omega

theorem arithOp_eq_next {adc ad1 cm1 cld : Bool} {sr : Src} {dr : Dst} {s t : State} :
    arithOp adc ad1 cm1 cld sr dr s = .next t ↔ (adc && ad1) = false ∧ ∃ r, destination dr = .next r ∧
      t = (s.advance.setReg r (add16 (destOperand cld r s) (sourceOperand cm1 sr s) (carryIn adc ad1 s)).r).setAddFlags
        (add16 (destOperand cld r s) (sourceOperand cm1 sr s) (carryIn adc ad1 s)).c
        (add16 (destOperand cld r s) (sourceOperand cm1 sr s) (carryIn adc ad1 s)).v := by
  simp only [arithOp, andThen_eq_next]
  by_cases h : (adc && ad1) = true
  · simp [h]
  · simp [h, eq_comm (a := t)]

/-! ### Register operations, skips, bits, shifts -/

theorem logicOp_eq_next {f : Word → Word → Word} {cm1 cld : Bool} {sr : Src} {dr : Dst} {s t : State} :
    logicOp f cm1 cld sr dr s = .next t ↔ ∃ r, destination dr = .next r ∧
      t = s.advance.setReg r (f (destOperand cld r s) (sourceOperand cm1 sr s)) := by
  simp only [logicOp, andThen_eq_next, Host.Outcome.next.injEq, eq_comm (a := t)]

theorem swapOp_eq_next {cm1 cld : Bool} {sr : Src} {dr : Dst} {s t : State} :
    swapOp cm1 cld sr dr s = .next t ↔ ∃ r, destination dr = .next r ∧
      t = (match sourceReg sr with
        | none => s.advance
        | some q => s.advance.setReg q (destOperand cld r s)).setReg r (sourceOperand cm1 sr s) := by
  simp only [swapOp, andThen_eq_next]
  constructor
  · rintro ⟨r, hr, h⟩
    exact ⟨r, hr, (Host.Outcome.next.inj h).symm⟩
  · rintro ⟨r, hr, rfl⟩
    exact ⟨r, hr, rfl⟩

theorem skipOn_eq_next {rel : Word → Word → Bool} {sr : Src} {dr : Dst} {s t : State} :
    skipOn rel sr dr s = .next t ↔ ∃ r, destination dr = .next r ∧ t = s.skipIf (rel (s.reg r) (sourceValue sr s)) := by
  simp only [skipOn, andThen_eq_next, Host.Outcome.next.injEq, eq_comm (a := t)]

theorem writeBit_eq_next {n : Fin 16} {r : Reg} {b : Bool} {s t : State} :
    writeBit n r b s = .next t ↔ bitDefined n r = true ∧ t = s.advance.setReg r (putBitOf (s.reg r) n b) := putBit_eq_next

theorem storeBit_eq_next {n : Fin 16} {r : Reg} {b k : Bool} {s t : State} :
    storeBit n r b k s = .next t ↔
      bitDefined n r = true ∧ t = (s.advance.setReg r (putBitOf (s.reg r) n b)).setFlag .k k := by
  simp only [storeBit, andThen_eq_next, writeBit_eq_next]
  constructor
  · rintro ⟨_, ⟨h, rfl⟩, h'⟩
    exact ⟨h, by simpa using h'.symm⟩
  · rintro ⟨h, rfl⟩
    exact ⟨_, ⟨h, rfl⟩, rfl⟩

theorem combineK_eq_next {f : Bool → Bool → Bool} {n : Fin 16} {r : Reg} {s t : State} :
    combineK f n r s = .next t ↔
      bitDefined n r = true ∧ t = s.advance.setFlag .k (f (s.flag .k) ((s.reg r).getLsbD n.val)) := by
  simp only [combineK, andThen_eq_next, getBit_eq_next]
  constructor
  · rintro ⟨_, ⟨h, rfl⟩, h'⟩
    exact ⟨h, by simpa using h'.symm⟩
  · rintro ⟨h, rfl⟩
    exact ⟨_, ⟨h, rfl⟩, rfl⟩

/-- A shift answers unless LIN_MULTI refuses it. -/
theorem shifted_eq_next {w : Nat} {s : State} {kind : ShiftKind} {count : BitVec 6} {v : BitVec w} {out : BitVec w × Bool} :
    shifted s kind count v = .next out ↔ linRefused kind count s = false ∧
      out = shiftPlaces s.params.linMulti (decide (0 < count.toInt)) kind (s.flag .m) count.toInt.natAbs v (s.flag .m) := by
  unfold shifted
  split
  next h => simp [h]
  next h => simp [h, eq_comm (a := out)]

theorem shiftReg_eq_next {r : Reg} {kind : ShiftKind} {count : BitVec 6} {s t : State} :
    shiftReg r kind count s = .next t ↔ (count = 0 ∧ t = s.advance) ∨
      (count ≠ 0 ∧ ∃ out, shifted s kind count (s.reg r) = .next out ∧ t = (s.advance.setReg r out.1).setFlag .m out.2) := by
  unfold shiftReg
  split
  next h => simp [h, eq_comm (a := t)]
  next h => simp only [h, andThen_eq_next, Host.Outcome.next.injEq, eq_comm (a := t), false_and, false_or, not_false_eq_true,
      ne_eq, true_and]

/-! ### Register blocks and division -/

theorem blockAddress_eq_next {n : Fin 16} {s : State} {el : Word} :
    blockAddress n s = .next el ↔ blockRefused n s = false ∧ el = s.reg .x := by
  unfold blockAddress
  split
  next h => simp [h]
  next h => simp [h, eq_comm (a := el)]

/-- RDIV answers the exact quotient and remainder, where the divisor is not zero and the quotient fits. -/
theorem quotientRemainder_eq_next {n : BitVec 32} {d : Word} {qr : Word × Word} :
    quotientRemainder n d = .next qr ↔ d ≠ 0 ∧ overflows16 (Int.tdiv n.toInt d.toInt) = false ∧
      qr = (BitVec.ofInt 16 (Int.tdiv n.toInt d.toInt),
        BitVec.ofInt 16 (n.toInt - Int.tdiv n.toInt d.toInt * d.toInt)) := by
  unfold quotientRemainder
  by_cases hd : d = 0
  · simp [hd]
  · have hd' : ¬d = 0#16 := hd
    cases ho : overflows16 (Int.tdiv n.toInt d.toInt) <;> simp [hd', ho, eq_comm (a := qr)]

/-! ### Jumps -/

theorem condJump_p (c : Bool) (disp : BitVec 8) (s : State) :
    (condJump c disp s).reg .p = if c then s.reg .p + signed8 disp else s.reg .p + 1 := by
  cases c <;> simp [condJump, jumpTarget]

theorem condJump_reg (c : Bool) (disp : BitVec 8) (s : State) {r : Reg} (h : r ≠ .p) : (condJump c disp s).reg r = s.reg r := by
  cases c <;> simp [condJump, h]

end Sys2Proof.Machine
end

