-- ==== Sys2Proof/Laws/PerInstr.lean ====
section
/-! SUPPORT. For every constructor of Instr, one lemma: the word the encoder writes lies in the instruction's row of
spec/opcode_table.json (its bits under the row's mask are the row's match). -/

namespace Sys2Proof.Laws

/-- Mask and match of the instruction's row of spec/opcode_table.json. -/
def rowOf : Instr → Word × Word
  | .stz _ => (0o174000, 0o000000)
  | .sta _ => (0o174000, 0o004000)
  | .stt _ => (0o174000, 0o010000)
  | .stx _ => (0o174000, 0o014000)
  | .std _ => (0o174000, 0o020000)
  | .ldd _ => (0o174000, 0o024000)
  | .stf _ => (0o174000, 0o030000)
  | .ldf _ => (0o174000, 0o034000)
  | .min _ => (0o174000, 0o040000)
  | .lda _ => (0o174000, 0o044000)
  | .ldt _ => (0o174000, 0o050000)
  | .ldx _ => (0o174000, 0o054000)
  | .add _ => (0o174000, 0o060000)
  | .sub _ => (0o174000, 0o064000)
  | .and _ => (0o174000, 0o070000)
  | .ora _ => (0o174000, 0o074000)
  | .fad _ => (0o174000, 0o100000)
  | .fsb _ => (0o174000, 0o104000)
  | .fmu _ => (0o174000, 0o110000)
  | .fdv _ => (0o174000, 0o114000)
  | .mpy _ => (0o174000, 0o120000)
  | .jmp _ => (0o174000, 0o124000)
  | .jpl _ => (0o174000, 0o134000)
  | .jap _ => (0o177400, 0o130000)
  | .jan _ => (0o177400, 0o130400)
  | .jaz _ => (0o177400, 0o131000)
  | .jaf _ => (0o177400, 0o131400)
  | .jpc _ => (0o177400, 0o132000)
  | .jnc _ => (0o177400, 0o132400)
  | .jxn _ => (0o177400, 0o133400)
  | .skpEql _ _ => (0o177700, 0o140000)
  | .skpGre _ _ => (0o177700, 0o141000)
  | .skpMgre _ _ => (0o177700, 0o141400)
  | .skpUeq _ _ => (0o177700, 0o142000)
  | .skpLst _ _ => (0o177700, 0o143000)
  | .skpMlst _ _ => (0o177700, 0o143400)
  | .rmpy _ _ => (0o177700, 0o141200)
  | .rdiv _ => (0o177707, 0o141600)
  | .lbyt => (0o177777, 0o142200)
  | .sbyt => (0o177777, 0o142600)
  | .radd _ _ _ _ _ _ => (0o176000, 0o146000)
  | .rsub _ _ => (0o177700, 0o146600)
  | .copy _ _ => (0o177700, 0o146100)
  | .ad1 _ _ => (0o176400, 0o146400)
  | .adc _ _ => (0o177000, 0o147000)
  | .cld _ _ => (0o174100, 0o144100)
  | .cm1 _ _ => (0o174200, 0o144200)
  | .swap _ _ _ _ => (0o177400, 0o144000)
  | .rand _ _ _ _ => (0o177400, 0o144400)
  | .rexo _ _ _ _ => (0o177400, 0o145000)
  | .rora _ _ _ _ => (0o177400, 0o145400)
  | .exit => (0o177777, 0o146142)
  | .rclr _ => (0o177770, 0o146100)
  | .rinc _ => (0o177770, 0o146400)
  | .rcdr _ => (0o177770, 0o146200)
  | .tra _ => (0o177760, 0o150000)
  | .trr _ => (0o177760, 0o150100)
  | .nlz _ => (0o177400, 0o151400)
  | .dnz _ => (0o177400, 0o152000)
  | .srb _ => (0o177607, 0o152402)
  | .lrb _ => (0o177607, 0o152600)
  | .sht _ _ => (0o174700, 0o154000)
  | .shd _ _ => (0o174700, 0o154200)
  | .sha _ _ => (0o174700, 0o154400)
  | .sad _ _ => (0o174700, 0o154600)
  | .sab _ => (0o177400, 0o170000)
  | .saa _ => (0o177400, 0o170400)
  | .sat _ => (0o177400, 0o171000)
  | .sax _ => (0o177400, 0o171400)
  | .aab _ => (0o177400, 0o172000)
  | .aaa _ => (0o177400, 0o172400)
  | .aat _ => (0o177400, 0o173000)
  | .aax _ => (0o177400, 0o173400)
  | .bset _ _ _ => (0o177000, 0o174000)
  | .bskp _ _ _ => (0o177000, 0o175000)
  | .bstc _ _ => (0o177600, 0o176000)
  | .bsta _ _ => (0o177600, 0o176200)
  | .bldc _ _ => (0o177600, 0o176400)
  | .blda _ _ => (0o177600, 0o176600)
  | .banc _ _ => (0o177600, 0o177000)
  | .band _ _ => (0o177600, 0o177200)
  | .borc _ _ => (0o177600, 0o177400)
  | .bora _ _ => (0o177600, 0o177600)

/-- The word lies in the instruction's row of the opcode table. -/
def EncodesRow.Statement (i : Instr) : Prop := encode i &&& (rowOf i).1 = (rowOf i).2

/-! ### The operand fields lie outside the fixed bits -/

theorem encMem_fixed (m : MemRef) : encMem m &&& 0o174000 = 0 := by
  obtain ⟨x, i, b, d⟩ := m
  cases x <;> cases i <;> cases b <;> revert d <;> decide

theorem placed8_fixed : ∀ d : BitVec 8, placed 0 d &&& 0o177400 = 0 := by decide

theorem encSrcDst_fixed (sr : Src) (dr : Dst) : encSrcDst sr dr &&& 0o177700 = 0 := by
  cases sr <;> cases dr <;> rfl

theorem encBit_fixed (n : Fin 16) (r : Reg) : encBit n r &&& 0o177600 = 0 := by
  cases r <;> revert n <;> decide

theorem encShift_fixed (k : ShiftKind) (n : BitVec 6) : encShift k n &&& 0o174700 = 0 := by
  cases k <;> revert n <;> decide

/-- A code with its operand fields joined, under a mask that the fields lie outside of. -/
theorem joined {code field mask : Word} (h : field &&& mask = 0) : (code ||| field) &&& mask = code &&& mask := by
  rw [BitVec.and_comm, BitVec.and_or_distrib_left, BitVec.and_comm mask field, h, BitVec.and_comm mask code]
  exact BitVec.or_zero

/-! ### One lemma per constructor -/

theorem EncodesRow.stz (m : MemRef) : EncodesRow.Statement (.stz m) := joined (encMem_fixed m)
theorem EncodesRow.sta (m : MemRef) : EncodesRow.Statement (.sta m) := joined (encMem_fixed m)
theorem EncodesRow.stt (m : MemRef) : EncodesRow.Statement (.stt m) := joined (encMem_fixed m)
theorem EncodesRow.stx (m : MemRef) : EncodesRow.Statement (.stx m) := joined (encMem_fixed m)
theorem EncodesRow.std (m : MemRef) : EncodesRow.Statement (.std m) := joined (encMem_fixed m)
theorem EncodesRow.ldd (m : MemRef) : EncodesRow.Statement (.ldd m) := joined (encMem_fixed m)
theorem EncodesRow.stf (m : MemRef) : EncodesRow.Statement (.stf m) := joined (encMem_fixed m)
theorem EncodesRow.ldf (m : MemRef) : EncodesRow.Statement (.ldf m) := joined (encMem_fixed m)
theorem EncodesRow.min (m : MemRef) : EncodesRow.Statement (.min m) := joined (encMem_fixed m)
theorem EncodesRow.lda (m : MemRef) : EncodesRow.Statement (.lda m) := joined (encMem_fixed m)
theorem EncodesRow.ldt (m : MemRef) : EncodesRow.Statement (.ldt m) := joined (encMem_fixed m)
theorem EncodesRow.ldx (m : MemRef) : EncodesRow.Statement (.ldx m) := joined (encMem_fixed m)
theorem EncodesRow.add (m : MemRef) : EncodesRow.Statement (.add m) := joined (encMem_fixed m)
theorem EncodesRow.sub (m : MemRef) : EncodesRow.Statement (.sub m) := joined (encMem_fixed m)
theorem EncodesRow.and (m : MemRef) : EncodesRow.Statement (.and m) := joined (encMem_fixed m)
theorem EncodesRow.ora (m : MemRef) : EncodesRow.Statement (.ora m) := joined (encMem_fixed m)
theorem EncodesRow.fad (m : MemRef) : EncodesRow.Statement (.fad m) := joined (encMem_fixed m)
theorem EncodesRow.fsb (m : MemRef) : EncodesRow.Statement (.fsb m) := joined (encMem_fixed m)
theorem EncodesRow.fmu (m : MemRef) : EncodesRow.Statement (.fmu m) := joined (encMem_fixed m)
theorem EncodesRow.fdv (m : MemRef) : EncodesRow.Statement (.fdv m) := joined (encMem_fixed m)
theorem EncodesRow.mpy (m : MemRef) : EncodesRow.Statement (.mpy m) := joined (encMem_fixed m)
theorem EncodesRow.jmp (m : MemRef) : EncodesRow.Statement (.jmp m) := joined (encMem_fixed m)
theorem EncodesRow.jpl (m : MemRef) : EncodesRow.Statement (.jpl m) := joined (encMem_fixed m)
theorem EncodesRow.jap (disp : BitVec 8) : EncodesRow.Statement (.jap disp) := joined (placed8_fixed disp)
theorem EncodesRow.jan (disp : BitVec 8) : EncodesRow.Statement (.jan disp) := joined (placed8_fixed disp)
theorem EncodesRow.jaz (disp : BitVec 8) : EncodesRow.Statement (.jaz disp) := joined (placed8_fixed disp)
theorem EncodesRow.jaf (disp : BitVec 8) : EncodesRow.Statement (.jaf disp) := joined (placed8_fixed disp)
theorem EncodesRow.jpc (disp : BitVec 8) : EncodesRow.Statement (.jpc disp) := joined (placed8_fixed disp)
theorem EncodesRow.jnc (disp : BitVec 8) : EncodesRow.Statement (.jnc disp) := joined (placed8_fixed disp)
theorem EncodesRow.jxn (disp : BitVec 8) : EncodesRow.Statement (.jxn disp) := joined (placed8_fixed disp)
theorem EncodesRow.skpEql (sr : Src) (dr : Dst) : EncodesRow.Statement (.skpEql sr dr) := joined (encSrcDst_fixed sr dr)
theorem EncodesRow.skpGre (sr : Src) (dr : Dst) : EncodesRow.Statement (.skpGre sr dr) := joined (encSrcDst_fixed sr dr)
theorem EncodesRow.skpMgre (sr : Src) (dr : Dst) : EncodesRow.Statement (.skpMgre sr dr) := joined (encSrcDst_fixed sr dr)
theorem EncodesRow.skpUeq (sr : Src) (dr : Dst) : EncodesRow.Statement (.skpUeq sr dr) := joined (encSrcDst_fixed sr dr)
theorem EncodesRow.skpLst (sr : Src) (dr : Dst) : EncodesRow.Statement (.skpLst sr dr) := joined (encSrcDst_fixed sr dr)
theorem EncodesRow.skpMlst (sr : Src) (dr : Dst) : EncodesRow.Statement (.skpMlst sr dr) := joined (encSrcDst_fixed sr dr)
theorem EncodesRow.rmpy (sr : Src) (dr : Dst) : EncodesRow.Statement (.rmpy sr dr) := joined (encSrcDst_fixed sr dr)
theorem EncodesRow.rdiv (sr : Src) : EncodesRow.Statement (.rdiv sr) := by cases sr <;> rfl
theorem EncodesRow.lbyt : EncodesRow.Statement (.lbyt) := rfl
theorem EncodesRow.sbyt : EncodesRow.Statement (.sbyt) := rfl
theorem EncodesRow.radd (adc ad1 cm1 cld : Bool) (sr : Src) (dr : Dst) : EncodesRow.Statement (.radd adc ad1 cm1 cld sr dr) := by cases adc <;> cases ad1 <;> cases cm1 <;> cases cld <;> cases sr <;> cases dr <;> rfl
theorem EncodesRow.rsub (sr : Src) (dr : Dst) : EncodesRow.Statement (.rsub sr dr) := joined (encSrcDst_fixed sr dr)
theorem EncodesRow.copy (sr : Src) (dr : Dst) : EncodesRow.Statement (.copy sr dr) := joined (encSrcDst_fixed sr dr)
theorem EncodesRow.ad1 (sr : Src) (dr : Dst) : EncodesRow.Statement (.ad1 sr dr) := by cases sr <;> cases dr <;> rfl
theorem EncodesRow.adc (sr : Src) (dr : Dst) : EncodesRow.Statement (.adc sr dr) := by cases sr <;> cases dr <;> rfl
theorem EncodesRow.cld (sr : Src) (dr : Dst) : EncodesRow.Statement (.cld sr dr) := by cases sr <;> cases dr <;> rfl
theorem EncodesRow.cm1 (sr : Src) (dr : Dst) : EncodesRow.Statement (.cm1 sr dr) := by cases sr <;> cases dr <;> rfl
theorem EncodesRow.swap (cm1 cld : Bool) (sr : Src) (dr : Dst) : EncodesRow.Statement (.swap cm1 cld sr dr) := by cases cm1 <;> cases cld <;> cases sr <;> cases dr <;> rfl
theorem EncodesRow.rand (cm1 cld : Bool) (sr : Src) (dr : Dst) : EncodesRow.Statement (.rand cm1 cld sr dr) := by cases cm1 <;> cases cld <;> cases sr <;> cases dr <;> rfl
theorem EncodesRow.rexo (cm1 cld : Bool) (sr : Src) (dr : Dst) : EncodesRow.Statement (.rexo cm1 cld sr dr) := by cases cm1 <;> cases cld <;> cases sr <;> cases dr <;> rfl
theorem EncodesRow.rora (cm1 cld : Bool) (sr : Src) (dr : Dst) : EncodesRow.Statement (.rora cm1 cld sr dr) := by cases cm1 <;> cases cld <;> cases sr <;> cases dr <;> rfl
theorem EncodesRow.exit : EncodesRow.Statement (.exit) := rfl
theorem EncodesRow.rclr (dr : Dst) : EncodesRow.Statement (.rclr dr) := by cases dr <;> rfl
theorem EncodesRow.rinc (dr : Dst) : EncodesRow.Statement (.rinc dr) := by cases dr <;> rfl
theorem EncodesRow.rcdr (dr : Dst) : EncodesRow.Statement (.rcdr dr) := by cases dr <;> rfl
theorem EncodesRow.tra (r : Fin 16) : EncodesRow.Statement (.tra r) := by revert r; unfold EncodesRow.Statement; decide
theorem EncodesRow.trr (r : Fin 16) : EncodesRow.Statement (.trr r) := by revert r; unfold EncodesRow.Statement; decide
theorem EncodesRow.nlz (scaling : BitVec 8) : EncodesRow.Statement (.nlz scaling) := joined (placed8_fixed scaling)
theorem EncodesRow.dnz (scaling : BitVec 8) : EncodesRow.Statement (.dnz scaling) := joined (placed8_fixed scaling)
theorem EncodesRow.srb (level : Fin 16) : EncodesRow.Statement (.srb level) := by revert level; unfold EncodesRow.Statement; decide
theorem EncodesRow.lrb (level : Fin 16) : EncodesRow.Statement (.lrb level) := by revert level; unfold EncodesRow.Statement; decide
theorem EncodesRow.sht (kind : ShiftKind) (count : BitVec 6) : EncodesRow.Statement (.sht kind count) := joined (encShift_fixed kind count)
theorem EncodesRow.shd (kind : ShiftKind) (count : BitVec 6) : EncodesRow.Statement (.shd kind count) := joined (encShift_fixed kind count)
theorem EncodesRow.sha (kind : ShiftKind) (count : BitVec 6) : EncodesRow.Statement (.sha kind count) := joined (encShift_fixed kind count)
theorem EncodesRow.sad (kind : ShiftKind) (count : BitVec 6) : EncodesRow.Statement (.sad kind count) := joined (encShift_fixed kind count)
theorem EncodesRow.sab (arg : BitVec 8) : EncodesRow.Statement (.sab arg) := joined (placed8_fixed arg)
theorem EncodesRow.saa (arg : BitVec 8) : EncodesRow.Statement (.saa arg) := joined (placed8_fixed arg)
theorem EncodesRow.sat (arg : BitVec 8) : EncodesRow.Statement (.sat arg) := joined (placed8_fixed arg)
theorem EncodesRow.sax (arg : BitVec 8) : EncodesRow.Statement (.sax arg) := joined (placed8_fixed arg)
theorem EncodesRow.aab (arg : BitVec 8) : EncodesRow.Statement (.aab arg) := joined (placed8_fixed arg)
theorem EncodesRow.aaa (arg : BitVec 8) : EncodesRow.Statement (.aaa arg) := joined (placed8_fixed arg)
theorem EncodesRow.aat (arg : BitVec 8) : EncodesRow.Statement (.aat arg) := joined (placed8_fixed arg)
theorem EncodesRow.aax (arg : BitVec 8) : EncodesRow.Statement (.aax arg) := joined (placed8_fixed arg)
theorem EncodesRow.bset (cond : BitCond) (bitno : Fin 16) (reg : Reg) : EncodesRow.Statement (.bset cond bitno reg) := by cases cond <;> cases reg <;> revert bitno <;> unfold EncodesRow.Statement <;> decide
theorem EncodesRow.bskp (cond : BitCond) (bitno : Fin 16) (reg : Reg) : EncodesRow.Statement (.bskp cond bitno reg) := by cases cond <;> cases reg <;> revert bitno <;> unfold EncodesRow.Statement <;> decide
theorem EncodesRow.bstc (bitno : Fin 16) (reg : Reg) : EncodesRow.Statement (.bstc bitno reg) := joined (encBit_fixed bitno reg)
theorem EncodesRow.bsta (bitno : Fin 16) (reg : Reg) : EncodesRow.Statement (.bsta bitno reg) := joined (encBit_fixed bitno reg)
theorem EncodesRow.bldc (bitno : Fin 16) (reg : Reg) : EncodesRow.Statement (.bldc bitno reg) := joined (encBit_fixed bitno reg)
theorem EncodesRow.blda (bitno : Fin 16) (reg : Reg) : EncodesRow.Statement (.blda bitno reg) := joined (encBit_fixed bitno reg)
theorem EncodesRow.banc (bitno : Fin 16) (reg : Reg) : EncodesRow.Statement (.banc bitno reg) := joined (encBit_fixed bitno reg)
theorem EncodesRow.band (bitno : Fin 16) (reg : Reg) : EncodesRow.Statement (.band bitno reg) := joined (encBit_fixed bitno reg)
theorem EncodesRow.borc (bitno : Fin 16) (reg : Reg) : EncodesRow.Statement (.borc bitno reg) := joined (encBit_fixed bitno reg)
theorem EncodesRow.bora (bitno : Fin 16) (reg : Reg) : EncodesRow.Statement (.bora bitno reg) := joined (encBit_fixed bitno reg)

end Sys2Proof.Laws
end

