-- ==== Sys2Proof/Tests/Slice0.lean ====
section
/-! SUPPORT. Tests with expected results from the spec (worked examples of the rules, spec/95_test_vectors.md, or words put together by
hand from the encoding tables), and a witness for the hypotheses of every obligation that has any. All numbers octal. -/

open Sys2Proof Sys2Proof.Machine

namespace Sys2Proof.Tests

/-! ### Helpers -/

/-- The state after reset with these registers of level 0 and these memory words. -/
def given (regs : List (Reg × Word)) (mem : List (Word × Word)) : State :=
  mem.foldl (fun s c => s.putWord c.1 c.2) (regs.foldl (fun s c => s.setReg c.1 c.2) State.reset)

/-- One step of the word `w` at 000100 gives a next state with the property. -/
def runs (w : Word) (regs : List (Reg × Word)) (mem : List (Word × Word)) (p : State → Bool) : Bool :=
  match step (given ((.p, 0o100) :: regs) ((0o100, w) :: mem)) with
  | .next t => p t
  | _ => false

/-- The state holds these register values. -/
def has (t : State) (regs : List (Reg × Word)) : Bool := regs.all fun c => t.reg c.1 == c.2

/-- Every word decodes to the instruction beside it, and the instruction's word is that word. -/
def reads (rows : List (Word × Instr)) : Bool :=
  rows.all fun c => decide (decodeTableWord 16 c.1.toNat = some c.2) && decide (encode c.2 = c.1)

/-- No word of the list decodes. -/
def unreadable (ws : List Word) : Bool := ws.all fun w => decide (decodeTableWord 16 w.toNat = none)

/-! ### Well-formedness: an ill-formed term for each check (log 17) -/

theorem test_refuses_radd_that_is_copy : (Instr.radd false false false true .a .x).wellFormed = false := by decide
theorem test_refuses_radd_that_is_ad1 : (Instr.radd false true false false .a .x).wellFormed = false := by decide
theorem test_refuses_radd_that_is_rsub : (Instr.radd false true true false .a .x).wellFormed = false := by decide
theorem test_refuses_radd_that_is_rcdr : (Instr.radd false false true false .zero .x).wellFormed = false := by decide
theorem test_refuses_radd_that_is_adc : (Instr.radd true false false false .a .x).wellFormed = false := by decide
theorem test_refuses_copy_that_is_rclr : (Instr.copy .zero .x).wellFormed = false := by decide
theorem test_refuses_copy_that_is_exit : (Instr.copy .l .p).wellFormed = false := by decide
theorem test_refuses_ad1_that_is_rinc : (Instr.ad1 .zero .x).wellFormed = false := by decide
theorem test_refuses_rinc_without_destination : (Instr.rinc .undef).wellFormed = false := by decide
theorem test_refuses_swap_that_is_cm1 : (Instr.swap true false .a .x).wellFormed = false := by decide
theorem test_refuses_swap_that_is_cld : (Instr.swap false true .a .x).wellFormed = false := by decide

/-! ### Decoding: one word of every constructor, written out from the encoding tables R60 to R70 -/

theorem test_decode_stores : reads
    [(0o002002, .stz ⟨true, false, false, 0o2⟩), (0o004777, .sta ⟨false, false, true, 0o377⟩),
      (0o010005, .stt ⟨false, false, false, 0o5⟩), (0o016000, .stx ⟨true, false, false, 0o0⟩),
      (0o020400, .std ⟨false, false, true, 0o0⟩), (0o031001, .stf ⟨false, true, false, 0o1⟩),
      (0o040100, .min ⟨false, false, false, 0o100⟩)] = true := by decide

theorem test_decode_loads : reads
    [(0o047403, .lda ⟨true, true, true, 0o3⟩), (0o050404, .ldt ⟨false, false, true, 0o4⟩),
      (0o056000, .ldx ⟨true, false, false, 0o0⟩), (0o024400, .ldd ⟨false, false, true, 0o0⟩),
      (0o034200, .ldf ⟨false, false, false, 0o200⟩)] = true := by decide

theorem test_decode_arithmetic : reads
    [(0o060002, .add ⟨false, false, false, 0o2⟩), (0o065005, .sub ⟨false, true, false, 0o5⟩),
      (0o070407, .and ⟨false, false, true, 0o7⟩), (0o076776, .ora ⟨true, false, true, 0o376⟩),
      (0o123000, .mpy ⟨true, true, false, 0o0⟩)] = true := by decide

theorem test_decode_floating : reads
    [(0o100400, .fad ⟨false, false, true, 0o0⟩), (0o104001, .fsb ⟨false, false, false, 0o1⟩),
      (0o110377, .fmu ⟨false, false, false, 0o377⟩), (0o116000, .fdv ⟨true, false, false, 0o0⟩),
      (0o151420, .nlz 0o20), (0o152360, .dnz 0o360)] = true := by decide

theorem test_decode_jumps : reads
    [(0o125005, .jmp ⟨false, true, false, 0o5⟩), (0o134010, .jpl ⟨false, false, false, 0o10⟩), (0o130003, .jap 0o3),
      (0o130777, .jan 0o377), (0o131002, .jaz 0o2), (0o131774, .jaf 0o374), (0o132376, .jpc 0o376), (0o132775, .jnc 0o375),
      (0o133405, .jxn 0o5)] = true := by decide

theorem test_decode_skips : reads
    [(0o140075, .skpEql .x .a), (0o141005, .skpGre .zero .a), (0o141413, .skpMgre .d .b), (0o142007, .skpUeq .zero .x),
      (0o143065, .skpLst .t .a), (0o143465, .skpMlst .t .a)] = true := by decide

theorem test_decode_extended : reads
    [(0o141265, .rmpy .t .a), (0o141660, .rdiv .t), (0o142200, .lbyt), (0o142600, .sbyt)] = true := by decide

theorem test_decode_arithmetic_register_operations : reads
    [(0o146015, .radd false false false false .d .a), (0o147257, .radd true false true false .a .x), (0o146665, .rsub .t .a),
      (0o146145, .copy .l .a), (0o146457, .ad1 .a .x), (0o147061, .adc .t .d), (0o146142, .exit), (0o146105, .rclr .a),
      (0o146407, .rinc .x), (0o146207, .rcdr .x)] = true := by decide

theorem test_decode_logical_register_operations : reads
    [(0o144115, .cld .d .a), (0o144215, .cm1 .d .a), (0o144051, .swap false false .a .d), (0o144351, .swap true true .a .d),
      (0o144557, .rand false true .a .x), (0o145075, .rexo false false .x .a), (0o145673, .rora true false .x .b)] = true := by
  decide

theorem test_decode_transfer_and_block : reads
    [(0o150012, .tra 0o12), (0o150101, .trr 0o1), (0o152432, .srb 3), (0o152770, .lrb 15)] = true := by decide

theorem test_decode_shifts : reads
    [(0o156074, .sht .zin 0o74), (0o155201, .shd .rot 0o1), (0o154477, .sha .arith 0o77), (0o157602, .sad .lin 0o2)] = true := by
  decide

theorem test_decode_arguments : reads
    [(0o170100, .sab 0o100), (0o170777, .saa 0o377), (0o171000, .sat 0o0), (0o171770, .sax 0o370), (0o172200, .aab 0o200),
      (0o172775, .aaa 0o375), (0o173002, .aat 0o2), (0o173401, .aax 0o1)] = true := by decide

theorem test_decode_bits : reads
    [(0o174375, .bset .one 15 .a), (0o175060, .bskp .zro 6 .sts), (0o176037, .bstc 3 .x), (0o176216, .bsta 1 .t),
      (0o176420, .bldc 2 .sts), (0o176775, .blda 15 .a), (0o177041, .banc 4 .d), (0o177226, .band 2 .t),
      (0o177552, .borc 13 .p), (0o177605, .bora 0 .a)] = true := by decide

/-- The first and the last word of every line of R80's table, and of what lies between its exceptions. -/
theorem test_unassigned_words : unreadable
    [0o160000, 0o167777, 0o133000, 0o133377, 0o140400, 0o140477, 0o142400, 0o142477, 0o140100, 0o143777, 0o141177, 0o141601,
      0o142201, 0o142677, 0o150020, 0o150077, 0o150120, 0o151377, 0o152400, 0o152777, 0o153000, 0o153777, 0o154100,
      0o157777] = true := by decide

/-! ### One step of the instructions, from the examples of their rules -/

theorem test_stz : runs 0o002002 [(.x, 0o1000)] [(0o1002, 0o7)] (fun t => t.wordAt 0o1002 == 0) = true := by decide
theorem test_sta : runs 0o004777 [(.b, 0o2000), (.a, 0o123456)] [] (fun t => t.wordAt 0o1777 == 0o123456) = true := by decide
theorem test_stt : runs 0o010005 [(.t, 0o7)] [] (fun t => t.wordAt 0o105 == 0o7) = true := by decide
theorem test_stx : runs 0o016000 [(.x, 0o10)] [] (fun t => t.wordAt 0o10 == 0o10) = true := by decide
theorem test_std_wraps : runs 0o020400 [(.b, 0o177777), (.a, 0o1), (.d, 0o2)] []
    (fun t => t.wordAt 0o177777 == 0o1 && t.wordAt 0 == 0o2) = true := by decide
theorem test_stf : runs 0o030400 [(.b, 0o4000), (.t, 0o40001), (.a, 0o100000)] [(0o4002, 0o5)]
    (fun t => t.wordAt 0o4000 == 0o40001 && t.wordAt 0o4001 == 0o100000 && t.wordAt 0o4002 == 0) = true := by decide
theorem test_min_skips : runs 0o040100 [] [(0o200, 0o177777)] (fun t => t.wordAt 0o200 == 0 && has t [(.p, 0o102)]) = true := by
  decide
theorem test_min_goes_on : runs 0o040100 [] [(0o200, 0o5)] (fun t => t.wordAt 0o200 == 0o6 && has t [(.p, 0o101)]) = true := by
  decide
theorem test_lda : runs 0o047403 [(.b, 0o1000), (.x, 0o2)] [(0o1003, 0o4000), (0o4002, 0o321)]
    (fun t => has t [(.a, 0o321), (.p, 0o101)]) = true := by decide
theorem test_ldt : runs 0o050404 [(.b, 0o1000)] [(0o1004, 0o177770)] (fun t => has t [(.t, 0o177770)]) = true := by decide
theorem test_ldx_indexes_by_the_old_x : runs 0o056000 [(.x, 0o500)] [(0o500, 0o620)] (fun t => has t [(.x, 0o620)]) = true := by
  decide
theorem test_ldd : runs 0o024400 [(.b, 0o3000)] [(0o3000, 0o177777), (0o3001, 0o1)]
    (fun t => has t [(.a, 0o177777), (.d, 0o1)]) = true := by decide
theorem test_ldf : runs 0o034400 [(.b, 0o4000)] [(0o4000, 0o40001), (0o4001, 0o100000), (0o4002, 0o3)]
    (fun t => has t [(.t, 0o40001), (.a, 0o100000), (.d, 0o3)]) = true := by decide
theorem test_add_overflows : runs 0o060002 [(.a, 0o77777)] [(0o102, 0o1)]
    (fun t => has t [(.a, 0o100000)] && !t.flag .c && t.flag .q && t.flag .o) = true := by decide
theorem test_sub_borrows : runs 0o064002 [(.a, 0o5)] [(0o102, 0o7)]
    (fun t => has t [(.a, 0o177776)] && !t.flag .c && !t.flag .q) = true := by decide
theorem test_and : runs 0o070002 [(.a, 0o123456)] [(0o102, 0o377)] (fun t => has t [(.a, 0o56)]) = true := by decide
theorem test_ora : runs 0o074002 [(.a, 0o120000)] [(0o102, 0o377)] (fun t => has t [(.a, 0o120377)]) = true := by decide
theorem test_mpy_overflows : runs 0o120002 [(.a, 0o177777)] [(0o102, 0o100000)]
    (fun t => has t [(.a, 0o100000)] && t.flag .q && t.flag .o) = true := by decide
theorem test_lbyt : runs 0o142200 [(.t, 0o2000), (.x, 0o3)] [(0o2001, 0o40502)] (fun t => has t [(.a, 0o102)]) = true := by decide
theorem test_sbyt : runs 0o142600 [(.t, 0o2000), (.x, 0o2), (.a, 0o177503)] [(0o2001, 0o40502)]
    (fun t => t.wordAt 0o2001 == 0o41502) = true := by decide
theorem test_lrb : runs 0o152630 [(.x, 0o4000)]
    [(0o4000, 0o100), (0o4001, 0o1), (0o4002, 0o2), (0o4003, 0o3), (0o4004, 0o4), (0o4005, 0o5), (0o4006, 0o100), (0o4007, 0o7)]
    (fun t => t.blockAt 3 == { p := 0o100, x := 1, t := 2, a := 3, d := 4, l := 5, sts := 0o100, b := 7 } &&
      has t [(.p, 0o101), (.x, 0o4000)]) = true := by decide
/-- The stored words hold drawn bits (R152), which no test can name; `Obligations.SrbStoresTheNamedLevel` says the rest. -/
theorem test_srb : runs 0o152402 [(.x, 0o5000), (.t, 0o2)] [] (fun t => has t [(.x, 0o5000), (.t, 0o2), (.p, 0o101)]) = true := by
  decide
theorem test_saa : runs 0o170777 [] [] (fun t => has t [(.a, 0o177777)]) = true := by decide
theorem test_sax : runs 0o171770 [] [] (fun t => has t [(.x, 0o177770)]) = true := by decide
theorem test_sat : runs 0o171000 [(.t, 0o7)] [] (fun t => has t [(.t, 0)]) = true := by decide
theorem test_sab : runs 0o170100 [] [] (fun t => has t [(.b, 0o100)]) = true := by decide
theorem test_aaa : runs 0o172775 [(.a, 0o10)] [] (fun t => has t [(.a, 0o5)]) = true := by decide
theorem test_aax : runs 0o173401 [(.x, 0o3)] [] (fun t => has t [(.x, 0o4)]) = true := by decide
theorem test_aat : runs 0o173002 [(.t, 0o177777)] [] (fun t => has t [(.t, 0o1)]) = true := by decide
theorem test_aab : runs 0o172200 [(.b, 0o1000)] [] (fun t => has t [(.b, 0o600)]) = true := by decide
theorem test_radd_carries : runs 0o146015 [(.d, 0o177777), (.a, 0o1)] []
    (fun t => has t [(.a, 0)] && t.flag .c && !t.flag .q) = true := by decide
theorem test_rsub : runs 0o146665 [(.a, 0o10), (.t, 0o3)] [] (fun t => has t [(.a, 0o5)] && t.flag .c && !t.flag .q) = true := by
  decide
theorem test_copy : runs 0o146145 [(.l, 0o123)] [] (fun t => has t [(.a, 0o123), (.l, 0o123)]) = true := by decide
theorem test_ad1 : runs 0o146457 [(.x, 0o2), (.a, 0o3)] [] (fun t => has t [(.x, 0o6)]) = true := by decide
theorem test_adc : runs 0o147061 [(.sts, 0o100), (.d, 0o1), (.t, 0o2)] [] (fun t => has t [(.d, 0o4)]) = true := by decide
theorem test_cld : runs 0o144115 [(.d, 0o3), (.a, 0o5)] [] (fun t => has t [(.d, 0), (.a, 0o3)]) = true := by decide
theorem test_cm1 : runs 0o144215 [(.d, 0o3), (.a, 0o5)] [] (fun t => has t [(.d, 0o5), (.a, 0o177774)]) = true := by decide
theorem test_swap : runs 0o144051 [(.a, 0o1), (.d, 0o2)] [] (fun t => has t [(.a, 0o2), (.d, 0o1)]) = true := by decide
theorem test_rand : runs 0o144465 [(.a, 0o177400), (.t, 0o7417)] [] (fun t => has t [(.a, 0o7400)]) = true := by decide
theorem test_rexo : runs 0o145075 [(.a, 0o52525), (.x, 0o177777)] [] (fun t => has t [(.a, 0o125252)]) = true := by decide
theorem test_rora : runs 0o145435 [(.a, 0o17), (.b, 0o360)] [] (fun t => has t [(.a, 0o377)]) = true := by decide
theorem test_exit : runs 0o146142 [(.l, 0o205)] [] (fun t => has t [(.p, 0o205)]) = true := by decide
theorem test_rclr : runs 0o146105 [(.a, 0o7)] [] (fun t => has t [(.a, 0), (.p, 0o101)]) = true := by decide
theorem test_rinc : runs 0o146407 [(.x, 0o7)] [] (fun t => has t [(.x, 0o10)] && !t.flag .c && !t.flag .q) = true := by decide
theorem test_rcdr : runs 0o146207 [(.x, 0o10)] [] (fun t => has t [(.x, 0o7)] && t.flag .c && !t.flag .q) = true := by decide
theorem test_rmpy : runs 0o141265 [(.a, 0o100), (.t, 0o177776)] [] (fun t => has t [(.a, 0o177777), (.d, 0o177600)]) = true := by
  decide
theorem test_rdiv : runs 0o141660 [(.a, 0), (.d, 0o144), (.t, 0o7)] [] (fun t => has t [(.a, 0o16), (.d, 0o2)]) = true := by decide
theorem test_bset : runs 0o174375 [] [] (fun t => has t [(.a, 0o100000)]) = true := by decide
theorem test_bset_flag : runs 0o174050 [(.sts, 0o376)] [] (fun t => has t [(.sts, 0o336)]) = true := by decide
theorem test_bskp : runs 0o175275 [(.a, 0o200)] [] (fun t => has t [(.p, 0o102)]) = true := by decide
theorem test_bsta : runs 0o176207 [(.sts, 0o4)] [] (fun t => has t [(.x, 0o1)] && !t.flag .k) = true := by decide
theorem test_bstc : runs 0o176007 [(.sts, 0o4), (.x, 0o1)] [] (fun t => has t [(.x, 0)] && t.flag .k) = true := by decide
theorem test_bsta_of_k : runs 0o176220 [(.sts, 0o4)] [] (fun t => has t [(.sts, 0)]) = true := by decide
theorem test_blda : runs 0o176775 [(.a, 0o100000)] [] (fun t => t.flag .k) = true := by decide
theorem test_bldc : runs 0o176575 [(.sts, 0o4), (.a, 0o100000)] [] (fun t => !t.flag .k) = true := by decide
theorem test_banc : runs 0o177060 [(.sts, 0o104)] [] (fun t => has t [(.sts, 0o100)]) = true := by decide
theorem test_borc : runs 0o177401 [(.d, 0)] [] (fun t => t.flag .k) = true := by decide
theorem test_band : runs 0o177216 [(.sts, 0o4), (.t, 0o4)] [] (fun t => !t.flag .k) = true := by decide
theorem test_bora : runs 0o177670 [(.sts, 0o200)] [] (fun t => t.flag .k) = true := by decide
theorem test_jmp : runs 0o125005 [] [(0o105, 0o4000)] (fun t => has t [(.p, 0o4000)]) = true := by decide
theorem test_jpl : runs 0o134010 [] [] (fun t => has t [(.l, 0o101), (.p, 0o110)]) = true := by decide
theorem test_jap : runs 0o130003 [(.a, 0o100000)] [] (fun t => has t [(.p, 0o101)]) = true := by decide
theorem test_jan : runs 0o130777 [(.a, 0o177777)] [] (fun t => has t [(.p, 0o77)]) = true := by decide
theorem test_jaz : runs 0o131002 [] [] (fun t => has t [(.p, 0o102)]) = true := by decide
theorem test_jaf : runs 0o131774 [(.a, 0o1)] [] (fun t => has t [(.p, 0o74)]) = true := by decide
theorem test_jpc : runs 0o132376 [(.x, 0o4)] [] (fun t => has t [(.x, 0o5), (.p, 0o76)]) = true := by decide
theorem test_jnc : runs 0o132775 [(.x, 0o177777)] [] (fun t => has t [(.x, 0), (.p, 0o101)]) = true := by decide
theorem test_jxn : runs 0o133405 [(.x, 0o100000)] [] (fun t => has t [(.p, 0o105)]) = true := by decide
theorem test_skp_eql : runs 0o140075 [(.a, 0o5), (.x, 0o5)] [] (fun t => has t [(.p, 0o102)]) = true := by decide
theorem test_skp_gre : runs 0o141005 [(.a, 0o100000)] [] (fun t => has t [(.p, 0o101)]) = true := by decide
theorem test_skp_mgre : runs 0o141465 [(.a, 0o177777), (.t, 0o1)] [] (fun t => has t [(.p, 0o102)]) = true := by decide
theorem test_skp_ueq : runs 0o142075 [(.a, 0o5), (.x, 0o5)] [] (fun t => has t [(.p, 0o101)]) = true := by decide
theorem test_skp_lst : runs 0o143065 [(.a, 0o177777), (.t, 0o1)] [] (fun t => has t [(.p, 0o102)]) = true := by decide
theorem test_skp_mlst : runs 0o143465 [(.a, 0o177777), (.t, 0o1)] [] (fun t => has t [(.p, 0o101)]) = true := by decide
theorem test_sht : runs 0o156074 [(.t, 0o170017)] [] (fun t => has t [(.t, 0o7400)] && t.flag .m) = true := by decide
theorem test_shd : runs 0o157201 [(.d, 0o100000), (.sts, 0o200)] [] (fun t => has t [(.d, 0o1)] && t.flag .m) = true := by decide
theorem test_sha : runs 0o154477 [(.a, 0o100001)] [] (fun t => has t [(.a, 0o140000)] && t.flag .m) = true := by decide
theorem test_sad : runs 0o154677 [(.a, 0o177776), (.d, 0o1)] [] (fun t => has t [(.a, 0o177777), (.d, 0)] && t.flag .m) = true := by
  decide

/-! ### Stops -/

theorem test_trr_is_refused (s : State) : exec (.trr 1) s = .refused .trr := rfl

/-- MEM_WORDS = 1: the word at 000001 does not exist (R53). -/
def oneWord : State := { given [(.p, 0o1), (.b, 0o1)] [] with params := { Config.Params.atReset with memWords := 1 } }

theorem test_absent_fetch_faults : step oneWord = .fault (.noMemory 0o1) := rfl

/-! ### Witnesses: concrete states and operands that meet all hypotheses of an obligation together -/

/-- B-relative with displacement 0. -/
def viaB : MemRef := ⟨false, false, true, 0⟩

/-- B at the last word, both words of an operand there present. -/
def atTop : State := given [(.b, 0o177777), (.p, 0o100), (.x, 0o177777), (.t, 0o177777)] [(0o177777, 0o177777), (0, 0o5)]

/-- B at the first word. -/
def atBottom : State := given [(.b, 0), (.p, 0o177777)] [(0, 0o377)]

theorem witness_EffectiveAddress_p : (0o177600 : Word) = BitVec.ofInt 16 (0o200 : BitVec 8).toInt ∧
    atBottom.present (atBottom.reg .p + 0o177600) = true := by decide
theorem witness_EffectiveAddress_b : (0o177 : Word) = BitVec.ofInt 16 (0o177 : BitVec 8).toInt ∧
    atTop.present (atTop.reg .b + 0o177) = true := by decide
/-- The spec's defaults (R153 and R283 refuse), at level 0. -/
def bySpec (regs : List (Reg × Word)) : State := { given regs [] with params := Config.Params.default }

theorem test_spec_default_refuses_current_level : exec (.srb 0) (bySpec []) = .refused .rbCurrentLevel := rfl
theorem test_spec_default_refuses_lin_2 : exec (.shd .lin 0o2) (bySpec [(.d, 0o1), (.sts, 0o200)]) = .refused .linMulti := rfl
theorem test_rdiv_by_zero_is_refused : exec (.rdiv .t) (given [(.a, 0o1)] []) = .refused .rdivByZero := rfl
theorem test_rdiv_overflow_is_refused :
    exec (.rdiv .t) (given [(.a, 0o37777), (.d, 0o100000), (.t, 0o77777)] []) = .refused .rdivOverflow := rfl

theorem witness_AbsentMemory_fetch : oneWord.present (oneWord.reg .p) = false := by decide
theorem witness_AbsentMemory_operand : ea viaB oneWord = .next 0o1 ∧ oneWord.present 0o1 = false := ⟨rfl, by decide⟩
theorem witness_AbsentMemory_indirect : (⟨true, true, true, 0⟩ : MemRef).i = true ∧
    (0o1 : Word) = (if true then oneWord.reg .b else oneWord.reg .p) + BitVec.ofInt 16 (0 : BitVec 8).toInt ∧
    oneWord.present 0o1 = false := by decide
/-- MEM_WORDS = 7: the words 5 and 6 exist, 7 does not. B is 5, T is 7 and X is 0. -/
def sevenWords : State := { given [(.b, 0o5), (.t, 0o7)] [] with params := { Config.Params.atReset with memWords := 7 } }
theorem witness_AbsentMemory_two_first : ea viaB oneWord = .next 0o1 ∧ firstAbsent oneWord 0o1 2 0 = true := ⟨rfl, by decide⟩
theorem witness_AbsentMemory_three_last : ea viaB sevenWords = .next 0o5 ∧ firstAbsent sevenWords 0o5 3 2 = true := ⟨rfl, by decide⟩
theorem witness_AbsentMemory_byte : sevenWords.present (byteWord sevenWords) = false := by decide
theorem witness_AbsentMemory_block : ((15 : Fin 16) ≠ sevenWords.level ∨ sevenWords.params.rbCurrentLevel = .literal) ∧
    firstAbsent sevenWords (sevenWords.reg .x) 8 7 = true := by decide
/-- For every statement about one memory operand: the last and the first word. MIN there skips and does not skip. -/
theorem witness_single_operand_last : ea viaB atTop = .next 0o177777 ∧ atTop.present 0o177777 = true ∧
    atTop.wordAt 0o177777 = 0o177777 := ⟨rfl, by decide, by decide⟩
theorem witness_single_operand_first : ea viaB atBottom = .next 0 ∧ atBottom.present 0 = true ∧ atBottom.wordAt 0 ≠ 0o177777 :=
  ⟨rfl, by decide, by decide⟩
theorem witness_SingleStoresWriteTheirRegister : ea viaB atTop = .next 0o177777 ∧ atTop.present 0o177777 = true := ⟨rfl, by decide⟩
theorem witness_DoubleAndFloatingStores_two : ea viaB atTop = .next 0o177777 ∧ allPresent atTop 0o177777 2 = true :=
  ⟨rfl, by decide⟩
theorem witness_DoubleAndFloatingStores_three : ea viaB atTop = .next 0o177777 ∧ allPresent atTop 0o177777 3 = true :=
  ⟨rfl, by decide⟩
theorem witness_MinIncrementsAndSkipsOnZero : ea viaB atTop = .next 0o177777 ∧ atTop.present 0o177777 = true := ⟨rfl, by decide⟩
theorem witness_SingleLoadsReadTheirWord : ea viaB atBottom = .next 0 ∧ atBottom.present 0 = true := ⟨rfl, by decide⟩
theorem witness_DoubleAndFloatingLoads_two : ea viaB atBottom = .next 0 ∧ allPresent atBottom 0 2 = true := ⟨rfl, by decide⟩
theorem witness_DoubleAndFloatingLoads_three : ea viaB atBottom = .next 0 ∧ allPresent atBottom 0 3 = true := ⟨rfl, by decide⟩
theorem witness_AddSumsWithCarryAndOverflow : ea viaB atTop = .next 0o177777 ∧ atTop.present 0o177777 = true := ⟨rfl, by decide⟩
theorem witness_SubSubtractsWithNoBorrowCarry : ea viaB atBottom = .next 0 ∧ atBottom.present 0 = true := ⟨rfl, by decide⟩
theorem witness_AndOraCombineWithoutFlags : ea viaB atTop = .next 0o177777 ∧ atTop.present 0o177777 = true := ⟨rfl, by decide⟩
theorem witness_MpyMultipliesAndFlagsOverflow : ea viaB atBottom = .next 0 ∧ atBottom.present 0 = true := ⟨rfl, by decide⟩
theorem witness_FloatingOperations : ea viaB atTop = .next 0o177777 ∧ allPresent atTop 0o177777 3 = true ∧
    (Instr.fdv viaB, Config.fpDiv) ∈ [(Instr.fad viaB, Config.fpAdd), (Instr.fsb viaB, Config.fpSub),
      (Instr.fmu viaB, Config.fpMul), (Instr.fdv viaB, Config.fpDiv)] := ⟨rfl, by decide, by simp⟩
theorem witness_Conversions (f g : Config.FloatResult) : (Instr.dnz 0o200, g) ∈ [(Instr.nlz 0o200, f), (Instr.dnz 0o200, g)] := by simp
/-- X = 177777: the two settings of BYTE_X_HALVING differ. -/
theorem witness_Bytes_logical : atTop.params.byteXHalving = .logical := by decide
theorem witness_Bytes_arithmetic :
    { atTop with params := { atTop.params with byteXHalving := .arithmetic } }.params.byteXHalving = .arithmetic := by decide
theorem witness_LbytLoadsTheAddressedByte : atTop.present (byteWord atTop) = true := by decide
theorem witness_SbytStoresOnlyTheAddressedByte : atBottom.present (byteWord atBottom) = true := by decide
theorem witness_LrbLoadsTheNamedLevel : allPresent atTop (atTop.reg .x) 8 = true ∧
    ((15 : Fin 16) ≠ atTop.level ∨ atTop.params.rbCurrentLevel = .literal) := by decide
theorem witness_LrbLoadsTheCurrentLevel : allPresent atBottom (atBottom.reg .x) 8 = true ∧
    (0 : Fin 16) = atBottom.level ∧ atBottom.params.rbCurrentLevel = .literal := by decide
theorem witness_SrbStoresTheNamedLevel : allPresent atTop (atTop.reg .x) 8 = true ∧
    ((0 : Fin 16) ≠ atTop.level ∨ atTop.params.rbCurrentLevel = .literal) := by decide
theorem witness_LrbRestoresWhatSrbSaved : ∃ t u : State, exec (.srb 15) atTop = .next t ∧ u.mem = t.mem ∧ u.params = t.params ∧
    u.reg .x = atTop.reg .x ∧ ((15 : Fin 16) ≠ u.level ∨ u.params.rbCurrentLevel = .literal) :=
  ⟨_, _, rfl, rfl, rfl, rfl, .inl (by decide)⟩
theorem witness_SetArgument : (Instr.sab 0o200, Reg.b) ∈
    [(Instr.saa 0o200, Reg.a), (Instr.sax 0o200, Reg.x), (Instr.sat 0o200, Reg.t), (Instr.sab 0o200, Reg.b)] := by decide
theorem witness_AddArgument_unchanged : (Instr.aab 0o200, Reg.b) ∈
    [(Instr.aaa 0o200, Reg.a), (Instr.aax 0o200, Reg.x), (Instr.aat 0o200, Reg.t), (Instr.aab 0o200, Reg.b)] ∧
    { atTop with params := { atTop.params with argAddFlags := .unchanged } }.params.argAddFlags = .unchanged := by decide
theorem witness_AddArgument_asAdd : (Instr.aaa 0o177, Reg.a) ∈
    [(Instr.aaa 0o177, Reg.a), (Instr.aax 0o177, Reg.x), (Instr.aat 0o177, Reg.t), (Instr.aab 0o177, Reg.b)] ∧
    { atTop with params := { atTop.params with argAddFlags := .asAdd } }.params.argAddFlags = .asAdd := by decide
/-- Every register destination that a field can name, 1 and 7 being the ends of the range (register operations, RMPY, SKP). -/
theorem witness_destination_first : destination (Dst.ofNum 1) = .next .d := rfl
theorem witness_destination_last : destination (Dst.ofNum 7) = .next .x := rfl
theorem witness_ArithmeticRegisterOperationsAdd : destination .p = .next .p ∧ (true && false) = false ∧
    (0 : Word) = (if true then 0 else atTop.reg .p) ∧ (0 : Word) = (if true then ~~~(sourceValue .b atTop) else sourceValue .b atTop) ∧
    false = (if false then true else if true then atTop.flag .c else false) := ⟨rfl, by decide⟩
theorem witness_RsubSubtractsTheSource : destination .x = .next .x := rfl
theorem witness_CopyExitAndRclrTransfer : destination .p = .next .p := rfl
theorem witness_RincAndRcdrCount : destination .d = .next .d ∧ atTop.reg .x = 0o177777 := ⟨rfl, by decide⟩
theorem witness_LogicalRegisterOperationsCombine : destination .d = .next .d ∧ (0 : Word) = (if true then 0 else atTop.reg .d) ∧
    (0 : Word) = (if true then ~~~(sourceValue .x atTop) else sourceValue .x atTop) := ⟨rfl, by decide⟩
theorem witness_SwapExchangesTheOperands : destination .a = .next .a ∧ sourceReg .p = some .p ∧ Reg.p ≠ Reg.a := ⟨rfl, by decide⟩
theorem witness_SwapFromNoSource : destination .a = .next .a ∧ sourceReg .zero = none := ⟨rfl, by decide⟩
theorem witness_FormsTheSpecRefuse_sts : ((0 : Fin 16) = 0 ∨ 8 ≤ (0 : Fin 16).val) ∧ ((8 : Fin 16) = 0 ∨ 8 ≤ (8 : Fin 16).val) ∧
    ((15 : Fin 16) = 0 ∨ 8 ≤ (15 : Fin 16).val) := by decide
theorem witness_FormsTheSpecRefuse_bcm : bitDefined 1 .sts = true ∧ bitDefined 7 .sts = true ∧ bitDefined 0 .a = true := by decide
theorem witness_FormsTheSpecRefuse_settings : (bySpec []).params.rbCurrentLevel = .refuse ∧ (bySpec []).params.linMulti = .refuse ∧
    1 < (0o2 : BitVec 6).toInt.natAbs ∧ 1 < (0o76 : BitVec 6).toInt.natAbs := by decide
theorem witness_FormsTheSpecRefuse_adc : Dst.d ≠ .undef ∧ Dst.x ≠ .undef := by decide
theorem witness_RmpyLeavesTheExactProduct : destination .a = .next .a := rfl
/-- AD = -32768 and the divisor T = 177777 = -1 would overflow; AD = 32767 gives the quotient -32767. -/
def divisible : State := given [(.a, 0), (.d, 0o77777), (.t, 0o177777)] []
theorem witness_RdivLeavesQuotientAndRemainder : (divisible.reg .a ++ divisible.reg .d).toInt =
      -32767 * (sourceValue .t divisible).toInt + 0 ∧
    (0 : Int).natAbs < (sourceValue .t divisible).toInt.natAbs ∧ (-32768 : Int) ≤ -32767 ∧ (-32767 : Int) ≤ 32767 := by decide
theorem witness_Rdiv_by_zero : sourceValue .zero divisible = 0 := by decide
/-- AD = -32768, divisor -1: the quotient 32768 is the first that does not fit. -/
def firstOverflow : State := given [(.a, 0o177777), (.d, 0o100000), (.t, 0o177777)] []
theorem witness_Rdiv_overflow : sourceValue .t firstOverflow ≠ 0 ∧
    32767 < Int.tdiv (firstOverflow.reg .a ++ firstOverflow.reg .d).toInt (sourceValue .t firstOverflow).toInt := by decide
/-- AD = -32768, divisor 1: the quotient -32768 is the last that fits. -/
def lastQuotient : State := given [(.a, 0o177777), (.d, 0o100000), (.t, 0o1)] []
theorem witness_Rdiv_fits : (sourceValue .t lastQuotient).toInt ≠ 0 ∧
    Int.tdiv (lastQuotient.reg .a ++ lastQuotient.reg .d).toInt (sourceValue .t lastQuotient).toInt = -32768 := by decide
theorem witness_bit_statements : bitDefined 1 .sts = true ∧ bitDefined 7 .sts = true ∧ bitDefined 0 .d = true ∧
    bitDefined 15 .x = true := by decide
theorem witness_BskpSkipsOnItsCondition : bitDefined 15 .p = true ∧ BitCond.bac ≠ .bcm := by decide
theorem witness_BstaOfKItself : bitDefined (Flag.bit .k) .sts = true := by decide
theorem witness_BitLoadsAndCombinesWriteK : bitDefined 15 .b = true ∧ true = (atTop.reg .b).getLsbD 15 ∧
    (Instr.bora 15 .b, atTop.flag .k || true) ∈ [(Instr.blda 15 .b, true), (Instr.bldc 15 .b, !true),
      (Instr.banc 15 .b, atTop.flag .k && !true), (Instr.borc 15 .b, atTop.flag .k || !true),
      (Instr.band 15 .b, atTop.flag .k && true), (Instr.bora 15 .b, atTop.flag .k || true)] := by decide
theorem witness_JmpContinuesAtTheEffectiveAddress : ea viaB atTop = .next 0o177777 := rfl
theorem witness_JplLinksAndExitReturns : ea viaB atBottom = .next 0 ∧ atBottom.reg .p = 0o177777 := ⟨rfl, by decide⟩
theorem witness_ConditionalJumpsTestAOrX : (Instr.jxn 0o200, decide ((atTop.reg .x).toInt < 0)) ∈
    [(Instr.jap 0o200, decide (0 ≤ (atTop.reg .a).toInt)), (Instr.jan 0o200, decide ((atTop.reg .a).toInt < 0)),
      (Instr.jaz 0o200, decide (atTop.reg .a = 0)), (Instr.jaf 0o200, decide (atTop.reg .a ≠ 0)),
      (Instr.jxn 0o200, decide ((atTop.reg .x).toInt < 0))] := by decide
theorem witness_CountingJumpsTestTheNewX : (Instr.jpc 0o177, decide (0 ≤ (atTop.reg .x + 1).toInt)) ∈
    [(Instr.jpc 0o177, decide (0 ≤ (atTop.reg .x + 1).toInt)),
      (Instr.jnc 0o177, decide ((atTop.reg .x + 1).toInt < 0))] := by decide
theorem witness_SkpSkipsOnTheNamedRelation : destination .x = .next .x ∧ (0o177777 : Word) = atTop.reg .x ∧
    (0 : Word) = sourceValue .zero atTop := ⟨rfl, by decide⟩
theorem witness_PlaceByPlaceIsTheClosedForm : 0 < 1 ∧ 0 < 32 := by decide
theorem witness_SingleShifts_lin_of_several : ShiftKind.lin ≠ .lin ∨ (0o40 : BitVec 6).toInt.natAbs ≤ 1 ∨
    atTop.params.linMulti ≠ .refuse := by decide
theorem witness_SingleShifts_lin_of_one : ShiftKind.lin ≠ .lin ∨ (0o77 : BitVec 6).toInt.natAbs ≤ 1 ∨
    (bySpec []).params.linMulti ≠ .refuse := by decide
theorem witness_SingleShifts_none : (Instr.sha .lin 0, Reg.a) ∈
    [(Instr.sht .lin 0, Reg.t), (Instr.shd .lin 0, Reg.d), (Instr.sha .lin 0, Reg.a)] ∧ (0 : BitVec 6) = 0 := by decide
theorem witness_SingleShifts_ends : (0o37 : BitVec 6) ≠ 0 ∧ (0o40 : BitVec 6) ≠ 0 ∧ (0o37 : BitVec 6).toInt = 31 ∧
    (0o40 : BitVec 6).toInt = -32 := by decide
theorem witness_TraWritesAOnly : (1 : Fin 16) ∈ ([0o1, 0o2, 0o3, 0o4, 0o5, 0o6, 0o7, 0o12, 0o13, 0o15] : List (Fin 16)) ∧
    (0o15 : Fin 16) ∈ ([0o1, 0o2, 0o3, 0o4, 0o5, 0o6, 0o7, 0o12, 0o13, 0o15] : List (Fin 16)) := by decide
theorem witness_DecodeReadsEveryEncodedInstruction : (Instr.radd true true true true .x .x).wellFormed = true := by decide
theorem witness_EncodeGivesBackEveryDecodedWord : decode 0o177777 = .ok (.bora 15 .x) := rfl
/-- A state about to store, at the word after the store, the instruction that A holds. -/
def storesAhead : State := given [(.p, 0o100), (.a, 0o170777)] [(0o100, 0o4001)]
theorem witness_StepRunsTheDecodedInstruction : storesAhead.present (storesAhead.reg .p) = true ∧
    decode (storesAhead.wordAt (storesAhead.reg .p)) = .ok (.sta ⟨false, false, false, 1⟩) := ⟨by decide, rfl⟩
theorem witness_StepRefusesAnUnassignedWord : (given [] [(0, 0o160000)]).present 0 = true ∧
    decode ((given [] [(0, 0o160000)]).wordAt 0) = .error .group := ⟨by decide, rfl⟩
theorem witness_AStoreIsSeenByTheNextFetch : ea ⟨false, false, false, 1⟩ storesAhead = .next (storesAhead.reg .p + 1) ∧
    (∃ t, exec (.sta ⟨false, false, false, 1⟩) storesAhead = .next t) ∧ decode (storesAhead.reg .a) = .ok (.saa 0o377) :=
  ⟨rfl, ⟨_, rfl⟩, rfl⟩
theorem witness_EveryStepKeepsTheInvariant : Machine.Inv storesAhead ∧ ∃ t, step storesAhead = .next t :=
  ⟨by unfold Machine.Inv; decide, _, rfl⟩
theorem witness_LevelsAreSeparateContexts : (∃ t, exec (.lrb 15) atTop = .next t) ∧ (1 : Fin 16) ≠ atTop.level ∧
    Instr.lrb 15 ≠ .lrb 1 := ⟨⟨_, rfl⟩, by decide, by decide⟩
theorem witness_OnlyStoresWriteMemory : (∃ t, exec (.lda viaB) atTop = .next t) ∧ isStore (.lda viaB) = false := ⟨⟨_, rfl⟩, rfl⟩
theorem witness_FlagsAreWrittenOnlyByTheirWriters : (∃ t, exec (.mpy viaB) atTop = .next t) ∧ mayWrite .c (.mpy viaB) = false ∧
    mayWrite .k (.bskp .bac 2 .sts) = false ∧ mayWrite .k (.bset .one 3 .sts) = false ∧ mayWrite .m (.sha .arith 0) = false :=
  ⟨⟨_, rfl⟩, by decide⟩
theorem witness_UndefinedStatusBitsAreNeverWritten : (∃ t, step storesAhead = .next t) ∧
    ((8 : Fin 16) = 0 ∨ 8 ≤ (8 : Fin 16).val) ∧ ((0 : Fin 16) = 0 ∨ 8 ≤ (0 : Fin 16).val) := ⟨⟨_, rfl⟩, by decide⟩
theorem witness_OtherInstructionsGoOnAtTheNextWord : (∃ t, exec (.lrb 15) atTop = .next t) ∧ mayTransfer atTop.level (.lrb 15) = false :=
  ⟨⟨_, rfl⟩, by decide⟩
/-- Two states that differ in a register of level 15 only. -/
theorem witness_OtherLevelsDoNotInfluenceAStep : SameOnCurrentLevel storesAhead (storesAhead.setRegAt 15 .a 0o1) ∧
    (storesAhead.setRegAt 15 .a 0o1).regAt 15 .a ≠ storesAhead.regAt 15 .a ∧
    decode (storesAhead.wordAt (storesAhead.reg .p)) = .ok (.sta ⟨false, false, false, 1⟩) :=
  ⟨by unfold SameOnCurrentLevel; decide, by decide, rfl⟩

end Sys2Proof.Tests
end

section
/-! The combined instructions (spec/30_encoding.md R91) as names of arithmetic register operations. -/

namespace Sys2Proof.Combined

open Sys2Proof.Machine

/-- Two instructions that are one word and have one outcome from every state: two names of one operation (R91). -/
def SameOperation (i j : Instr) : Prop := encode i = encode j ∧ ∀ s : State, exec i s = exec j s

/-! ### Words -/

/-- With source field 0 only the destination mnemonic is joined. -/
theorem encSrcDst_zero (dr : Dst) : encSrcDst .zero dr = placed 0 dr.num := BitVec.zero_or

/-- The word of RADD: the code with its modifiers, then the operand fields. -/
theorem encode_radd {adc ad1 cm1 cld : Bool} {code : Word} (sr : Src) (dr : Dst)
    (h : 0o146000 ||| valueIf adc 0o001000 ||| valueIf ad1 0o000400 ||| encModifiers cm1 cld = code) :
    encode (.radd adc ad1 cm1 cld sr dr) = code ||| encSrcDst sr dr := by
  subst h; rfl

theorem encode_rsub (sr : Src) (dr : Dst) : encode (.rsub sr dr) = encode (.radd false true true false sr dr) :=
  (encode_radd sr dr (by decide)).symm

theorem encode_copy (sr : Src) (dr : Dst) : encode (.copy sr dr) = encode (.radd false false false true sr dr) :=
  (encode_radd sr dr (by decide)).symm

theorem encode_exit : encode .exit = encode (.copy .l .p) := by decide

theorem encode_rclr (dr : Dst) : encode (.rclr dr) = encode (.copy .zero dr) := by
  simp only [encode, encSrcDst_zero]

theorem encode_rinc (dr : Dst) : encode (.rinc dr) = encode (.radd false true false false .zero dr) := by
  rw [encode_radd (code := 0o146400) .zero dr (by decide), encSrcDst_zero, encode]

theorem encode_rcdr (dr : Dst) : encode (.rcdr dr) = encode (.radd false false true false .zero dr) := by
  rw [encode_radd (code := 0o146200) .zero dr (by decide), encSrcDst_zero, encode]

/-! ### Outcomes: each name runs the arithmetic register operation (R188) with the modifiers of its expansion -/

theorem exec_radd (adc ad1 cm1 cld : Bool) (sr : Src) (dr : Dst) (s : State) :
    exec (.radd adc ad1 cm1 cld sr dr) s = arithOp adc ad1 cm1 cld sr dr s := rfl
theorem exec_rsub (sr : Src) (dr : Dst) (s : State) : exec (.rsub sr dr) s = arithOp false true true false sr dr s := rfl
theorem exec_copy (sr : Src) (dr : Dst) (s : State) : exec (.copy sr dr) s = arithOp false false false true sr dr s := rfl
theorem exec_exit (s : State) : exec .exit s = arithOp false false false true .l .p s := rfl
theorem exec_rclr (dr : Dst) (s : State) : exec (.rclr dr) s = arithOp false false false true .zero dr s := rfl
theorem exec_rinc (dr : Dst) (s : State) : exec (.rinc dr) s = arithOp false true false false .zero dr s := rfl
theorem exec_rcdr (dr : Dst) (s : State) : exec (.rcdr dr) s = arithOp false false true false .zero dr s := rfl

/-! ### Each name and its expansion -/

theorem rsub_same (sr : Src) (dr : Dst) : SameOperation (.rsub sr dr) (.radd false true true false sr dr) :=
  ⟨encode_rsub sr dr, fun s => by rw [exec_rsub, exec_radd]⟩

theorem copy_same (sr : Src) (dr : Dst) : SameOperation (.copy sr dr) (.radd false false false true sr dr) :=
  ⟨encode_copy sr dr, fun s => by rw [exec_copy, exec_radd]⟩

theorem exit_same : SameOperation .exit (.copy .l .p) :=
  ⟨encode_exit, fun s => by rw [exec_exit, exec_copy]⟩

theorem rclr_same (dr : Dst) : SameOperation (.rclr dr) (.copy .zero dr) :=
  ⟨encode_rclr dr, fun s => by rw [exec_rclr, exec_copy]⟩

theorem rinc_same (dr : Dst) : SameOperation (.rinc dr) (.radd false true false false .zero dr) :=
  ⟨encode_rinc dr, fun s => by rw [exec_rinc, exec_radd]⟩

theorem rcdr_same (dr : Dst) : SameOperation (.rcdr dr) (.radd false false true false .zero dr) :=
  ⟨encode_rcdr dr, fun s => by rw [exec_rcdr, exec_radd]⟩

/-- The codes of the six names, without their operands (R91). -/
theorem codes_of_names :
    encode (.rsub .zero .undef) = 0o146600 ∧ encode (.copy .zero .undef) = 0o146100 ∧ encode .exit = 0o146142 ∧
      encode (.rclr .undef) = 0o146100 ∧ encode (.rinc .undef) = 0o146400 ∧ encode (.rcdr .undef) = 0o146200 := by
  decide

/-- NLZ+20 is NLZ with scaling factor 16. -/
theorem decode_nlz_plus_sixteen : decode 0o151420 = .ok (.nlz 16) := rfl

/-- DNZ-20 is DNZ with scaling factor -16. -/
theorem decode_dnz_minus_sixteen : decode 0o152360 = .ok (.dnz (-16)) := rfl

/-- Settles O29: the codes by evaluation, then one lemma for each name and its expansion. -/
theorem combinedNamesAreRegisterOperations : Obligations.CombinedNamesAreRegisterOperations := by
  refine ⟨codes_of_names, decode_nlz_plus_sixteen, decode_dnz_minus_sixteen, fun sr dr i j h => ?_⟩
  simp only [List.mem_cons, List.not_mem_nil, or_false, Prod.mk.injEq] at h
  obtain ⟨rfl, rfl⟩ | ⟨rfl, rfl⟩ | ⟨rfl, rfl⟩ | ⟨rfl, rfl⟩ | ⟨rfl, rfl⟩ | ⟨rfl, rfl⟩ := h
  · exact rsub_same sr dr
  · exact copy_same sr dr
  · exact exit_same
  · exact rclr_same dr
  · exact rinc_same dr
  · exact rcdr_same dr

end Sys2Proof.Combined
end

section
/-! Single-word memory reference instructions (spec/40_memory_reference.md): the stores STZ, STA, STT, STX, the loads LDA, LDT, LDX,
and AND, ORA. Each answers the same way: one word or one register is written on the state with P advanced. -/

namespace Sys2Proof.Machine

/-! ### Frames, one update at a time -/

theorem Frame.refl (regs : List Reg) (bits : List (Fin 16)) (words : List Word) (s : State) : Frame regs bits words s s where
  level := rfl
  params := rfl
  otherLevels _ _ _ := rfl
  registers _ _ _ _ := rfl
  status _ _ := rfl
  memory _ _ := rfl

section
variable {regs : List Reg} {bits : List (Fin 16)} {words : List Word} {s t : State}

/-- P is outside every frame; any other register has to be one of the frame's, and STS is framed bit by bit. -/
theorem Frame.setReg (h : Frame regs bits words s t) {r : Reg} (v : Word) (hr : r = .p ∨ r ∈ regs) (hsts : r ≠ .sts) :
    Frame regs bits words s (t.setReg r v) where
  level := h.level
  params := h.params
  otherLevels n hn q := by
    have hn' : n ≠ t.level := h.level.symm ▸ hn
    rw [State.regAt_setReg_other t r v q hn', h.otherLevels n hn q]
  registers q hp hq hmem := by
    have hqr : q ≠ r := by
      rintro rfl
      exact hr.elim hp hmem
    rw [State.reg_setReg_ne t v hqr, h.registers q hp hq hmem]
  status i hi := by rw [State.reg_setReg_ne t v hsts.symm, h.status i hi]
  memory := h.memory

theorem Frame.advance (h : Frame regs bits words s t) : Frame regs bits words s t.advance :=
  h.setReg _ (.inl rfl) (by decide)

theorem Frame.putWord (h : Frame regs bits words s t) {a : Word} (v : Word) (ha : a ∈ words) :
    Frame regs bits words s (t.putWord a v) where
  level := h.level
  params := h.params
  otherLevels := h.otherLevels
  registers := h.registers
  status := h.status
  memory k hk := by
    obtain ⟨hleft, hright⟩ := hk a ha
    rw [State.byteAt_putWord_outside t a v hleft hright, h.memory k hk]

end

/-! ### The shared shapes, where the effective address is `el` and the word there exists -/

section
variable {m : MemRef} {s : State} {el : Word}

/-- A store of one word leaves it at the effective address and changes nothing else but P. -/
theorem storeAtEa_single (hea : ea m s = .next el) (hp : s.present el = true) (v : Word) :
    ∃ t, storeAtEa m [v] s = .next t ∧ t.wordAt el = v ∧ Frame [] [] [el] s t := by
  have hp' : s.advance.present el = true := (State.present_of_params s.advance_params el).trans hp
  have hstore : storeWords el [v] s.advance = .next (s.advance.putWord el v) :=
    storeWords_cons_eq_next.2 ⟨hp', storeWords_nil_eq_next.2 rfl⟩
  exact ⟨_, storeAtEa_eq_next.2 ⟨el, hea, hstore⟩, State.wordAt_putWord_same .., (Frame.refl ..).advance.putWord v (by simp)⟩

/-- An operand combined into a register leaves the combination there and changes nothing else but P. -/
theorem withOperand_setReg (hea : ea m s = .next el) (hp : s.present el = true) {r : Reg} (hsts : r ≠ .sts) (f : Word → Word) :
    ∃ t, withOperand m s (fun w => s.advance.setReg r (f w)) = .next t ∧ t.reg r = f (s.wordAt el) ∧ Frame [r] [] [] s t :=
  ⟨_, withOperand_eq_next.2 ⟨el, hea, hp, rfl⟩, State.reg_setReg_same ..,
    (Frame.refl ..).advance.setReg _ (.inr (by simp)) hsts⟩

/-- A load is an operand combined with nothing. -/
theorem loadReg_writes (hea : ea m s = .next el) (hp : s.present el = true) {r : Reg} (hsts : r ≠ .sts) :
    ∃ t, loadReg r m s = .next t ∧ t.reg r = s.wordAt el ∧ Frame [r] [] [] s t :=
  withOperand_setReg hea hp hsts id

end

/-! ### The instructions as uses of those shapes -/

theorem exec_stz (m : MemRef) (s : State) : exec (.stz m) s = storeAtEa m [0] s := rfl
theorem exec_sta (m : MemRef) (s : State) : exec (.sta m) s = storeAtEa m [s.reg .a] s := rfl
theorem exec_stt (m : MemRef) (s : State) : exec (.stt m) s = storeAtEa m [s.reg .t] s := rfl
theorem exec_stx (m : MemRef) (s : State) : exec (.stx m) s = storeAtEa m [s.reg .x] s := rfl
theorem exec_lda (m : MemRef) (s : State) : exec (.lda m) s = loadReg .a m s := rfl
theorem exec_ldt (m : MemRef) (s : State) : exec (.ldt m) s = loadReg .t m s := rfl
theorem exec_ldx (m : MemRef) (s : State) : exec (.ldx m) s = loadReg .x m s := rfl
theorem exec_and (m : MemRef) (s : State) :
    exec (.and m) s = withOperand m s fun w => s.advance.setReg .a (s.reg .a &&& w) := rfl
theorem exec_ora (m : MemRef) (s : State) :
    exec (.ora m) s = withOperand m s fun w => s.advance.setReg .a (s.reg .a ||| w) := rfl

end Sys2Proof.Machine

namespace Sys2Proof.MemoryReference

open Sys2Proof.Machine

/-! ### Decoding a word of format MR (R60): an operation code in bits 15 to 11, joined with an address part in bits 10 to 0 -/

theorem bitsOf_or (v w : Word) (lo n : Nat) : bitsOf (v ||| w) lo n = bitsOf v lo n ||| bitsOf w lo n :=
  BitVec.extractLsb'_or

theorem memRefOf_or (v w : Word) : memRefOf (v ||| w) =
    ⟨(memRefOf v).x || (memRefOf w).x, (memRefOf v).i || (memRefOf w).i, (memRefOf v).b || (memRefOf w).b,
      (memRefOf v).disp ||| (memRefOf w).disp⟩ := by
  simp only [memRefOf, BitVec.getLsbD_or, bitsOf_or]

/-- A word without an address part leaves that of a word it is joined with. -/
theorem memRefOf_or_of_none {code : Word} (h : memRefOf code = ⟨false, false, false, 0⟩) (w : Word) :
    memRefOf (code ||| w) = memRefOf w := by
  simp only [memRefOf_or, h, Bool.false_or, BitVec.ofNat_eq_ofNat, BitVec.zero_or]

theorem bitsOf_placed (d : BitVec 8) : bitsOf (placed 0 d) 0 8 = d := by
  refine BitVec.eq_of_getLsbD_eq fun j hj => ?_
  have hj16 : j < 16 := by omega
  simp [bitsOf, placed, hj, hj16]

theorem memRefOf_placed (d : BitVec 8) : memRefOf (placed 0 d) = ⟨false, false, false, d⟩ := by
  simp only [memRefOf, bitsOf_placed, MemRef.mk.injEq, and_true]
  simp [placed]

theorem memRefOf_encMem (m : MemRef) : memRefOf (encMem m) = m := by
  obtain ⟨x, i, b, d⟩ := m
  have hmodes : memRefOf (valueIf x 0o002000 ||| valueIf i 0o001000 ||| valueIf b 0o000400) = ⟨x, i, b, 0⟩ := by
    cases x <;> cases i <;> cases b <;> rfl
  rw [encMem, memRefOf_or, hmodes, memRefOf_placed]
  simp only [Bool.or_false, BitVec.ofNat_eq_ofNat, BitVec.zero_or]

/-- An address part lies outside the operation code. -/
theorem opcode_encMem (m : MemRef) : bitsOf (encMem m) 11 5 = 0 :=
  calc bitsOf (encMem m) 11 5
    _ = bitsOf (encMem m) 11 5 &&& bitsOf 0o174000 11 5 := BitVec.and_allOnes.symm
    _ = bitsOf (encMem m &&& 0o174000) 11 5 := BitVec.extractLsb'_and.symm
    _ = 0 := by rw [Laws.encMem_fixed]; rfl

/-- The operation code `code` selects the instruction `instr`: every word with its bits 15 to 11 is `instr` with the word's own
address part (R75, R76). -/
def Selects (code : Word) (instr : MemRef → Instr) : Prop :=
  ∀ w, bitsOf w 11 5 = bitsOf code 11 5 → decode w = .ok (instr (memRefOf w))

/-- A code joined with an address part decodes to the instruction that the code selects, with that address part. -/
theorem decode_joined {code : Word} {instr : MemRef → Instr} (hsel : Selects code instr)
    (hcode : memRefOf code = ⟨false, false, false, 0⟩) (m : MemRef) : decode (code ||| encMem m) = .ok (instr m) := by
  have hop : bitsOf (code ||| encMem m) 11 5 = bitsOf code 11 5 := by
    rw [bitsOf_or, opcode_encMem, BitVec.ofNat_eq_ofNat, BitVec.or_zero]
  rw [hsel _ hop, memRefOf_or_of_none hcode, memRefOf_encMem]

theorem selects_stz : Selects 0o000000 .stz := fun w h => by rw [decode, h]; rfl
theorem selects_sta : Selects 0o004000 .sta := fun w h => by rw [decode, h]; rfl
theorem selects_stt : Selects 0o010000 .stt := fun w h => by rw [decode, h]; rfl
theorem selects_stx : Selects 0o014000 .stx := fun w h => by rw [decode, h]; rfl
theorem selects_lda : Selects 0o044000 .lda := fun w h => by rw [decode, h]; rfl
theorem selects_ldx : Selects 0o054000 .ldx := fun w h => by rw [decode, h]; rfl
theorem selects_and : Selects 0o070000 .and := fun w h => by rw [decode, h]; rfl
theorem selects_ora : Selects 0o074000 .ora := fun w h => by rw [decode, h]; rfl

/-! ### The statements -/

/-- Settles O3: the four codes, then one store of one word for each instruction. -/
theorem singleStoresWriteTheirRegister : Obligations.SingleStoresWriteTheirRegister := by
  refine ⟨fun m => ⟨?_, ?_, ?_, ?_⟩, fun m s el hea hp => ⟨?_, ?_, ?_, ?_⟩⟩
  · exact decode_joined selects_stz rfl m
  · exact decode_joined selects_sta rfl m
  · exact decode_joined selects_stt rfl m
  · exact decode_joined selects_stx rfl m
  · rw [exec_stz]; exact storeAtEa_single hea hp 0
  · rw [exec_sta]; exact storeAtEa_single hea hp (s.reg .a)
  · rw [exec_stt]; exact storeAtEa_single hea hp (s.reg .t)
  · rw [exec_stx]; exact storeAtEa_single hea hp (s.reg .x)

/-- Settles O6: the two codes, then one load into each register. -/
theorem singleLoadsReadTheirWord : Obligations.SingleLoadsReadTheirWord := by
  refine ⟨fun m => ⟨?_, ?_⟩, fun m s el hea hp => ⟨?_, ?_, ?_⟩⟩
  · exact decode_joined selects_lda rfl m
  · exact decode_joined selects_ldx rfl m
  · rw [exec_lda]; exact loadReg_writes hea hp (by decide)
  · rw [exec_ldt]; exact loadReg_writes hea hp (by decide)
  · rw [exec_ldx]; exact loadReg_writes hea hp (by decide)

/-- Settles O10: the two codes, then the operand combined into A. -/
theorem andOraCombineWithoutFlags : Obligations.AndOraCombineWithoutFlags := by
  refine ⟨fun m => ⟨?_, ?_⟩, fun m s el hea hp => ⟨?_, ?_⟩⟩
  · exact decode_joined selects_and rfl m
  · exact decode_joined selects_ora rfl m
  · rw [exec_and]; exact withOperand_setReg hea hp (by decide) fun w => s.reg .a &&& w
  · rw [exec_ora]; exact withOperand_setReg hea hp (by decide) fun w => s.reg .a ||| w

end Sys2Proof.MemoryReference
end

section
/-! The writers of the flags (spec/10_state.md R17, decision D8). Each update of the state and each shared operation says once which
flags it leaves as they were; an instruction that R17 does not list as a writer of a flag is a use of one that leaves it. -/

namespace Sys2Proof.Machine

/-! ### Updates of the state -/

@[simp] theorem State.flag_skipIf (s : State) (c : Bool) (f : Flag) : (s.skipIf c).flag f = s.flag f := by
  simp [State.flag]

@[simp] theorem condJump_flag (c : Bool) (disp : BitVec 8) (s : State) (f : Flag) :
    (condJump c disp s).flag f = s.flag f := by
  simp [State.flag, condJump_reg]

@[simp] theorem incrementX_flag (s : State) (f : Flag) : (incrementX s).flag f = s.flag f := by
  simp [incrementX]

@[simp] theorem State.flag_setDouble (s : State) (v : BitVec 32) (f : Flag) : (s.setDouble v).flag f = s.flag f := by
  simp [State.setDouble]

@[simp] theorem State.flag_setFloat (s : State) (v : BitVec 48) (f : Flag) : (s.setFloat v).flag f = s.flag f := by
  simp [State.setFloat]

section
variable {f : Flag}

theorem State.flag_setOverflow (s : State) (v : Bool) (hf : f ∉ [Flag.q, .o]) : (s.setOverflow v).flag f = s.flag f := by
  obtain ⟨hq, ho⟩ : f ≠ .q ∧ f ≠ .o := by simpa using hf
  rw [State.setOverflow, State.flag_setFlag_ne _ _ ho, State.flag_setFlag_ne _ _ hq]

theorem State.flag_setAddFlags (s : State) (c v : Bool) (hf : f ∉ [Flag.c, .q, .o]) :
    (s.setAddFlags c v).flag f = s.flag f := by
  obtain ⟨hc, hv⟩ : f ≠ .c ∧ f ∉ [Flag.q, .o] := by simpa using hf
  rw [State.setAddFlags, State.flag_setOverflow _ _ hv, State.flag_setFlag_ne _ _ hc]

theorem State.flag_setSum (s : State) {r : Reg} (sum : Sum) (hr : r ≠ .sts) (hf : f ∉ [Flag.c, .q, .o]) :
    (s.setSum r sum).flag f = s.flag f := by
  rw [State.setSum, State.flag_setAddFlags _ _ _ hf, State.flag_setReg _ _ _ hr]

/-- Under every setting of ARG_ADD_FLAGS an argument addition writes C, Q and O at most (R179). -/
theorem State.flag_setArgFlags (s : State) (a b : Word) (hf : f ∉ [Flag.c, .q, .o]) :
    (s.setArgFlags a b).flag f = s.flag f := by
  obtain ⟨hc, hq, ho⟩ : f ≠ .c ∧ f ≠ .q ∧ f ≠ .o := by simpa using hf
  unfold State.setArgFlags
  split
  · rfl
  · exact State.flag_setAddFlags s _ _ hf
  · simp [hc, hq, ho]

theorem State.flag_setFloatResult (s : State) (out : Config.FloatResult) (hf : f ∉ [Flag.c, .z]) :
    (s.setFloatResult out).flag f = s.flag f := by
  obtain ⟨hc, hz⟩ : f ≠ .c ∧ f ≠ .z := by simpa using hf
  simp [State.setFloatResult, hc, hz]

/-- Replacing one bit of a register keeps a flag, unless the bit is the flag's own bit of STS. -/
theorem State.flag_advance_setReg_putBitOf (s : State) {n : Fin 16} {r : Reg} (b : Bool) (hbit : ¬(r = .sts ∧ n = f.bit)) :
    (s.advance.setReg r (putBitOf (s.reg r) n b)).flag f = s.flag f := by
  by_cases hr : r = .sts
  · subst hr
    have hn : f.bit.val ≠ n.val := fun e => hbit ⟨rfl, Fin.ext e.symm⟩
    rw [State.flag, State.reg_setReg_same, getLsbD_putBitOf, if_neg hn, State.flag]
  · rw [State.flag_setReg _ _ _ hr, State.advance_flag]

/-! ### Shared operations -/

variable {s t : State}

/-- Flags are registers of the state's levels, and a store writes none. -/
theorem storeWords_flag {a : Word} {vs : List Word} (h : storeWords a vs s = .next t) : t.flag f = s.flag f := by
  obtain ⟨hlevels, hlevel, -⟩ := storeWords_spec h
  simp only [State.flag, State.reg, State.regAt, State.blockAt, hlevels, hlevel]

theorem storeAtEa_flag {m : MemRef} {vs : List Word} (h : storeAtEa m vs s = .next t) : t.flag f = s.flag f := by
  obtain ⟨el, -, hstore⟩ := storeAtEa_eq_next.1 h
  rw [storeWords_flag hstore, State.advance_flag]

theorem withOperand_flag {m : MemRef} {k : Word → State} (h : withOperand m s k = .next t)
    (hk : ∀ w, (k w).flag f = s.flag f) : t.flag f = s.flag f := by
  obtain ⟨el, -, -, rfl⟩ := withOperand_eq_next.1 h
  exact hk _

theorem loadReg_flag {r : Reg} {m : MemRef} (h : loadReg r m s = .next t) (hr : r ≠ .sts) : t.flag f = s.flag f :=
  withOperand_flag h fun w => by simp [hr]

theorem floatOp_flag {op : Bool → Bool → Bool → BitVec 48 → BitVec 48 → Config.FloatResult} {m : MemRef}
    (h : floatOp op m s = .next t) (hf : f ∉ [Flag.c, .z]) : t.flag f = s.flag f := by
  obtain ⟨el, -, -, -, -, rfl⟩ := floatOp_eq_next.1 h
  rw [State.flag_setFloatResult _ _ hf, State.advance_flag]

/-- The shape of NLZ and DNZ (R161, R162). -/
theorem convertFloat_flag {out : Config.FloatResult} (h : (.next (s.advance.setFloatResult out) : Result State) = .next t)
    (hf : f ∉ [Flag.c, .z]) : t.flag f = s.flag f := by
  obtain rfl := Host.Outcome.next.inj h
  rw [State.flag_setFloatResult _ _ hf, State.advance_flag]

theorem arithOp_flag {adc ad1 cm1 cld : Bool} {sr : Src} {dr : Dst} (h : arithOp adc ad1 cm1 cld sr dr s = .next t)
    (hf : f ∉ [Flag.c, .q, .o]) : t.flag f = s.flag f := by
  obtain ⟨-, r, hdst, rfl⟩ := arithOp_eq_next.1 h
  exact (State.flag_setSum s.advance _ (destination_ne_sts hdst) hf).trans (State.advance_flag s f)

theorem addArgument_flag {r : Reg} {arg : BitVec 8} (h : addArgument r arg s = .next t) (hr : r ≠ .sts)
    (hf : f ∉ [Flag.c, .q, .o]) : t.flag f = s.flag f := by
  obtain rfl := Host.Outcome.next.inj h
  rw [State.flag_setArgFlags _ _ _ hf, State.flag_setReg _ _ _ hr, State.advance_flag]

theorem setArgument_flag {r : Reg} {arg : BitVec 8} (h : setArgument r arg s = .next t) (hr : r ≠ .sts) :
    t.flag f = s.flag f := by
  obtain rfl := Host.Outcome.next.inj h
  rw [State.flag_setReg _ _ _ hr, State.advance_flag]

theorem logicOp_flag {op : Word → Word → Word} {cm1 cld : Bool} {sr : Src} {dr : Dst}
    (h : logicOp op cm1 cld sr dr s = .next t) : t.flag f = s.flag f := by
  obtain ⟨r, hdst, rfl⟩ := logicOp_eq_next.1 h
  rw [State.flag_setReg _ _ _ (destination_ne_sts hdst), State.advance_flag]

/-- Neither operand of an exchange is STS. -/
theorem swapOp_flag {cm1 cld : Bool} {sr : Src} {dr : Dst} (h : swapOp cm1 cld sr dr s = .next t) :
    t.flag f = s.flag f := by
  obtain ⟨r, hdst, rfl⟩ := swapOp_eq_next.1 h
  rw [State.flag_setReg _ _ _ (destination_ne_sts hdst)]
  cases hsrc : sourceReg sr with
  | none => exact State.advance_flag s f
  | some q => exact (State.flag_setReg _ _ _ (sourceReg_ne_sts hsrc)).trans (State.advance_flag s f)

theorem skipOn_flag {rel : Word → Word → Bool} {sr : Src} {dr : Dst} (h : skipOn rel sr dr s = .next t) :
    t.flag f = s.flag f := by
  obtain ⟨r, -, rfl⟩ := skipOn_eq_next.1 h
  exact State.flag_skipIf ..

theorem writeBit_flag {n : Fin 16} {r : Reg} {b : Bool} (h : writeBit n r b s = .next t)
    (hbit : ¬(r = .sts ∧ n = f.bit)) : t.flag f = s.flag f := by
  obtain ⟨-, rfl⟩ := writeBit_eq_next.1 h
  exact State.flag_advance_setReg_putBitOf s b hbit

theorem storeBit_flag {n : Fin 16} {r : Reg} {b k : Bool} (h : storeBit n r b k s = .next t)
    (hbit : ¬(r = .sts ∧ n = f.bit)) (hk : f ≠ .k) : t.flag f = s.flag f := by
  obtain ⟨-, rfl⟩ := storeBit_eq_next.1 h
  rw [State.flag_setFlag_ne _ _ hk, State.flag_advance_setReg_putBitOf s b hbit]

theorem combineK_flag {op : Bool → Bool → Bool} {n : Fin 16} {r : Reg} (h : combineK op n r s = .next t) (hk : f ≠ .k) :
    t.flag f = s.flag f := by
  obtain ⟨-, rfl⟩ := combineK_eq_next.1 h
  rw [State.flag_setFlag_ne _ _ hk, State.advance_flag]

/-- Count 0 advances only; any other count writes M (R282). -/
theorem shiftReg_flag {r : Reg} {kind : ShiftKind} {count : BitVec 6} (h : shiftReg r kind count s = .next t)
    (hr : r ≠ .sts) (hm : count ≠ 0 → f ≠ .m) : t.flag f = s.flag f := by
  obtain ⟨-, rfl⟩ | ⟨hcount, out, -, rfl⟩ := shiftReg_eq_next.1 h
  · exact State.advance_flag s f
  · rw [State.flag_setFlag_ne _ _ (hm hcount), State.flag_setReg _ _ _ hr, State.advance_flag]

/-! ### Instructions with a meaning of their own -/

theorem execMin_flag {m : MemRef} (h : execMin m s = .next t) : t.flag f = s.flag f := by
  simp only [execMin, andThen_eq_next, storeWord_eq_next] at h
  obtain ⟨el, -, w, -, -, rfl⟩ := h
  rw [State.putWord_flag, State.flag_skipIf]

theorem execLdd_flag {m : MemRef} (h : execLdd m s = .next t) : t.flag f = s.flag f := by
  simp only [execLdd, andThen_eq_next] at h
  obtain ⟨el, -, w, -, ⟨⟩⟩ := h
  simp

theorem execLdf_flag {m : MemRef} (h : execLdf m s = .next t) : t.flag f = s.flag f := by
  simp only [execLdf, andThen_eq_next] at h
  obtain ⟨el, -, w, -, ⟨⟩⟩ := h
  rw [State.flag_setFloat, State.advance_flag]

theorem execJmp_flag {m : MemRef} (h : execJmp m s = .next t) : t.flag f = s.flag f := by
  simp only [execJmp, andThen_eq_next] at h
  obtain ⟨el, -, ⟨⟩⟩ := h
  simp

theorem execJpl_flag {m : MemRef} (h : execJpl m s = .next t) : t.flag f = s.flag f := by
  simp only [execJpl, andThen_eq_next] at h
  obtain ⟨el, -, ⟨⟩⟩ := h
  simp

theorem execRmpy_flag {sr : Src} {dr : Dst} (h : execRmpy sr dr s = .next t) : t.flag f = s.flag f := by
  simp only [execRmpy, andThen_eq_next] at h
  obtain ⟨r, -, ⟨⟩⟩ := h
  rw [State.flag_setDouble, State.advance_flag]

theorem execRdiv_flag {sr : Src} (h : execRdiv sr s = .next t) : t.flag f = s.flag f := by
  simp only [execRdiv, andThen_eq_next] at h
  obtain ⟨qr, -, ⟨⟩⟩ := h
  simp

theorem execLbyt_flag (h : execLbyt s = .next t) : t.flag f = s.flag f := by
  simp only [execLbyt, andThen_eq_next] at h
  obtain ⟨w, -, ⟨⟩⟩ := h
  simp

theorem execSbyt_flag (h : execSbyt s = .next t) : t.flag f = s.flag f := by
  simp only [execSbyt, andThen_eq_next, storeWord_eq_next] at h
  obtain ⟨w, -, -, rfl⟩ := h
  rw [State.putWord_flag, State.advance_flag]

/-- TRA may read STS, and writes A (R300, R302). -/
theorem execTra_flag {r : Fin 16} (h : execTra r s = .next t) : t.flag f = s.flag f := by
  unfold execTra at h
  split at h
  · obtain rfl := Host.Outcome.next.inj h
    simp
  · split at h
    · obtain rfl := Host.Outcome.next.inj h
      simp
    · cases h

/-- SRB reads the STS of its level and writes memory (R152). -/
theorem execSrb_flag {n : Fin 16} (h : execSrb n s = .next t) : t.flag f = s.flag f := by
  simp only [execSrb, andThen_eq_next] at h
  obtain ⟨el, -, hstore⟩ := h
  rw [storeWords_flag hstore, State.drew_flag, State.advance_flag]

theorem execSad_flag {kind : ShiftKind} {count : BitVec 6} (h : execSad kind count s = .next t)
    (hm : count ≠ 0 → f ≠ .m) : t.flag f = s.flag f := by
  unfold execSad at h
  split at h
  next =>
    obtain rfl := Host.Outcome.next.inj h
    exact State.advance_flag s f
  next hcount =>
    obtain ⟨out, -, ⟨⟩⟩ := andThen_eq_next.1 h
    rw [State.flag_setFlag_ne _ _ (hm hcount), State.flag_setDouble, State.advance_flag]

/-- Under every condition BSET writes the addressed bit and no other (R222). -/
theorem execBset_flag {cond : BitCond} {n : Fin 16} {r : Reg} (h : execBset cond n r s = .next t)
    (hbit : ¬(r = .sts ∧ n = f.bit)) : t.flag f = s.flag f := by
  cases cond with
  | zro | one | bac => exact writeBit_flag h hbit
  | bcm =>
    obtain ⟨b, -, hwrite⟩ := andThen_eq_next.1 h
    exact writeBit_flag hwrite hbit

/-- BSKP skips or goes on, under every condition (R223). -/
theorem execBskp_flag {cond : BitCond} {n : Fin 16} {r : Reg} (h : execBskp cond n r s = .next t) :
    t.flag f = s.flag f := by
  obtain ⟨b, -, hskip⟩ := andThen_eq_next.1 h
  cases cond with
  | zro | one | bac =>
    obtain rfl := Host.Outcome.next.inj hskip
    exact State.flag_skipIf ..
  | bcm => cases hskip

end

/-! ### R17's column "written by", read for each class of instructions -/

section
variable {i : Instr} {f : Flag}

theorem mayWrite_of_isBitWriter (hi : isBitWriter f i = true) : mayWrite f i = true := by simp [mayWrite, hi]

theorem mayWrite_of_isLrb (hi : isLrb i = true) : mayWrite f i = true := by simp [mayWrite, hi]

theorem mayWrite_of_isKResult (hi : isKResult i = true) : mayWrite .k i = true := by simp [mayWrite, hi]

theorem mayWrite_of_isShift (hi : isShift i = true) : mayWrite .m i = true := by simp [mayWrite, hi]

theorem mayWrite_of_isAddition (hi : isAddition i = true) : ∀ g ∈ [Flag.c, .q, .o], mayWrite g i = true := by
  simp [mayWrite, hi]

theorem mayWrite_of_isArgumentAddition (hi : isArgumentAddition i = true) :
    ∀ g ∈ [Flag.c, .q, .o], mayWrite g i = true := by
  simp [mayWrite, hi]

theorem mayWrite_of_isMpy (hi : isMpy i = true) : ∀ g ∈ [Flag.q, .o], mayWrite g i = true := by simp [mayWrite, hi]

theorem mayWrite_of_isFloating (hi : isFloating i = true) : ∀ g ∈ [Flag.c, .z], mayWrite g i = true := by
  simp [mayWrite, hi]

/-- A flag that the instruction is no writer of is none of those it writes. -/
theorem not_mem_of_mayWrite {fs : List Flag} (hfs : ∀ g ∈ fs, mayWrite g i = true) (hw : mayWrite f i = false) : f ∉ fs :=
  fun hmem => Bool.false_ne_true (hw.symm.trans (hfs f hmem))

theorem ne_of_mayWrite {g : Flag} (hg : mayWrite g i = true) (hw : mayWrite f i = false) : f ≠ g := by
  rintro rfl
  exact Bool.false_ne_true (hw.symm.trans hg)

/-- BSET, BSTA or BSTC that is no writer of a flag addresses another bit than the flag's. -/
theorem not_own_bit {n : Fin 16} {r : Reg} (hi : isBitWriter f i = (decide (r = .sts) && decide (n = f.bit)))
    (hw : mayWrite f i = false) : ¬(r = .sts ∧ n = f.bit) := by
  rintro ⟨hr, hn⟩
  exact ne_of_mayWrite (mayWrite_of_isBitWriter (by simp [hi, hr, hn])) hw rfl

end

end Sys2Proof.Machine

namespace Sys2Proof.FlagWriters

open Sys2Proof.Machine

/-- Settles O57: for each constructor, the shared operation that it is, with the flags that the operation keeps; where that operation
writes flags, R17 lists the instruction as their writer. -/
theorem flagsAreWrittenOnlyByTheirWriters : Obligations.FlagsAreWrittenOnlyByTheirWriters := by
  intro i s t f h hw
  cases i with
  | stz m | sta m | stt m | stx m | std m | stf m => exact storeAtEa_flag h
  | min m => exact execMin_flag h
  | lda m | ldt m | ldx m => exact loadReg_flag h (by decide)
  | ldd m => exact execLdd_flag h
  | ldf m => exact execLdf_flag h
  | add m | sub m =>
    have hf := not_mem_of_mayWrite (mayWrite_of_isAddition rfl) hw
    exact withOperand_flag h fun w => (State.flag_setSum s.advance _ (by decide) hf).trans (State.advance_flag s f)
  | and m | ora m => exact withOperand_flag h fun w => by simp
  | mpy m =>
    have hf := not_mem_of_mayWrite (mayWrite_of_isMpy rfl) hw
    exact withOperand_flag h fun w => by simp [State.flag_setOverflow _ _ hf]
  | fad m | fsb m | fmu m | fdv m => exact floatOp_flag h (not_mem_of_mayWrite (mayWrite_of_isFloating rfl) hw)
  | nlz scaling | dnz scaling => exact convertFloat_flag h (not_mem_of_mayWrite (mayWrite_of_isFloating rfl) hw)
  | jmp m => exact execJmp_flag h
  | jpl m => exact execJpl_flag h
  | jap disp | jan disp | jaz disp | jaf disp | jxn disp =>
    obtain rfl := Host.Outcome.next.inj h
    exact condJump_flag ..
  | jpc disp | jnc disp =>
    obtain rfl := Host.Outcome.next.inj h
    rw [condJump_flag, incrementX_flag]
  | skpEql sr dr | skpGre sr dr | skpMgre sr dr | skpUeq sr dr | skpLst sr dr | skpMlst sr dr =>
    rw [exec] at h
    exact skipOn_flag h
  | rmpy sr dr => exact execRmpy_flag h
  | rdiv sr => exact execRdiv_flag h
  | lbyt => exact execLbyt_flag h
  | sbyt => exact execSbyt_flag h
  | radd | rsub | copy | ad1 | adc | exit | rclr | rinc | rcdr =>
    rw [exec] at h
    exact arithOp_flag h (not_mem_of_mayWrite (mayWrite_of_isAddition rfl) hw)
  | cld | cm1 | swap => exact swapOp_flag h
  | rand | rexo | rora => exact logicOp_flag h
  | tra r => exact execTra_flag h
  | trr r => cases h
  | srb level => exact execSrb_flag h
  | lrb level => exact absurd rfl (ne_of_mayWrite (mayWrite_of_isLrb rfl) hw)
  | sht kind count | shd kind count | sha kind count =>
    exact shiftReg_flag h (by decide) fun hcount =>
      ne_of_mayWrite (mayWrite_of_isShift (by simpa [isShift] using hcount)) hw
  | sad kind count =>
    exact execSad_flag h fun hcount => ne_of_mayWrite (mayWrite_of_isShift (by simpa [isShift] using hcount)) hw
  | sab arg | saa arg | sat arg | sax arg => exact setArgument_flag h (by decide)
  | aab arg | aaa arg | aat arg | aax arg =>
    exact addArgument_flag h (by decide) (not_mem_of_mayWrite (mayWrite_of_isArgumentAddition rfl) hw)
  | bset cond n r => exact execBset_flag h (not_own_bit rfl hw)
  | bskp cond n r => exact execBskp_flag h
  | bstc n r | bsta n r =>
    exact storeBit_flag h (not_own_bit rfl hw) (ne_of_mayWrite (mayWrite_of_isKResult rfl) hw)
  | bldc n r | blda n r | banc n r | band n r | borc n r | bora n r =>
    rw [exec] at h
    exact combineK_flag h (ne_of_mayWrite (mayWrite_of_isKResult rfl) hw)

end Sys2Proof.FlagWriters
end

section
/-! Argument instructions that set a register (spec/43_argument.md): SAA, SAX, SAT and SAB. Bits 10 to 8 select the instruction, bits 7
to 0 are the argument (R69), and the register is written on the state with P advanced. -/

namespace Sys2Proof.Machine

/-- Sign extension to a word keeps the signed reading (R170). -/
theorem signed8_toInt (v : BitVec 8) : (signed8 v).toInt = v.toInt := BitVec.toInt_signExtend_of_le (by decide)

/-- Setting a register to an argument leaves the signed argument there and changes nothing else but P. -/
theorem setArgument_writes {r : Reg} (hsts : r ≠ .sts) (v : BitVec 8) (s : State) :
    ∃ t, setArgument r v s = .next t ∧ (t.reg r).toInt = v.toInt ∧ Frame [r] [] [] s t :=
  ⟨_, rfl, by rw [State.reg_setReg_same, signed8_toInt], (Frame.refl ..).advance.setReg _ (.inr (by simp)) hsts⟩

theorem exec_saa (v : BitVec 8) (s : State) : exec (.saa v) s = setArgument .a v s := rfl
theorem exec_sax (v : BitVec 8) (s : State) : exec (.sax v) s = setArgument .x v s := rfl
theorem exec_sat (v : BitVec 8) (s : State) : exec (.sat v) s = setArgument .t v s := rfl
theorem exec_sab (v : BitVec 8) (s : State) : exec (.sab v) s = setArgument .b v s := rfl

end Sys2Proof.Machine

namespace Sys2Proof.Argument

open Sys2Proof.Machine Sys2Proof.MemoryReference

/-! ### Decoding a word of format AR (R69): a code in bits 15 to 8, an argument in bits 7 to 0 -/

/-- The argument lies outside the code. -/
theorem bitsOf_placed_above (v : BitVec 8) {lo n : Nat} (hlo : 8 ≤ lo) : bitsOf (placed 0 v) lo n = 0 := by
  refine BitVec.eq_of_getLsbD_eq fun j _ => ?_
  have hv : v.getLsbD (lo + j) = false := BitVec.getLsbD_of_ge v _ (by omega)
  simp [bitsOf, placed, hv]

/-- Adding an argument to a code without one joins them: no carry arises. -/
theorem add_argument {code : Word} (hcode : bitsOf code 0 8 = 0) (v : BitVec 8) :
    code + v.setWidth 16 = code ||| placed 0 v := by
  have hplaced : v.setWidth 16 = placed 0 v := (BitVec.shiftLeft_zero _).symm
  rw [hplaced]
  refine BitVec.add_eq_or_of_and_eq_zero _ _ (BitVec.eq_of_getLsbD_eq fun j _ => ?_)
  by_cases hj : j < 8
  · have hbit : code.getLsbD j = false := by simpa [bitsOf, hj] using congrArg (BitVec.getLsbD · j) hcode
    simp [hbit]
  · simp [placed, BitVec.getLsbD_of_ge v j (by omega)]

/-- The code `code` selects the instruction `instr`: every word of the code's group (bits 15 to 11) and function (bits 10 to 8) is
`instr` with the word's own argument (R69, R75). -/
def SelectsArgument (code : Word) (instr : BitVec 8 → Instr) : Prop :=
  ∀ w, bitsOf w 11 5 = bitsOf code 11 5 → bitsOf w 8 3 = bitsOf code 8 3 → decode w = .ok (instr (bitsOf w 0 8))

/-- A code plus an argument decodes to the instruction that the code selects, with that argument. -/
theorem decode_add_argument {code : Word} {instr : BitVec 8 → Instr} (hsel : SelectsArgument code instr)
    (hcode : bitsOf code 0 8 = 0) (v : BitVec 8) : decode (code + v.setWidth 16) = .ok (instr v) := by
  have habove {lo n : Nat} (hlo : 8 ≤ lo) : bitsOf (code ||| placed 0 v) lo n = bitsOf code lo n := by
    rw [bitsOf_or, bitsOf_placed_above v hlo, BitVec.ofNat_eq_ofNat, BitVec.or_zero]
  have harg : bitsOf (code ||| placed 0 v) 0 8 = v := by
    rw [bitsOf_or, hcode, bitsOf_placed, BitVec.ofNat_eq_ofNat, BitVec.zero_or]
  rw [add_argument hcode, hsel _ (habove (by decide)) (habove (by decide)), harg]

/-- Group 170000 holds the argument instructions (R75). -/
theorem decode_argumentGroup {w : Word} (hgroup : bitsOf w 11 5 = 0o36) : decode w = .ok (decodeArgument w) := by
  rw [decode, hgroup]; rfl

theorem selectsArgument_saa : SelectsArgument 0o170400 .saa := fun w hgroup hfn => by
  rw [decode_argumentGroup hgroup, decodeArgument, hfn]; rfl
theorem selectsArgument_sax : SelectsArgument 0o171400 .sax := fun w hgroup hfn => by
  rw [decode_argumentGroup hgroup, decodeArgument, hfn]; rfl
theorem selectsArgument_sat : SelectsArgument 0o171000 .sat := fun w hgroup hfn => by
  rw [decode_argumentGroup hgroup, decodeArgument, hfn]; rfl
theorem selectsArgument_sab : SelectsArgument 0o170000 .sab := fun w hgroup hfn => by
  rw [decode_argumentGroup hgroup, decodeArgument, hfn]; rfl

/-! ### The statement -/

/-- Settles O20: the four codes, then one register set to the argument for each instruction. -/
theorem setArgumentWritesTheSignedArgument : Obligations.SetArgumentWritesTheSignedArgument := by
  refine ⟨fun v => ⟨?_, ?_, ?_, ?_⟩, fun v s i r h => ?_⟩
  · exact decode_add_argument selectsArgument_saa rfl v
  · exact decode_add_argument selectsArgument_sax rfl v
  · exact decode_add_argument selectsArgument_sat rfl v
  · exact decode_add_argument selectsArgument_sab rfl v
  · simp only [List.mem_cons, List.not_mem_nil, or_false, Prod.mk.injEq] at h
    obtain ⟨rfl, rfl⟩ | ⟨rfl, rfl⟩ | ⟨rfl, rfl⟩ | ⟨rfl, rfl⟩ := h
    · rw [exec_saa]; exact setArgument_writes (by decide) v s
    · rw [exec_sax]; exact setArgument_writes (by decide) v s
    · rw [exec_sat]; exact setArgument_writes (by decide) v s
    · rw [exec_sab]; exact setArgument_writes (by decide) v s

end Sys2Proof.Argument
end

section
/-! Bit instructions whose result is K (spec/45_bit.md): BLDA, BLDC, BANC, BORC, BAND and BORA. Bits 10 to 7 select the instruction,
bits 6 to 3 are the bit number and bits 2 to 0 the register (R70); each combines K with the addressed bit and writes K alone. -/

namespace Sys2Proof.Machine

/-- A flag that the frame lets change may be written. -/
theorem Frame.setFlag {regs : List Reg} {bits : List (Fin 16)} {words : List Word} {s t : State}
    (h : Frame regs bits words s t) {f : Flag} (b : Bool) (hf : f.bit ∈ bits) :
    Frame regs bits words s (t.setFlag f b) where
  level := h.level
  params := h.params
  otherLevels n hn q := by
    have hn' : n ≠ t.level := h.level.symm ▸ hn
    rw [State.regAt_setFlag_other t f b q hn', h.otherLevels n hn q]
  registers q hp hsts hmem := by rw [State.reg_setFlag t f b hsts, h.registers q hp hsts hmem]
  status i hi := by
    have hif : i.val ≠ f.bit.val := fun e => hi (Fin.ext e ▸ hf)
    rw [State.setFlag, State.reg_setReg_same, getLsbD_putBitOf, if_neg hif, h.status i hi]
  memory := h.memory

/-- Combining a defined bit with K leaves the combination in K and changes nothing else but P. -/
theorem combineK_writes {n : Fin 16} {r : Reg} (hdef : bitDefined n r = true) (f : Bool → Bool → Bool) (s : State) :
    ∃ t, combineK f n r s = .next t ∧ t.flag .k = f (s.flag .k) ((s.reg r).getLsbD n.val) ∧
      Frame [] [Flag.bit .k] [] s t :=
  ⟨_, combineK_eq_next.2 ⟨hdef, rfl⟩, State.flag_setFlag_same .., (Frame.refl ..).advance.setFlag _ (by simp)⟩

theorem exec_blda (n : Fin 16) (r : Reg) (s : State) : exec (.blda n r) s = combineK (fun _ b => b) n r s := rfl
theorem exec_bldc (n : Fin 16) (r : Reg) (s : State) : exec (.bldc n r) s = combineK (fun _ b => !b) n r s := rfl
theorem exec_banc (n : Fin 16) (r : Reg) (s : State) : exec (.banc n r) s = combineK (fun k b => k && !b) n r s := rfl
theorem exec_borc (n : Fin 16) (r : Reg) (s : State) : exec (.borc n r) s = combineK (fun k b => k || !b) n r s := rfl
theorem exec_band (n : Fin 16) (r : Reg) (s : State) : exec (.band n r) s = combineK (fun k b => k && b) n r s := rfl
theorem exec_bora (n : Fin 16) (r : Reg) (s : State) : exec (.bora n r) s = combineK (fun k b => k || b) n r s := rfl

end Sys2Proof.Machine

namespace Sys2Proof.BitInstruction

open Sys2Proof.Machine Sys2Proof.MemoryReference

/-! ### Decoding a word of format BO (R70): a code in bits 15 to 7, the addressed bit in bits 6 to 0 -/

/-- A field that a mask covers is 0 in a word with no bit under the mask. -/
theorem bitsOf_eq_zero_of_mask {w mask : Word} {lo n : Nat} (hw : w &&& mask = 0)
    (hmask : bitsOf mask lo n = BitVec.allOnes n) : bitsOf w lo n = 0 :=
  calc bitsOf w lo n
    _ = bitsOf w lo n &&& bitsOf mask lo n := by rw [hmask, BitVec.and_allOnes]
    _ = bitsOf (w &&& mask) lo n := BitVec.extractLsb'_and.symm
    _ = 0 := by rw [hw]; exact BitVec.extractLsb'_zero

theorem fourOf_encBit (n : Fin 16) (r : Reg) : fourOf (encBit n r) = n := by
  cases r <;> revert n <;> decide

theorem regOf_encBit (n : Fin 16) (r : Reg) : regOf (encBit n r) = r := by
  cases r <;> revert n <;> decide

/-- The spec's 10 (octal) times n plus D joins the two fields. -/
theorem encBit_eq_add (n : Fin 16) (r : Reg) : encBit n r = BitVec.ofNat 16 (8 * n.val) + r.num.setWidth 16 := by
  cases r <;> revert n <;> decide

/-- Adding the addressed bit to a code without one joins them: no carry arises. -/
theorem add_encBit {code : Word} (hcode : code &&& 0o177 = 0) (n : Fin 16) (r : Reg) :
    code + encBit n r = code ||| encBit n r := by
  refine BitVec.add_eq_or_of_and_eq_zero _ _ ?_
  have hsplit : code = code &&& 0o177600 :=
    calc code
      _ = code &&& (0o177 ||| 0o177600) := BitVec.and_allOnes.symm
      _ = code &&& 0o177600 := by rw [BitVec.and_or_distrib_left, hcode]; exact BitVec.zero_or
  rw [hsplit, BitVec.and_assoc, BitVec.and_comm 0o177600, Laws.encBit_fixed]
  exact BitVec.and_zero

/-- The code `code` selects the instruction `instr`: every word of the code's group (bits 15 to 11) and function (bits 10 to 7) is
`instr` with the word's own bit number and register (R70, R75). -/
def SelectsBit (code : Word) (instr : Fin 16 → Reg → Instr) : Prop :=
  ∀ w, bitsOf w 11 5 = bitsOf code 11 5 → bitsOf w 7 4 = bitsOf code 7 4 → decode w = .ok (instr (fourOf w) (regOf w))

/-- A code plus an addressed bit decodes to the instruction that the code selects, with that bit. -/
theorem decode_add_encBit {code : Word} {instr : Fin 16 → Reg → Instr} (hsel : SelectsBit code instr)
    (hcode : code &&& 0o177 = 0) (n : Fin 16) (r : Reg) : decode (code + encBit n r) = .ok (instr n r) := by
  have habove {lo k : Nat} (hmask : bitsOf 0o177600 lo k = BitVec.allOnes k) :
      bitsOf (code ||| encBit n r) lo k = bitsOf code lo k := by
    rw [bitsOf_or, bitsOf_eq_zero_of_mask (Laws.encBit_fixed n r) hmask]
    exact BitVec.or_zero
  have hbelow {lo k : Nat} (hmask : bitsOf 0o177 lo k = BitVec.allOnes k) :
      bitsOf (code ||| encBit n r) lo k = bitsOf (encBit n r) lo k := by
    rw [bitsOf_or, bitsOf_eq_zero_of_mask hcode hmask]
    exact BitVec.zero_or
  have hn : fourOf (code ||| encBit n r) = n := by
    rw [fourOf, hbelow (by decide)]; exact fourOf_encBit n r
  have hr : regOf (code ||| encBit n r) = r := by
    rw [regOf, hbelow (by decide)]; exact regOf_encBit n r
  rw [add_encBit hcode, hsel _ (habove (by decide)) (habove (by decide)), hn, hr]

/-- Group 174000 holds the bit instructions (R75). -/
theorem decode_bitGroup {w : Word} (hgroup : bitsOf w 11 5 = 0o37) : decode w = .ok (decodeBit w) := by
  rw [decode, hgroup]; rfl

theorem selectsBit_blda : SelectsBit 0o176600 .blda := fun w hgroup hfn => by
  rw [decode_bitGroup hgroup, decodeBit, hfn]; rfl
theorem selectsBit_bldc : SelectsBit 0o176400 .bldc := fun w hgroup hfn => by
  rw [decode_bitGroup hgroup, decodeBit, hfn]; rfl
theorem selectsBit_banc : SelectsBit 0o177000 .banc := fun w hgroup hfn => by
  rw [decode_bitGroup hgroup, decodeBit, hfn]; rfl
theorem selectsBit_borc : SelectsBit 0o177400 .borc := fun w hgroup hfn => by
  rw [decode_bitGroup hgroup, decodeBit, hfn]; rfl
theorem selectsBit_band : SelectsBit 0o177200 .band := fun w hgroup hfn => by
  rw [decode_bitGroup hgroup, decodeBit, hfn]; rfl
theorem selectsBit_bora : SelectsBit 0o177600 .bora := fun w hgroup hfn => by
  rw [decode_bitGroup hgroup, decodeBit, hfn]; rfl

/-! ### The statement -/

/-- Settles O37: the six codes, then one combination of K with the addressed bit for each instruction. -/
theorem bitLoadsAndCombinesWriteK : Obligations.BitLoadsAndCombinesWriteK := by
  refine ⟨fun n r f hf => ?_, fun n r s b hdef hb i k h => ?_⟩
  · obtain rfl : f = encBit n r := hf.trans (encBit_eq_add n r).symm
    refine ⟨?_, ?_, ?_, ?_, ?_, ?_⟩
    · exact decode_add_encBit selectsBit_blda rfl n r
    · exact decode_add_encBit selectsBit_bldc rfl n r
    · exact decode_add_encBit selectsBit_banc rfl n r
    · exact decode_add_encBit selectsBit_borc rfl n r
    · exact decode_add_encBit selectsBit_band rfl n r
    · exact decode_add_encBit selectsBit_bora rfl n r
  · subst hb
    simp only [List.mem_cons, List.not_mem_nil, or_false, Prod.mk.injEq] at h
    obtain ⟨rfl, rfl⟩ | ⟨rfl, rfl⟩ | ⟨rfl, rfl⟩ | ⟨rfl, rfl⟩ | ⟨rfl, rfl⟩ | ⟨rfl, rfl⟩ := h
    · rw [exec_blda]; exact combineK_writes hdef (fun _ b => b) s
    · rw [exec_bldc]; exact combineK_writes hdef (fun _ b => !b) s
    · rw [exec_banc]; exact combineK_writes hdef (fun k b => k && !b) s
    · rw [exec_borc]; exact combineK_writes hdef (fun k b => k || !b) s
    · rw [exec_band]; exact combineK_writes hdef (fun k b => k && b) s
    · rw [exec_bora]; exact combineK_writes hdef (fun k b => k || b) s

end Sys2Proof.BitInstruction
end

section
/-! The jump to an effective address (spec/46_sequencing.md R250): JMP. The effective address is itself the target, so no word at it has
to exist and P is the one thing written. -/

namespace Sys2Proof.Machine

section
variable {m : MemRef} {s t : State}

theorem exec_jmp (m : MemRef) (s : State) : exec (.jmp m) s = execJmp m s := rfl

/-- A jump asks nothing of memory beyond its effective address. -/
theorem execJmp_eq_next : execJmp m s = .next t ↔ ∃ el, ea m s = .next el ∧ t = s.setReg .p el := by
  simp only [execJmp, andThen_eq_next, Host.Outcome.next.injEq, eq_comm (a := t)]

/-- A jump leaves the effective address in P and changes nothing else. -/
theorem execJmp_writes_p {el : Word} (hea : ea m s = .next el) :
    ∃ u, execJmp m s = .next u ∧ u.reg .p = el ∧ Frame [] [] [] s u :=
  ⟨s.setReg .p el, execJmp_eq_next.2 ⟨el, hea, rfl⟩, State.reg_setReg_same .., (Frame.refl ..).setReg el (.inl rfl) (by decide)⟩

end

end Sys2Proof.Machine

namespace Sys2Proof.Sequencing

open Sys2Proof.Machine Sys2Proof.MemoryReference

theorem selects_jmp : Selects 0o124000 .jmp := fun w h => by rw [decode, h]; rfl

/-- Settles O38: the code, then the write of P. -/
theorem jmpContinuesAtTheEffectiveAddress : Obligations.JmpContinuesAtTheEffectiveAddress := by
  refine ⟨fun m => ?_, fun m s el hea => ?_⟩
  · exact decode_joined selects_jmp rfl m
  · rw [exec_jmp]; exact execJmp_writes_p hea

end Sys2Proof.Sequencing
end

section
/-! What a completing instruction does to the state, said once: every instruction but LRB is a chain of elementary updates, and LRB
replaces one register block. The invariant of every step (spec/20_memory.md R53), the isolation of levels (spec/10_state.md R12), the
stores (R45), the undefined bits of STS (R18) and the default successor (R13) are then each one induction on the chain. -/

namespace Sys2Proof.Machine

/-! ### Chains of elementary updates -/

/-- `t` is reached from `s` by writes of registers and flags of the current level, draws, and, with `stores`, writes of words that
exist. P is advanced first, unless the instruction can transfer (`transfers`); then P may be any of the written registers. -/
inductive Updates (stores transfers : Bool) (s : State) : State → Prop
  | start : transfers = true → Updates stores transfers s s
  | advance : Updates stores transfers s s.advance
  | setReg {t : State} {r : Reg} (v : Word) :
      Updates stores transfers s t → r ≠ .sts → (r = .p → transfers = true) → Updates stores transfers s (t.setReg r v)
  | setFlag {t : State} (f : Flag) (b : Bool) : Updates stores transfers s t → Updates stores transfers s (t.setFlag f b)
  | putWord {t : State} {a : Word} (v : Word) :
      Updates stores transfers s t → stores = true → t.present a = true → Updates stores transfers s (t.putWord a v)
  | drew {t : State} (n : Nat) : Updates stores transfers s t → Updates stores transfers s (t.drew n)

/-! ### What a chain keeps -/

/-- A write of a word that exists keeps the invariant. -/
theorem Inv.putWord {s : State} (h : Machine.Inv s) {a : Word} (v : Word) (ha : s.present a = true) : Machine.Inv (s.putWord a v) := by
  have hstore : storeWords a [v] s = .next (s.putWord a v) :=
    storeWords_cons_eq_next.2 ⟨ha, storeWords_nil_eq_next.2 rfl⟩
  obtain ⟨hwf, hwithin, hparams⟩ := h
  obtain ⟨-, -, -, -, hwf', hwithin'⟩ := storeWords_spec hstore
  exact ⟨hwf' hwf, hwithin' hwithin, hparams⟩

/-- The invariant speaks of memory and the parameters alone. -/
theorem Inv.congr {s t : State} (h : Machine.Inv s) (hmem : t.mem = s.mem) (hparams : t.params = s.params) : Machine.Inv t := by
  unfold Machine.Inv
  rw [hmem, hparams]
  exact h

section
variable {stores transfers : Bool} {s t : State}

theorem Updates.level (h : Updates stores transfers s t) : t.level = s.level := by
  induction h with
  | start | advance => rfl
  | setReg _ _ _ _ ih | setFlag _ _ _ ih | putWord _ _ _ _ ih | drew _ _ ih => exact ih

theorem Updates.params (h : Updates stores transfers s t) : t.params = s.params := by
  induction h with
  | start | advance => rfl
  | setReg _ _ _ _ ih | setFlag _ _ _ ih | putWord _ _ _ _ ih | drew _ _ ih => exact ih

theorem Updates.otherLevels (h : Updates stores transfers s t) {n : Fin 16} (hn : n ≠ s.level) (q : Reg) :
    t.regAt n q = s.regAt n q := by
  induction h with
  | start => rfl
  | advance => exact State.advance_regAt_other s q hn
  | setReg v h _ _ ih => rw [State.regAt_setReg_other _ _ _ _ (h.level ▸ hn), ih]
  | setFlag f b h ih => rw [State.regAt_setFlag_other _ _ _ _ (h.level ▸ hn), ih]
  | putWord _ _ _ _ ih | drew _ _ ih => exact ih

theorem Updates.mem (h : Updates false transfers s t) : t.mem = s.mem := by
  induction h with
  | start | advance => rfl
  | setReg _ _ _ _ ih | setFlag _ _ _ ih | drew _ _ ih => exact ih
  | putWord _ _ hstores => cases hstores

theorem Updates.inv (h : Updates stores transfers s t) (hs : Machine.Inv s) : Machine.Inv t := by
  induction h with
  | start => exact hs
  | advance => exact hs.congr rfl rfl
  | setReg _ _ _ _ ih | setFlag _ _ _ ih | drew _ _ ih => exact ih.congr rfl rfl
  | putWord v _ _ ha ih => exact ih.putWord v ha

/-- Without a transfer P is written once, by the advance. -/
theorem Updates.p (h : Updates stores false s t) : t.reg .p = s.reg .p + 1 := by
  induction h with
  | start htransfers => cases htransfers
  | advance => exact State.advance_p s
  | @setReg _ r v _ _ hp ih =>
    have hr : Reg.p ≠ r := fun e => Bool.false_ne_true (hp e.symm)
    rw [State.reg_setReg_ne _ _ hr, ih]
  | setFlag f b _ ih => rw [State.reg_setFlag _ _ _ (by decide), ih]
  | putWord _ _ _ _ ih | drew _ _ ih => exact ih

theorem Flag.bit_ne_undefined (f : Flag) {j : Fin 16} (hj : j = 0 ∨ 8 ≤ j.val) : j.val ≠ f.bit.val := by
  cases f <;> revert j <;> decide

/-- A chain writes STS flag by flag, and no flag is an undefined bit. -/
theorem Updates.undefinedBits (h : Updates stores transfers s t) {j : Fin 16} (hj : j = 0 ∨ 8 ≤ j.val) :
    (t.reg .sts).getLsbD j.val = (s.reg .sts).getLsbD j.val := by
  induction h with
  | start => rfl
  | advance => rw [State.advance_reg s (by decide)]
  | setReg v _ hr _ ih => rw [State.reg_setReg_ne _ _ hr.symm, ih]
  | setFlag f b _ ih => rw [State.setFlag, State.reg_setReg_same, getLsbD_putBitOf, if_neg (f.bit_ne_undefined hj), ih]
  | putWord _ _ _ _ ih | drew _ _ ih => exact ih

/-! ### Composite updates are chains -/

theorem Updates.skipIf (c : Bool) : Updates stores true s (s.skipIf c) := by
  cases c with
  | false => exact .advance
  | true => exact .setReg _ (.start rfl) (by decide) fun _ => rfl

theorem Updates.condJump (h : Updates stores true s t) (c : Bool) (disp : BitVec 8) : Updates stores true s (condJump c disp t) := by
  cases c <;> exact .setReg _ h (by decide) fun _ => rfl

theorem Updates.setOverflow (h : Updates stores transfers s t) (v : Bool) : Updates stores transfers s (t.setOverflow v) :=
  .setFlag _ _ (.setFlag _ _ h)

theorem Updates.setAddFlags (h : Updates stores transfers s t) (c v : Bool) : Updates stores transfers s (t.setAddFlags c v) :=
  (h.setFlag .c c).setOverflow v

theorem Updates.setArgFlags (h : Updates stores transfers s t) (a b : Word) : Updates stores transfers s (t.setArgFlags a b) := by
  unfold State.setArgFlags
  split
  · exact h
  · exact h.setAddFlags _ _
  · exact (((h.setFlag _ _).setFlag _ _).setFlag _ _).drew 3

/-- A write of a register that is neither STS nor P. -/
theorem Updates.setData (h : Updates stores transfers s t) {r : Reg} (v : Word) (hr : r ≠ .sts ∧ r ≠ .p := by decide) :
    Updates stores transfers s (t.setReg r v) :=
  h.setReg v hr.1 fun hp => absurd hp hr.2

theorem Updates.setDouble (h : Updates stores transfers s t) (v : BitVec 32) : Updates stores transfers s (t.setDouble v) :=
  (h.setData (r := .a) _).setData (r := .d) _

theorem Updates.setFloat (h : Updates stores transfers s t) (v : BitVec 48) : Updates stores transfers s (t.setFloat v) :=
  ((h.setData (r := .t) _).setData (r := .a) _).setData (r := .d) _

theorem Updates.setFloatResult (h : Updates stores transfers s t) (out : Config.FloatResult) :
    Updates stores transfers s (t.setFloatResult out) :=
  ((h.setFloat out.tad).setFlag _ _).setFlag _ _

/-- The defined bits of STS are the bits of the flags (R16). -/
theorem exists_flag_of_bitDefined {n : Fin 16} (h : bitDefined n .sts = true) : ∃ f : Flag, f.bit = n := by
  have hflags : ∀ n : Fin 16, bitDefined n .sts = true → ∃ f ∈ [Flag.tg, .k, .z, .q, .o, .c, .m], f.bit = n := by decide
  obtain ⟨f, -, hf⟩ := hflags n h
  exact ⟨f, hf⟩

/-- Replacing a defined bit is a flag write where the register is STS, and a register write elsewhere. -/
theorem Updates.putBitOf {n : Fin 16} {r : Reg} (hdef : bitDefined n r = true) (b : Bool) (hp : r = .p → transfers = true) :
    Updates stores transfers s (s.advance.setReg r (putBitOf (s.reg r) n b)) := by
  by_cases hr : r = .sts
  · subst hr
    obtain ⟨f, rfl⟩ := exists_flag_of_bitDefined hdef
    rw [← State.advance_reg s (r := .sts) (by decide)]
    exact .setFlag f b .advance
  · exact .setReg _ .advance hr hp

/-! ### Shared operations are chains -/

theorem storeWords_updates {vs : List Word} {a : Word} {u : State} (h : storeWords a vs u = .next t)
    (hu : Updates true transfers s u) : Updates true transfers s t := by
  induction vs generalizing a u with
  | nil => exact storeWords_nil_eq_next.1 h ▸ hu
  | cons v vs ih =>
    obtain ⟨ha, hrest⟩ := storeWords_cons_eq_next.1 h
    exact ih hrest (hu.putWord v rfl ha)

theorem storeAtEa_updates {m : MemRef} {vs : List Word} (h : storeAtEa m vs s = .next t) : Updates true transfers s t := by
  obtain ⟨el, -, hstore⟩ := storeAtEa_eq_next.1 h
  exact storeWords_updates hstore .advance

theorem withOperand_updates {m : MemRef} {k : Word → State} (h : withOperand m s k = .next t)
    (hk : ∀ w, Updates stores transfers s (k w)) : Updates stores transfers s t := by
  obtain ⟨el, -, -, rfl⟩ := withOperand_eq_next.1 h
  exact hk _

theorem loadReg_updates {r : Reg} {m : MemRef} (h : loadReg r m s = .next t) (hr : r ≠ .sts ∧ r ≠ .p) :
    Updates stores transfers s t :=
  withOperand_updates h fun _ => Updates.advance.setData _ hr

theorem floatOp_updates {op : Bool → Bool → Bool → BitVec 48 → BitVec 48 → Config.FloatResult} {m : MemRef}
    (h : floatOp op m s = .next t) : Updates stores transfers s t := by
  obtain ⟨el, -, -, -, -, rfl⟩ := floatOp_eq_next.1 h
  exact Updates.advance.setFloatResult _

/-- A destination field names P exactly where it is P. -/
theorem destination_p {dr : Dst} (h : destination dr = .next .p) : dr = .p := by
  cases dr <;> cases h
  rfl

theorem sourceReg_p {sr : Src} (h : sourceReg sr = some .p) : sr = .p := by
  cases sr <;> cases h
  rfl

theorem arithOp_updates {adc ad1 cm1 cld : Bool} {sr : Src} {dr : Dst} (h : arithOp adc ad1 cm1 cld sr dr s = .next t)
    (hp : dr = .p → transfers = true) : Updates stores transfers s t := by
  obtain ⟨-, r, hdst, rfl⟩ := arithOp_eq_next.1 h
  have hr : r = .p → transfers = true := fun e => hp (destination_p (e ▸ hdst))
  exact (Updates.advance.setReg _ (destination_ne_sts hdst) hr).setAddFlags _ _

theorem logicOp_updates {op : Word → Word → Word} {cm1 cld : Bool} {sr : Src} {dr : Dst}
    (h : logicOp op cm1 cld sr dr s = .next t) (hp : dr = .p → transfers = true) : Updates stores transfers s t := by
  obtain ⟨r, hdst, rfl⟩ := logicOp_eq_next.1 h
  have hr : r = .p → transfers = true := fun e => hp (destination_p (e ▸ hdst))
  exact Updates.advance.setReg _ (destination_ne_sts hdst) hr

theorem swapOp_updates {cm1 cld : Bool} {sr : Src} {dr : Dst} (h : swapOp cm1 cld sr dr s = .next t)
    (hp : dr = .p ∨ sr = .p → transfers = true) : Updates stores transfers s t := by
  obtain ⟨r, hdst, rfl⟩ := swapOp_eq_next.1 h
  have hr : r = .p → transfers = true := fun e => hp (.inl (destination_p (e ▸ hdst)))
  refine Updates.setReg _ ?_ (destination_ne_sts hdst) hr
  cases hsrc : sourceReg sr with
  | none => exact .advance
  | some q => exact Updates.advance.setReg _ (sourceReg_ne_sts hsrc) fun e => hp (.inr (sourceReg_p (e ▸ hsrc)))

theorem skipOn_updates {rel : Word → Word → Bool} {sr : Src} {dr : Dst} (h : skipOn rel sr dr s = .next t) :
    Updates stores true s t := by
  obtain ⟨r, -, rfl⟩ := skipOn_eq_next.1 h
  exact .skipIf _

theorem writeBit_updates {n : Fin 16} {r : Reg} {b : Bool} (h : writeBit n r b s = .next t)
    (hp : r = .p → transfers = true) : Updates stores transfers s t := by
  obtain ⟨hdef, rfl⟩ := writeBit_eq_next.1 h
  exact .putBitOf hdef b hp

theorem storeBit_updates {n : Fin 16} {r : Reg} {b k : Bool} (h : storeBit n r b k s = .next t)
    (hp : r = .p → transfers = true) : Updates stores transfers s t := by
  obtain ⟨hdef, rfl⟩ := storeBit_eq_next.1 h
  exact (Updates.putBitOf hdef b hp).setFlag .k k

theorem combineK_updates {op : Bool → Bool → Bool} {n : Fin 16} {r : Reg} (h : combineK op n r s = .next t) :
    Updates stores transfers s t := by
  obtain ⟨-, rfl⟩ := combineK_eq_next.1 h
  exact Updates.advance.setFlag _ _

theorem shiftReg_updates {r : Reg} {kind : ShiftKind} {count : BitVec 6} (h : shiftReg r kind count s = .next t)
    (hr : r ≠ .sts ∧ r ≠ .p) : Updates stores transfers s t := by
  obtain ⟨-, rfl⟩ | ⟨-, out, -, rfl⟩ := shiftReg_eq_next.1 h
  · exact .advance
  · exact (Updates.advance.setData _ hr).setFlag _ _

theorem setArgument_updates {r : Reg} {arg : BitVec 8} (h : setArgument r arg s = .next t) (hr : r ≠ .sts ∧ r ≠ .p) :
    Updates stores transfers s t := by
  obtain rfl := Host.Outcome.next.inj h
  exact Updates.advance.setData _ hr

theorem addArgument_updates {r : Reg} {arg : BitVec 8} (h : addArgument r arg s = .next t) (hr : r ≠ .sts ∧ r ≠ .p) :
    Updates stores transfers s t := by
  obtain rfl := Host.Outcome.next.inj h
  exact (Updates.advance.setData _ hr).setArgFlags _ _

/-! ### Instructions with a meaning of their own are chains -/

theorem execMin_updates {m : MemRef} (h : execMin m s = .next t) : Updates true true s t := by
  simp only [execMin, andThen_eq_next, storeWord_eq_next] at h
  obtain ⟨el, -, w, -, hp, rfl⟩ := h
  exact (Updates.skipIf _).putWord _ rfl hp

theorem execLdd_updates {m : MemRef} (h : execLdd m s = .next t) : Updates stores transfers s t := by
  simp only [execLdd, andThen_eq_next] at h
  obtain ⟨el, -, w, -, ⟨⟩⟩ := h
  exact (Updates.advance.setData (r := .a) _).setData (r := .d) _

theorem execLdf_updates {m : MemRef} (h : execLdf m s = .next t) : Updates stores transfers s t := by
  simp only [execLdf, andThen_eq_next] at h
  obtain ⟨el, -, w, -, ⟨⟩⟩ := h
  exact Updates.advance.setFloat _

theorem execJmp_updates {m : MemRef} (h : execJmp m s = .next t) : Updates stores true s t := by
  obtain ⟨el, -, rfl⟩ := execJmp_eq_next.1 h
  exact .setReg _ (.start rfl) (by decide) fun _ => rfl

theorem execJpl_updates {m : MemRef} (h : execJpl m s = .next t) : Updates stores true s t := by
  simp only [execJpl, andThen_eq_next] at h
  obtain ⟨el, -, ⟨⟩⟩ := h
  exact .setReg _ ((Updates.start rfl).setData (r := .l) _) (by decide) fun _ => rfl

theorem execRmpy_updates {sr : Src} {dr : Dst} (h : execRmpy sr dr s = .next t) : Updates stores transfers s t := by
  simp only [execRmpy, andThen_eq_next] at h
  obtain ⟨r, -, ⟨⟩⟩ := h
  exact Updates.advance.setDouble _

theorem execRdiv_updates {sr : Src} (h : execRdiv sr s = .next t) : Updates stores transfers s t := by
  simp only [execRdiv, andThen_eq_next] at h
  obtain ⟨qr, -, ⟨⟩⟩ := h
  exact (Updates.advance.setData (r := .a) _).setData (r := .d) _

theorem execLbyt_updates (h : execLbyt s = .next t) : Updates stores transfers s t := by
  simp only [execLbyt, andThen_eq_next] at h
  obtain ⟨w, -, ⟨⟩⟩ := h
  exact Updates.advance.setData (r := .a) _

theorem execSbyt_updates (h : execSbyt s = .next t) : Updates true transfers s t := by
  simp only [execSbyt, andThen_eq_next, storeWord_eq_next] at h
  obtain ⟨w, -, hp, rfl⟩ := h
  exact Updates.advance.putWord _ rfl hp

theorem execTra_updates {r : Fin 16} (h : execTra r s = .next t) : Updates stores transfers s t := by
  unfold execTra at h
  split at h
  · obtain rfl := Host.Outcome.next.inj h
    exact (Updates.advance.setData (r := .a) _).drew 1
  · split at h
    · obtain rfl := Host.Outcome.next.inj h
      exact (Updates.advance.setData (r := .a) _).drew 1
    · cases h

theorem execSrb_updates {n : Fin 16} (h : execSrb n s = .next t) : Updates true transfers s t := by
  obtain ⟨el, -, hstore⟩ := andThen_eq_next.1 h
  exact storeWords_updates hstore (.drew 1 .advance)

theorem execSad_updates {kind : ShiftKind} {count : BitVec 6} (h : execSad kind count s = .next t) :
    Updates stores transfers s t := by
  unfold execSad at h
  split at h
  · obtain rfl := Host.Outcome.next.inj h
    exact .advance
  · obtain ⟨out, -, ⟨⟩⟩ := andThen_eq_next.1 h
    exact (Updates.advance.setDouble _).setFlag _ _

theorem execBset_updates {cond : BitCond} {n : Fin 16} {r : Reg} (h : execBset cond n r s = .next t)
    (hp : r = .p → transfers = true) : Updates stores transfers s t := by
  cases cond with
  | zro | one | bac => exact writeBit_updates h hp
  | bcm =>
    obtain ⟨b, -, hwrite⟩ := andThen_eq_next.1 h
    exact writeBit_updates hwrite hp

theorem execBskp_updates {cond : BitCond} {n : Fin 16} {r : Reg} (h : execBskp cond n r s = .next t) :
    Updates stores true s t := by
  obtain ⟨b, -, hskip⟩ := andThen_eq_next.1 h
  cases cond with
  | zro | one | bac =>
    obtain rfl := Host.Outcome.next.inj hskip
    exact .skipIf _
  | bcm => cases hskip

/-- Every instruction but LRB is a chain of updates: it writes memory only where it is a store, and leaves P at another place than the
next word only where it can transfer. -/
theorem exec_updates {i : Instr} (h : exec i s = .next t) (hi : isLrb i = false) :
    Updates (isStore i) (mayTransfer s.level i) s t := by
  cases i with
  | stz m | sta m | stt m | stx m | std m | stf m => exact storeAtEa_updates h
  | min m => exact execMin_updates h
  | lda m | ldt m | ldx m => exact loadReg_updates h (by decide)
  | ldd m => exact execLdd_updates h
  | ldf m => exact execLdf_updates h
  | add m | sub m => exact withOperand_updates h fun w => (Updates.advance.setData (r := .a) _).setAddFlags _ _
  | and m | ora m => exact withOperand_updates h fun w => Updates.advance.setData (r := .a) _
  | mpy m => exact withOperand_updates h fun w => (Updates.advance.setData (r := .a) _).setOverflow _
  | fad m | fsb m | fmu m | fdv m => exact floatOp_updates h
  | nlz scaling | dnz scaling =>
    obtain rfl := Host.Outcome.next.inj h
    exact Updates.advance.setFloatResult _
  | jmp m => exact execJmp_updates h
  | jpl m => exact execJpl_updates h
  | jap disp | jan disp | jaz disp | jaf disp | jxn disp =>
    obtain rfl := Host.Outcome.next.inj h
    exact (Updates.start rfl).condJump _ disp
  | jpc disp | jnc disp =>
    obtain rfl := Host.Outcome.next.inj h
    exact ((Updates.start rfl).setData (r := .x) _).condJump _ disp
  | skpEql | skpGre | skpMgre | skpUeq | skpLst | skpMlst =>
    rw [exec] at h
    exact skipOn_updates h
  | rmpy sr dr => exact execRmpy_updates h
  | rdiv sr => exact execRdiv_updates h
  | lbyt => exact execLbyt_updates h
  | sbyt => exact execSbyt_updates h
  | radd | rsub | copy | ad1 | adc | rclr | rinc | rcdr =>
    rw [exec] at h
    exact arithOp_updates h fun hp => by simpa [mayTransfer] using hp
  | exit =>
    rw [exec] at h
    exact arithOp_updates h fun _ => rfl
  | cld | cm1 | swap => exact swapOp_updates h fun hp => by simpa [mayTransfer] using hp
  | rand | rexo | rora => exact logicOp_updates h fun hp => by simpa [mayTransfer] using hp
  | tra r => exact execTra_updates h
  | trr r => cases h
  | srb level => exact execSrb_updates h
  | lrb level => cases hi
  | sht | shd | sha => exact shiftReg_updates h (by decide)
  | sad kind count => exact execSad_updates h
  | sab arg | saa arg | sat arg | sax arg => exact setArgument_updates h (by decide)
  | aab arg | aaa arg | aat arg | aax arg => exact addArgument_updates h (by decide)
  | bset cond n r => exact execBset_updates h fun hp => by simpa [mayTransfer] using hp
  | bskp cond n r => exact execBskp_updates h
  | bstc n r | bsta n r => exact storeBit_updates h fun hp => by simpa [mayTransfer] using hp
  | bldc n r | blda n r | banc n r | band n r | borc n r | bora n r =>
    rw [exec] at h
    exact combineK_updates h

/-! ### LRB and the step -/

/-- LRB advances P and replaces the named block, of STS the flags alone (R151). -/
theorem exec_lrb_eq_next {n : Fin 16} : exec (.lrb n) s = .next t ↔ blockRefused n s = false ∧
    ∃ rb, loadBlock s (s.reg .x) = .next rb ∧
      t = s.advance.setBlockAt n { rb with sts := mergeSts rb.sts (s.regAt n .sts) } := by
  simp only [exec, execLrb, andThen_eq_next, blockAddress_eq_next]
  constructor
  · rintro ⟨_, ⟨hlevel, rfl⟩, rb, hload, h⟩
    exact ⟨hlevel, rb, hload, (Host.Outcome.next.inj h).symm⟩
  · rintro ⟨hlevel, rb, hload, rfl⟩
    exact ⟨_, ⟨hlevel, rfl⟩, rb, hload, rfl⟩

/-- An instruction is LRB of some level, or not LRB. -/
theorem eq_lrb_or_not (i : Instr) : (∃ n, i = .lrb n) ∨ isLrb i = false := by
  cases i with
  | lrb n => exact .inl ⟨n, rfl⟩
  | _ => exact .inr rfl

/-- A step goes on only by executing the instruction that the word at P decodes to. -/
theorem step_eq_next : step s = .next t ↔
    s.present (s.reg .p) = true ∧ ∃ i, decode (s.wordAt (s.reg .p)) = .ok i ∧ exec i s = .next t := by
  simp only [step, andThen_eq_next, loadWord_eq_next]
  constructor
  · rintro ⟨_, ⟨hp, rfl⟩, h⟩
    cases hdec : decode (s.wordAt (s.reg .p)) with
    | ok i => exact ⟨hp, i, rfl, by simpa [hdec] using h⟩
    | error e => simp [hdec] at h
  · rintro ⟨hp, i, hdec, h⟩
    exact ⟨_, ⟨hp, rfl⟩, by simpa [hdec] using h⟩

/-- Of the two words that an STS word is joined from, the flags come from the first and the other bits from the second. -/
theorem getLsbD_mergeSts (flags rest : Word) (j : Fin 16) : (mergeSts flags rest).getLsbD j.val =
    if 1 ≤ j.val ∧ j.val ≤ 7 then flags.getLsbD j.val else rest.getLsbD j.val := by
  have hmask : ∀ j : Fin 16, stsMask.getLsbD j.val = decide (1 ≤ j.val ∧ j.val ≤ 7) := by decide
  rw [mergeSts, BitVec.getLsbD_or, BitVec.getLsbD_and, BitVec.getLsbD_and, BitVec.getLsbD_not, hmask]
  split
  next h => simp [h]
  next h => simp [h]

end

end Sys2Proof.Machine

namespace Sys2Proof.Effects

open Sys2Proof.Machine

/-- Settles O53: nothing is listed in memory after reset. -/
theorem resetMeetsTheInvariant : Obligations.ResetMeetsTheInvariant := ⟨rfl, rfl, rfl⟩

/-- Settles O54: a chain of updates keeps the invariant, and LRB touches neither memory nor the parameters. -/
theorem everyStepKeepsTheInvariant : Obligations.EveryStepKeepsTheInvariant := by
  intro s t hs h
  obtain ⟨-, i, -, h⟩ := step_eq_next.1 h
  obtain ⟨n, rfl⟩ | hi := eq_lrb_or_not i
  · obtain ⟨-, rb, -, rfl⟩ := exec_lrb_eq_next.1 h
    exact hs.congr rfl rfl
  · exact (exec_updates h hi).inv hs

/-- Settles O55: a chain of updates stays on the current level, and LRB writes P of it and the block it names. -/
theorem levelsAreSeparateContexts : Obligations.LevelsAreSeparateContexts := by
  intro i s t h
  obtain ⟨k, rfl⟩ | hi := eq_lrb_or_not i
  · obtain ⟨-, rb, -, rfl⟩ := exec_lrb_eq_next.1 h
    refine ⟨rfl, rfl, fun n hn hne r => ?_⟩
    have hnk : n ≠ k := fun e => hne (e ▸ rfl)
    rw [State.regAt, State.blockAt_setBlockAt_ne _ _ hnk]
    exact State.advance_regAt_other s r hn
  · have hupd := exec_updates h hi
    exact ⟨hupd.level, hupd.params, fun n hn _ r => hupd.otherLevels hn r⟩

/-- Settles O56: only the stores are chains with a write of a word. -/
theorem onlyStoresWriteMemory : Obligations.OnlyStoresWriteMemory := by
  intro i s t h hstore k
  obtain ⟨n, rfl⟩ | hi := eq_lrb_or_not i
  · obtain ⟨-, rb, -, rfl⟩ := exec_lrb_eq_next.1 h
    exact State.byteAt_of_mem rfl k
  · exact State.byteAt_of_mem (hstore ▸ exec_updates h hi).mem k

/-- Settles O58: a chain writes STS of the current level flag by flag, and LRB keeps the other bits of the STS it loads. -/
theorem undefinedStatusBitsAreNeverWritten : Obligations.UndefinedStatusBitsAreNeverWritten := by
  intro s t n j h hj
  obtain ⟨-, i, -, h⟩ := step_eq_next.1 h
  obtain ⟨k, rfl⟩ | hi := eq_lrb_or_not i
  · obtain ⟨-, rb, -, rfl⟩ := exec_lrb_eq_next.1 h
    by_cases hn : n = k
    · subst hn
      have hundef : ¬(1 ≤ j.val ∧ j.val ≤ 7) := by omega
      rw [State.regAt, State.blockAt_setBlockAt_same]
      exact (getLsbD_mergeSts ..).trans (if_neg hundef)
    · rw [State.regAt, State.blockAt_setBlockAt_ne _ _ hn, ← State.regAt]
      by_cases hlevel : n = s.level
      · subst hlevel
        exact Updates.undefinedBits (stores := false) (transfers := false) .advance hj
      · rw [State.advance_regAt_other s .sts hlevel]
  · have hupd := exec_updates h hi
    by_cases hlevel : n = s.level
    · have hbit := hupd.undefinedBits hj
      rwa [State.reg, State.reg, hupd.level, ← hlevel] at hbit
    · rw [hupd.otherLevels hlevel]

/-- Settles O59: without a transfer a chain advances P, and LRB of another level does. -/
theorem otherInstructionsGoOnAtTheNextWord : Obligations.OtherInstructionsGoOnAtTheNextWord := by
  intro i s t h htransfer
  obtain ⟨n, rfl⟩ | hi := eq_lrb_or_not i
  · obtain ⟨-, rb, -, rfl⟩ := exec_lrb_eq_next.1 h
    have hlevel : s.level ≠ n := by simpa [mayTransfer, eq_comm] using htransfer
    calc _ = s.advance.reg .p := congrArg (RegBlock.get · .p) (State.blockAt_setBlockAt_ne _ _ hlevel)
      _ = s.reg .p + 1 := State.advance_p s
  · exact (htransfer ▸ exec_updates h hi).p

end Sys2Proof.Effects
end

section
/-! Isolation of levels (spec/10_state.md R12, decision D29): every value an instruction but SRB reads is one of the current level, of
memory, of the parameters or a draw, and every update of two states that agree on these leaves two that agree on them. -/

namespace Sys2Proof.Machine

section
variable {s s' : State}

/-! ### What two such states read alike -/

theorem SameOnCurrentLevel.block (h : SameOnCurrentLevel s s') : s'.blockAt s'.level = s.blockAt s.level := h.2.2.2.2.symm
theorem SameOnCurrentLevel.levels (h : SameOnCurrentLevel s s') : s'.level = s.level := h.1.symm
theorem SameOnCurrentLevel.memory (h : SameOnCurrentLevel s s') : s'.mem = s.mem := h.2.1.symm
theorem SameOnCurrentLevel.settings (h : SameOnCurrentLevel s s') : s'.params = s.params := h.2.2.1.symm
theorem SameOnCurrentLevel.drawn (h : SameOnCurrentLevel s s') : s'.draws = s.draws := h.2.2.2.1.symm

theorem SameOnCurrentLevel.reg (h : SameOnCurrentLevel s s') (r : Reg) : s'.reg r = s.reg r := by
  rw [State.reg, State.regAt, h.block, State.reg, State.regAt]

theorem SameOnCurrentLevel.flag (h : SameOnCurrentLevel s s') (f : Flag) : s'.flag f = s.flag f := by
  rw [State.flag, h.reg, State.flag]

theorem SameOnCurrentLevel.loadWord (h : SameOnCurrentLevel s s') (a : Word) : loadWord s' a = loadWord s a := by
  rw [Machine.loadWord, State.present_of_params h.settings, State.wordAt_of_mem h.memory, Machine.loadWord]

theorem SameOnCurrentLevel.ea (h : SameOnCurrentLevel s s') (m : MemRef) : ea m s' = ea m s := by
  simp only [Machine.ea, eaIndirect, eaBase, h.reg, h.loadWord]

theorem SameOnCurrentLevel.sourceValue (h : SameOnCurrentLevel s s') (sr : Src) : sourceValue sr s' = sourceValue sr s := by
  simp only [Machine.sourceValue, h.reg]

theorem SameOnCurrentLevel.sourceOperand (h : SameOnCurrentLevel s s') (cm1 : Bool) (sr : Src) :
    sourceOperand cm1 sr s' = sourceOperand cm1 sr s := by
  simp only [Machine.sourceOperand, h.sourceValue]

theorem SameOnCurrentLevel.destOperand (h : SameOnCurrentLevel s s') (cld : Bool) (r : Reg) :
    destOperand cld r s' = destOperand cld r s := by
  simp only [Machine.destOperand, h.reg]

theorem SameOnCurrentLevel.getBit (h : SameOnCurrentLevel s s') (n : Fin 16) (r : Reg) : getBit n r s' = getBit n r s := by
  simp only [Machine.getBit, h.reg]

theorem SameOnCurrentLevel.byteWord (h : SameOnCurrentLevel s s') : byteWord s' = byteWord s := by
  simp only [Machine.byteWord, h.reg, h.settings]

theorem SameOnCurrentLevel.byteRight (h : SameOnCurrentLevel s s') : byteRight s' = byteRight s := by
  simp only [Machine.byteRight, h.reg]

theorem SameOnCurrentLevel.shifted (h : SameOnCurrentLevel s s') {w : Nat} (kind : ShiftKind) (count : BitVec 6) (v : BitVec w) :
    shifted s' kind count v = shifted s kind count v := by
  have href : linRefused kind count s' = linRefused kind count s := by rw [linRefused, h.settings, linRefused]
  rw [Machine.shifted, href, h.flag, h.settings, Machine.shifted]

theorem SameOnCurrentLevel.blockAddress (h : SameOnCurrentLevel s s') (n : Fin 16) : blockAddress n s' = blockAddress n s := by
  have href : blockRefused n s' = blockRefused n s := by rw [blockRefused, h.settings, h.levels, blockRefused]
  rw [Machine.blockAddress, href, h.reg, Machine.blockAddress]

/-! ### Updates of two such states -/

theorem SameOnCurrentLevel.setBlockAt (h : SameOnCurrentLevel s s') {n : Fin 16} {rb rb' : RegBlock}
    (hrb : n = s.level → rb' = rb) : SameOnCurrentLevel (s.setBlockAt n rb) (s'.setBlockAt n rb') := by
  refine ⟨h.levels.symm, h.memory.symm, h.settings.symm, h.drawn.symm, ?_⟩
  rw [State.setBlockAt_level, State.setBlockAt_level, h.levels]
  by_cases hn : n = s.level
  · subst hn
    rw [State.blockAt_setBlockAt_same, State.blockAt_setBlockAt_same, hrb rfl]
  · rw [State.blockAt_setBlockAt_ne _ _ (Ne.symm hn), State.blockAt_setBlockAt_ne _ _ (Ne.symm hn), ← h.block, h.levels]

theorem SameOnCurrentLevel.setReg (h : SameOnCurrentLevel s s') (r : Reg) (v : Word) :
    SameOnCurrentLevel (s.setReg r v) (s'.setReg r v) := by
  rw [State.setReg, State.setReg, State.setRegAt, State.setRegAt, h.block, h.levels]
  exact h.setBlockAt fun _ => rfl

theorem SameOnCurrentLevel.putWord (h : SameOnCurrentLevel s s') (a v : Word) :
    SameOnCurrentLevel (s.putWord a v) (s'.putWord a v) := by
  refine ⟨h.levels.symm, ?_, h.settings.symm, h.drawn.symm, h.block.symm⟩
  simp only [State.putWord, State.putByte, h.memory]

theorem SameOnCurrentLevel.drew (h : SameOnCurrentLevel s s') (n : Nat) : SameOnCurrentLevel (s.drew n) (s'.drew n) :=
  ⟨h.levels.symm, h.memory.symm, h.settings.symm, congrArg (· + n) h.drawn.symm, h.block.symm⟩

theorem SameOnCurrentLevel.setFlag (h : SameOnCurrentLevel s s') (f : Flag) (b : Bool) :
    SameOnCurrentLevel (s.setFlag f b) (s'.setFlag f b) := by
  rw [State.setFlag, State.setFlag, h.reg]
  exact h.setReg _ _

theorem SameOnCurrentLevel.advance (h : SameOnCurrentLevel s s') : SameOnCurrentLevel s.advance s'.advance := by
  rw [State.advance, State.advance, h.reg]
  exact h.setReg _ _

theorem SameOnCurrentLevel.skipIf (h : SameOnCurrentLevel s s') (c : Bool) : SameOnCurrentLevel (s.skipIf c) (s'.skipIf c) := by
  cases c with
  | false => exact h.advance
  | true =>
    rw [State.skipIf, State.skipIf, if_pos rfl, if_pos rfl, State.skip, State.skip, h.reg]
    exact h.setReg _ _

theorem SameOnCurrentLevel.condJump (h : SameOnCurrentLevel s s') (c : Bool) (disp : BitVec 8) :
    SameOnCurrentLevel (condJump c disp s) (condJump c disp s') := by
  cases c with
  | false => exact h.advance
  | true =>
    rw [Machine.condJump, Machine.condJump, if_pos rfl, if_pos rfl, jumpTarget, jumpTarget, h.reg]
    exact h.setReg _ _

theorem SameOnCurrentLevel.incrementX (h : SameOnCurrentLevel s s') : SameOnCurrentLevel (incrementX s) (incrementX s') := by
  rw [Machine.incrementX, Machine.incrementX, h.reg]
  exact h.setReg _ _

theorem SameOnCurrentLevel.setOverflow (h : SameOnCurrentLevel s s') (v : Bool) :
    SameOnCurrentLevel (s.setOverflow v) (s'.setOverflow v) := by
  rw [State.setOverflow, State.setOverflow, h.flag]
  exact (h.setFlag _ _).setFlag _ _

theorem SameOnCurrentLevel.setAddFlags (h : SameOnCurrentLevel s s') (c v : Bool) :
    SameOnCurrentLevel (s.setAddFlags c v) (s'.setAddFlags c v) :=
  (h.setFlag .c c).setOverflow v

theorem SameOnCurrentLevel.setArgFlags (h : SameOnCurrentLevel s s') (a b : Word) :
    SameOnCurrentLevel (s.setArgFlags a b) (s'.setArgFlags a b) := by
  simp only [State.setArgFlags, h.settings, h.drawn]
  split
  · exact h
  · exact h.setAddFlags _ _
  · exact (((h.setFlag _ _).setFlag _ _).setFlag _ _).drew 3

theorem SameOnCurrentLevel.setDouble (h : SameOnCurrentLevel s s') (v : BitVec 32) :
    SameOnCurrentLevel (s.setDouble v) (s'.setDouble v) :=
  (h.setReg _ _).setReg _ _

theorem SameOnCurrentLevel.setFloat (h : SameOnCurrentLevel s s') (v : BitVec 48) :
    SameOnCurrentLevel (s.setFloat v) (s'.setFloat v) :=
  ((h.setReg _ _).setReg _ _).setReg _ _

theorem SameOnCurrentLevel.setFloatResult (h : SameOnCurrentLevel s s') (out : Config.FloatResult) :
    SameOnCurrentLevel (s.setFloatResult out) (s'.setFloatResult out) :=
  ((h.setFloat out.tad).setFlag _ _).setFlag _ _

/-! ### Sequences with such outcomes -/

/-- Two sequences that begin with one answer. -/
theorem SameOutcome.andThen {α : Type} {o o' : Result α} {k k' : α → Result State} (ho : o' = o)
    (hk : ∀ a, SameOutcome (k a) (k' a)) : SameOutcome (andThen o k) (andThen o' k') := by
  subst ho
  cases o' with
  | next a => exact hk a
  | fault r => exact rfl
  | refused r => exact rfl

/-- Two sequences that begin with two such states. -/
theorem SameOutcome.andThen_state {o o' : Result State} {k k' : State → Result State} (ho : SameOutcome o o')
    (hk : ∀ t t', SameOnCurrentLevel t t' → SameOutcome (k t) (k' t')) : SameOutcome (Machine.andThen o k) (Machine.andThen o' k') := by
  cases o with
  | next t =>
    cases o' with
    | next t' => exact hk t t' ho
    | fault | refused => exact ho.elim
  | fault r =>
    cases o' with
    | fault r' => exact ho
    | next | refused => exact ho.elim
  | refused r =>
    cases o' with
    | refused r' => exact ho
    | next | fault => exact ho.elim

/-! ### Shared operations on two such states -/

theorem storeWord_same (h : SameOnCurrentLevel s s') (a v : Word) : SameOutcome (storeWord a v s) (storeWord a v s') := by
  rw [storeWord, storeWord, State.present_of_params h.settings]
  split
  · exact h.putWord a v
  · exact rfl

theorem storeWords_same (h : SameOnCurrentLevel s s') (a : Word) (vs : List Word) :
    SameOutcome (storeWords a vs s) (storeWords a vs s') := by
  induction vs generalizing a s s' with
  | nil => exact h
  | cons v vs ih => exact SameOutcome.andThen_state (storeWord_same h a v) fun _ _ ht => ih ht (a + 1)

theorem storeAtEa_same (h : SameOnCurrentLevel s s') (m : MemRef) (vs : List Word) :
    SameOutcome (storeAtEa m vs s) (storeAtEa m vs s') :=
  SameOutcome.andThen (h.ea m) fun el => storeWords_same h.advance el vs

theorem withOperand_same (h : SameOnCurrentLevel s s') (m : MemRef) {k k' : Word → State}
    (hk : ∀ w, SameOnCurrentLevel (k w) (k' w)) : SameOutcome (withOperand m s k) (withOperand m s' k') :=
  SameOutcome.andThen (h.ea m) fun el => SameOutcome.andThen (h.loadWord el) hk

theorem loadReg_same (h : SameOnCurrentLevel s s') (r : Reg) (m : MemRef) : SameOutcome (loadReg r m s) (loadReg r m s') :=
  withOperand_same h m fun w => h.advance.setReg r w

theorem floatOp_same (h : SameOnCurrentLevel s s') (f : Bool → Bool → Bool → BitVec 48 → BitVec 48 → Config.FloatResult)
    (m : MemRef) : SameOutcome (floatOp f m s) (floatOp f m s') := by
  simp only [floatOp, loadFloat, h.ea, h.loadWord, h.flag, State.float, h.reg]
  exact SameOutcome.andThen rfl fun el => SameOutcome.andThen rfl fun fw => h.advance.setFloatResult _

theorem arithOp_same (h : SameOnCurrentLevel s s') (adc ad1 cm1 cld : Bool) (sr : Src) (dr : Dst) :
    SameOutcome (arithOp adc ad1 cm1 cld sr dr s) (arithOp adc ad1 cm1 cld sr dr s') := by
  simp only [arithOp, h.destOperand, h.sourceOperand, carryIn, h.flag]
  refine SameOutcome.andThen rfl fun r => ?_
  split
  · exact rfl
  · exact (h.advance.setReg _ _).setAddFlags _ _

theorem logicOp_same (h : SameOnCurrentLevel s s') (f : Word → Word → Word) (cm1 cld : Bool) (sr : Src) (dr : Dst) :
    SameOutcome (logicOp f cm1 cld sr dr s) (logicOp f cm1 cld sr dr s') := by
  simp only [logicOp, h.destOperand, h.sourceOperand]
  exact SameOutcome.andThen rfl fun r => h.advance.setReg _ _

theorem swapOp_same (h : SameOnCurrentLevel s s') (cm1 cld : Bool) (sr : Src) (dr : Dst) :
    SameOutcome (swapOp cm1 cld sr dr s) (swapOp cm1 cld sr dr s') := by
  simp only [swapOp, h.destOperand, h.sourceOperand]
  refine SameOutcome.andThen rfl fun r => ?_
  cases sourceReg sr with
  | none => exact h.advance.setReg _ _
  | some q => exact (h.advance.setReg _ _).setReg _ _

theorem skipOn_same (h : SameOnCurrentLevel s s') (rel : Word → Word → Bool) (sr : Src) (dr : Dst) :
    SameOutcome (skipOn rel sr dr s) (skipOn rel sr dr s') := by
  simp only [skipOn, h.reg, h.sourceValue]
  exact SameOutcome.andThen rfl fun r => h.skipIf _

theorem writeBit_same (h : SameOnCurrentLevel s s') (n : Fin 16) (r : Reg) (b : Bool) :
    SameOutcome (writeBit n r b s) (writeBit n r b s') := by
  simp only [writeBit, putBit, h.reg]
  split
  · exact h.advance.setReg _ _
  · exact rfl

theorem storeBit_same (h : SameOnCurrentLevel s s') (n : Fin 16) (r : Reg) (b k : Bool) :
    SameOutcome (storeBit n r b k s) (storeBit n r b k s') :=
  SameOutcome.andThen_state (writeBit_same h n r b) fun _ _ ht => ht.setFlag .k k

theorem combineK_same (h : SameOnCurrentLevel s s') (f : Bool → Bool → Bool) (n : Fin 16) (r : Reg) :
    SameOutcome (combineK f n r s) (combineK f n r s') := by
  simp only [combineK, h.getBit, h.flag]
  exact SameOutcome.andThen rfl fun b => h.advance.setFlag _ _

theorem shiftReg_same (h : SameOnCurrentLevel s s') (r : Reg) (kind : ShiftKind) (count : BitVec 6) :
    SameOutcome (shiftReg r kind count s) (shiftReg r kind count s') := by
  simp only [shiftReg, h.reg, h.shifted]
  split
  · exact h.advance
  · exact SameOutcome.andThen rfl fun out => (h.advance.setReg _ _).setFlag _ _

theorem addArgument_same (h : SameOnCurrentLevel s s') (r : Reg) (arg : BitVec 8) :
    SameOutcome (addArgument r arg s) (addArgument r arg s') := by
  simp only [addArgument, h.reg]
  exact (h.advance.setReg _ _).setArgFlags _ _

/-! ### Instructions with a meaning of their own on two such states -/

theorem execMin_same (h : SameOnCurrentLevel s s') (m : MemRef) : SameOutcome (execMin m s) (execMin m s') :=
  SameOutcome.andThen (h.ea m) fun el => SameOutcome.andThen (h.loadWord el) fun _ => storeWord_same (h.skipIf _) el _

theorem execLdd_same (h : SameOnCurrentLevel s s') (m : MemRef) : SameOutcome (execLdd m s) (execLdd m s') := by
  simp only [execLdd, loadTwo, h.ea, h.loadWord]
  exact SameOutcome.andThen rfl fun el => SameOutcome.andThen rfl fun w => (h.advance.setReg _ _).setReg _ _

theorem execLdf_same (h : SameOnCurrentLevel s s') (m : MemRef) : SameOutcome (execLdf m s) (execLdf m s') := by
  simp only [execLdf, loadFloat, h.ea, h.loadWord]
  exact SameOutcome.andThen rfl fun el => SameOutcome.andThen rfl fun w => h.advance.setFloat _

theorem execAdd_same (h : SameOnCurrentLevel s s') (m : MemRef) : SameOutcome (execAdd m s) (execAdd m s') := by
  simp only [execAdd, State.setSum, h.reg]
  exact withOperand_same h m fun w => (h.advance.setReg _ _).setAddFlags _ _

theorem execSub_same (h : SameOnCurrentLevel s s') (m : MemRef) : SameOutcome (execSub m s) (execSub m s') := by
  simp only [execSub, State.setSum, h.reg]
  exact withOperand_same h m fun w => (h.advance.setReg _ _).setAddFlags _ _

theorem execMpy_same (h : SameOnCurrentLevel s s') (m : MemRef) : SameOutcome (execMpy m s) (execMpy m s') := by
  simp only [execMpy, h.reg]
  exact withOperand_same h m fun w => (h.advance.setReg _ _).setOverflow _

theorem execJpl_same (h : SameOnCurrentLevel s s') (m : MemRef) : SameOutcome (execJpl m s) (execJpl m s') := by
  simp only [execJpl, h.ea, h.reg]
  exact SameOutcome.andThen rfl fun el => (h.setReg _ _).setReg _ _

theorem execRmpy_same (h : SameOnCurrentLevel s s') (sr : Src) (dr : Dst) : SameOutcome (execRmpy sr dr s) (execRmpy sr dr s') := by
  simp only [execRmpy, h.sourceValue, h.reg]
  exact SameOutcome.andThen rfl fun r => h.advance.setDouble _

theorem execRdiv_same (h : SameOnCurrentLevel s s') (sr : Src) : SameOutcome (execRdiv sr s) (execRdiv sr s') := by
  simp only [execRdiv, State.double, h.sourceValue, h.reg]
  exact SameOutcome.andThen rfl fun qr => (h.advance.setReg _ _).setReg _ _

theorem execLbyt_same (h : SameOnCurrentLevel s s') : SameOutcome (execLbyt s) (execLbyt s') := by
  simp only [execLbyt, h.byteWord, h.byteRight, h.loadWord]
  exact SameOutcome.andThen rfl fun w => h.advance.setReg _ _

theorem execSbyt_same (h : SameOnCurrentLevel s s') : SameOutcome (execSbyt s) (execSbyt s') := by
  simp only [execSbyt, h.byteWord, h.byteRight, h.loadWord, h.reg]
  exact SameOutcome.andThen rfl fun w => storeWord_same h.advance _ _

theorem execTra_same (h : SameOnCurrentLevel s s') (r : Fin 16) : SameOutcome (execTra r s) (execTra r s') := by
  simp only [execTra, h.reg, h.drawn]
  split
  · exact (h.advance.setReg _ _).drew 1
  · split
    · exact (h.advance.setReg _ _).drew 1
    · exact rfl

theorem execSad_same (h : SameOnCurrentLevel s s') (kind : ShiftKind) (count : BitVec 6) :
    SameOutcome (execSad kind count s) (execSad kind count s') := by
  simp only [execSad, State.double, h.reg, h.shifted]
  split
  · exact h.advance
  · exact SameOutcome.andThen rfl fun out => (h.advance.setDouble _).setFlag _ _

theorem execBset_same (h : SameOnCurrentLevel s s') (cond : BitCond) (n : Fin 16) (r : Reg) :
    SameOutcome (execBset cond n r s) (execBset cond n r s') := by
  simp only [execBset, h.getBit, h.flag]
  cases cond with
  | zro | one | bac => exact writeBit_same h n r _
  | bcm => exact SameOutcome.andThen rfl fun b => writeBit_same h n r _

theorem execBskp_same (h : SameOnCurrentLevel s s') (cond : BitCond) (n : Fin 16) (r : Reg) :
    SameOutcome (execBskp cond n r s) (execBskp cond n r s') := by
  simp only [execBskp, h.getBit, h.flag]
  refine SameOutcome.andThen rfl fun b => ?_
  cases cond with
  | zro | one | bac => exact h.skipIf _
  | bcm => exact rfl

/-- LRB reads the block at X. Where it names another level, that level's undefined STS bits may differ, and stay there. -/
theorem execLrb_same (h : SameOnCurrentLevel s s') (n : Fin 16) : SameOutcome (execLrb n s) (execLrb n s') := by
  simp only [execLrb, loadBlock, h.blockAddress, h.loadWord]
  refine SameOutcome.andThen rfl fun el => SameOutcome.andThen rfl fun rb => h.advance.setBlockAt fun hn => ?_
  have hsts : s'.regAt n .sts = s.regAt n .sts := by
    rw [show n = s.level from hn]
    calc s'.regAt s.level .sts
      _ = s'.reg .sts := by rw [State.reg, h.levels]
      _ = s.reg .sts := h.reg .sts
  rw [hsts]

/-- Every instruction but SRB has such outcomes from two such states. -/
theorem exec_same (h : SameOnCurrentLevel s s') {i : Instr} (hi : isSrb i = false) : SameOutcome (exec i s) (exec i s') := by
  cases i with
  | stz m => exact storeAtEa_same h m [0]
  | sta m | stt m | stx m | std m | stf m =>
    simp only [exec, execSta, execStt, execStx, execStd, execStf, h.reg]
    exact storeAtEa_same h m _
  | min m => exact execMin_same h m
  | lda m | ldt m | ldx m => exact loadReg_same h _ m
  | ldd m => exact execLdd_same h m
  | ldf m => exact execLdf_same h m
  | add m => exact execAdd_same h m
  | sub m => exact execSub_same h m
  | and m | ora m =>
    simp only [exec, execAnd, execOra, h.reg]
    exact withOperand_same h m fun w => h.advance.setReg _ _
  | mpy m => exact execMpy_same h m
  | fad m | fsb m | fmu m | fdv m => exact floatOp_same h _ m
  | nlz scaling | dnz scaling =>
    simp only [exec, execNlz, execDnz, State.float, h.flag, h.reg]
    exact h.advance.setFloatResult _
  | jmp m => exact SameOutcome.andThen (h.ea m) fun el => h.setReg .p el
  | jpl m => exact execJpl_same h m
  | jap disp | jan disp | jaz disp | jaf disp | jxn disp =>
    simp only [exec, execJap, execJan, execJaz, execJaf, execJxn, h.reg]
    exact h.condJump _ disp
  | jpc disp | jnc disp =>
    simp only [exec, execJpc, execJnc, h.incrementX.reg]
    exact h.incrementX.condJump _ disp
  | skpEql sr dr | skpGre sr dr | skpMgre sr dr | skpUeq sr dr | skpLst sr dr | skpMlst sr dr =>
    rw [exec, exec]
    exact skipOn_same h _ sr dr
  | rmpy sr dr => exact execRmpy_same h sr dr
  | rdiv sr => exact execRdiv_same h sr
  | lbyt => exact execLbyt_same h
  | sbyt => exact execSbyt_same h
  | radd | rsub | copy | ad1 | adc | exit | rclr | rinc | rcdr =>
    rw [exec, exec]
    exact arithOp_same h _ _ _ _ _ _
  | cld | cm1 | swap => exact swapOp_same h _ _ _ _
  | rand | rexo | rora => exact logicOp_same h _ _ _ _ _
  | tra r => exact execTra_same h r
  | trr r => exact rfl
  | srb level => cases hi
  | lrb level => exact execLrb_same h level
  | sht kind count | shd kind count | sha kind count => exact shiftReg_same h _ kind count
  | sad kind count => exact execSad_same h kind count
  | sab arg | saa arg | sat arg | sax arg => exact h.advance.setReg _ _
  | aab arg | aaa arg | aat arg | aax arg => exact addArgument_same h _ arg
  | bset cond n r => exact execBset_same h cond n r
  | bskp cond n r => exact execBskp_same h cond n r
  | bstc n r | bsta n r =>
    simp only [exec, execBstc, execBsta, h.flag]
    exact storeBit_same h n r _ _
  | bldc n r | blda n r | banc n r | band n r | borc n r | bora n r =>
    rw [exec, exec]
    exact combineK_same h _ n r

end

end Sys2Proof.Machine

namespace Sys2Proof.Isolation

open Sys2Proof.Machine

/-- Settles O60: the word at P is read alike, and the instruction it decodes to is not SRB. -/
theorem otherLevelsDoNotInfluenceAStep : Obligations.OtherLevelsDoNotInfluenceAStep := by
  intro s s' h hsrb
  simp only [step, h.reg, h.loadWord]
  by_cases hp : s.present (s.reg .p) = true
  · rw [loadWord_present hp, andThen_next, andThen_next]
    cases hdec : decode (s.wordAt (s.reg .p)) with
    | error e => exact rfl
    | ok i =>
      refine exec_same h ?_
      cases i with
      | srb n => exact absurd hdec (hsrb n)
      | _ => rfl
  · simp only [loadWord, hp, Bool.false_eq_true, if_false]
    exact rfl

end Sys2Proof.Isolation
end

section
/-! The decoder against the encoder (spec/30_encoding.md R60 to R77, R80, R90). A word is a code under a mask joined with operand fields
outside the mask; each decoder reads the code's fields to name the instruction and the others for its operands. -/

namespace Sys2Proof.Coding

open Sys2Proof.MemoryReference Sys2Proof.BitInstruction Sys2Proof.Argument Sys2Proof.Combined

/-! ### Words under a mask -/

section
variable {w code field mask : Word}

/-- A field that the mask covers is the code's. -/
theorem bitsOf_of_mask (h : w &&& mask = code) {lo n : Nat} (hmask : bitsOf mask lo n = BitVec.allOnes n) :
    bitsOf w lo n = bitsOf code lo n :=
  calc bitsOf w lo n
    _ = bitsOf w lo n &&& bitsOf mask lo n := by rw [hmask, BitVec.and_allOnes]
    _ = bitsOf (w &&& mask) lo n := BitVec.extractLsb'_and.symm
    _ = bitsOf code lo n := by rw [h]

theorem getLsbD_of_mask (h : w &&& mask = code) {j : Nat} (hmask : mask.getLsbD j = true) : w.getLsbD j = code.getLsbD j := by
  rw [← h, BitVec.getLsbD_and, hmask, Bool.and_true]

/-- A field of the joined word where the code has none is the operand's. -/
theorem bitsOf_joined (field : Word) {lo n : Nat} (hcode : bitsOf code lo n = 0) : bitsOf (code ||| field) lo n = bitsOf field lo n := by
  rw [bitsOf_or, hcode]
  exact BitVec.zero_or

/-- Two masks with codes that differ where both look do not hold of one word. -/
theorem mask_ne (h : w &&& mask = code) {mask' code' : Word} (hne : code &&& mask' ≠ code' &&& mask) : w &&& mask' ≠ code' := by
  rintro rfl
  refine hne ?_
  rw [← h, BitVec.and_assoc, BitVec.and_assoc, BitVec.and_comm mask]

/-- The field `n` bits wide at bit `lo`, as a mask. -/
def fieldMask (lo n : Nat) : Word := placed lo (BitVec.allOnes n)

theorem getLsbD_fieldMask (lo n : Nat) {j : Nat} (hj : j < 16) : (fieldMask lo n).getLsbD j = decide (lo ≤ j ∧ j - lo < n) := by
  have hlow : j - lo < 16 := by omega
  simp only [fieldMask, placed, BitVec.getLsbD_shiftLeft, BitVec.getLsbD_setWidth, BitVec.getLsbD_allOnes, hj, hlow]
  by_cases hlo : lo ≤ j
  · simp [hlo, Nat.not_lt.2 hlo]
  · simp [hlo, Nat.lt_of_not_le hlo]

/-- Reading a field and placing it again masks the word. -/
theorem placed_bitsOf (w : Word) (lo n : Nat) : placed lo (bitsOf w lo n) = w &&& fieldMask lo n := by
  refine BitVec.eq_of_getLsbD_eq fun j hj => ?_
  have hlow : j - lo < 16 := by omega
  rw [BitVec.getLsbD_and, getLsbD_fieldMask lo n hj]
  simp only [placed, bitsOf, BitVec.getLsbD_shiftLeft, BitVec.getLsbD_setWidth, BitVec.getLsbD_extractLsb', hj, hlow]
  by_cases hlo : lo ≤ j
  · rw [show lo + (j - lo) = j by omega]
    simp [hlo, Nat.not_lt.2 hlo, Bool.and_comm]
  · simp [hlo, Nat.lt_of_not_le hlo]

/-- A field that two words have in common is one under the field's mask. -/
theorem and_fieldMask {lo n : Nat} (h : bitsOf w lo n = bitsOf code lo n) : w &&& fieldMask lo n = code &&& fieldMask lo n := by
  rw [← placed_bitsOf, h, placed_bitsOf]

theorem and_fieldMask_bit {j : Nat} (h : w.getLsbD j = code.getLsbD j) : w &&& fieldMask j 1 = code &&& fieldMask j 1 := by
  refine and_fieldMask (BitVec.eq_of_getLsbD_eq fun i hi => ?_)
  obtain rfl : i = 0 := by omega
  simpa [bitsOf] using h

/-- Masks under which two words are one, taken together. -/
theorem and_or_mask {mask' : Word} (h : w &&& mask = code &&& mask) (h' : w &&& mask' = code &&& mask') :
    w &&& (mask ||| mask') = code &&& (mask ||| mask') := by
  rw [BitVec.and_or_distrib_left, h, h', BitVec.and_or_distrib_left]

/-- A word is its code joined with the rest of it. -/
theorem join {rest : Word} (h : w &&& mask = code &&& mask) (hfield : field = w &&& rest) (hcode : code &&& mask = code)
    (hall : mask ||| rest = BitVec.allOnes 16) : code ||| field = w := by
  rw [hfield, ← hcode, ← h, ← BitVec.and_or_distrib_left, hall, BitVec.and_allOnes]

end

/-! ### Operand fields: written and read back -/

theorem srcNum_ofNum (n : BitVec 3) : (Src.ofNum n).num = n := by revert n; decide
theorem dstNum_ofNum (n : BitVec 3) : (Dst.ofNum n).num = n := by revert n; decide
theorem regNum_ofNum (n : BitVec 3) : (Reg.ofNum n).num = n := by revert n; decide
theorem shiftKindNum_ofNum (n : BitVec 2) : (ShiftKind.ofNum n).num = n := by revert n; decide

theorem srcOf_encSrcDst (sr : Src) (dr : Dst) : srcOf (encSrcDst sr dr) = sr := by cases sr <;> cases dr <;> rfl
theorem dstOf_encSrcDst (sr : Src) (dr : Dst) : dstOf (encSrcDst sr dr) = dr := by cases sr <;> cases dr <;> rfl

theorem kind_encShift (k : ShiftKind) (n : BitVec 6) : ShiftKind.ofNum (bitsOf (encShift k n) 9 2) = k := by
  cases k <;> revert n <;> decide
theorem count_encShift (k : ShiftKind) (n : BitVec 6) : bitsOf (encShift k n) 0 6 = n := by
  cases k <;> revert n <;> decide

theorem valueIf_getLsbD (w : Word) (j : Nat) : valueIf (w.getLsbD j) (fieldMask j 1) = w &&& fieldMask j 1 := by
  rw [← placed_bitsOf, fieldMask]
  have hbit : bitsOf w j 1 = BitVec.ofBool (w.getLsbD j) := by
    refine BitVec.eq_of_getLsbD_eq fun i hi => ?_
    obtain rfl : i = 0 := by omega
    simp [bitsOf]
  rw [hbit]
  cases w.getLsbD j with
  | true => rfl
  | false => exact (BitVec.zero_shiftLeft j).symm

theorem encMem_memRefOf (w : Word) : encMem (memRefOf w) = w &&& 0o003777 := by
  rw [show (0o003777 : Word) = fieldMask 10 1 ||| fieldMask 9 1 ||| fieldMask 8 1 ||| fieldMask 0 8 by decide,
    BitVec.and_or_distrib_left, BitVec.and_or_distrib_left, BitVec.and_or_distrib_left, ← placed_bitsOf w 0 8,
    ← valueIf_getLsbD, ← valueIf_getLsbD, ← valueIf_getLsbD]
  rfl

theorem encSrcDst_of (w : Word) : encSrcDst (srcOf w) (dstOf w) = w &&& 0o000077 := by
  rw [encSrcDst, srcOf, dstOf, srcNum_ofNum, dstNum_ofNum, placed_bitsOf, placed_bitsOf, ← BitVec.and_or_distrib_left]
  rfl

theorem encBit_of (w : Word) : encBit (fourOf w) (regOf w) = w &&& 0o000177 := by
  rw [encBit, fourOf, regOf, regNum_ofNum, BitVec.ofFin_toFin, placed_bitsOf, placed_bitsOf, ← BitVec.and_or_distrib_left]
  rfl

theorem encShift_of (w : Word) : encShift (ShiftKind.ofNum (bitsOf w 9 2)) (bitsOf w 0 6) = w &&& 0o003077 := by
  rw [encShift, shiftKindNum_ofNum, placed_bitsOf, placed_bitsOf, ← BitVec.and_or_distrib_left]
  rfl

/-! ### Decoding by rows: what a word with a row's code under the row's mask decodes to -/

theorem selects_std : Selects 0o020000 .std := fun w h => by rw [decode, h]; rfl
theorem selects_ldd : Selects 0o024000 .ldd := fun w h => by rw [decode, h]; rfl
theorem selects_stf : Selects 0o030000 .stf := fun w h => by rw [decode, h]; rfl
theorem selects_ldf : Selects 0o034000 .ldf := fun w h => by rw [decode, h]; rfl
theorem selects_min : Selects 0o040000 .min := fun w h => by rw [decode, h]; rfl
theorem selects_ldt : Selects 0o050000 .ldt := fun w h => by rw [decode, h]; rfl
theorem selects_add : Selects 0o060000 .add := fun w h => by rw [decode, h]; rfl
theorem selects_sub : Selects 0o064000 .sub := fun w h => by rw [decode, h]; rfl
theorem selects_fad : Selects 0o100000 .fad := fun w h => by rw [decode, h]; rfl
theorem selects_fsb : Selects 0o104000 .fsb := fun w h => by rw [decode, h]; rfl
theorem selects_fmu : Selects 0o110000 .fmu := fun w h => by rw [decode, h]; rfl
theorem selects_fdv : Selects 0o114000 .fdv := fun w h => by rw [decode, h]; rfl
theorem selects_mpy : Selects 0o120000 .mpy := fun w h => by rw [decode, h]; rfl
theorem selects_jpl : Selects 0o134000 .jpl := fun w h => by rw [decode, h]; rfl

/-- The code selects an instruction of bits 15 to 8 with a byte for its operand (R61, R68, R69). -/
def SelectsByte (code : Word) (instr : BitVec 8 → Instr) : Prop :=
  ∀ w, w &&& 0o177400 = code → decode w = .ok (instr (bitsOf w 0 8))

theorem decode_joined_byte {code : Word} {instr : BitVec 8 → Instr} (hsel : SelectsByte code instr)
    (hcode : code &&& 0o177400 = code) (hlow : bitsOf code 0 8 = 0) (v : BitVec 8) :
    decode (code ||| placed 0 v) = .ok (instr v) := by
  rw [hsel _ ((Laws.joined (Laws.placed8_fixed v)).trans hcode), bitsOf_joined _ hlow, bitsOf_placed]

/-- Group 130000 holds the conditional jumps (R75). -/
theorem decode_jumpGroup {w : Word} (hgroup : bitsOf w 11 5 = 0o26) : decode w = decodeJump w := by
  rw [decode, hgroup]; rfl

/-- A code of group 130000 selects the jump of its condition. -/
theorem selectsByte_jump {code : Word} {instr : BitVec 8 → Instr} (hgroup : bitsOf code 11 5 = 0o26)
    (hcond : ∀ w, bitsOf w 8 3 = bitsOf code 8 3 → decodeJump w = .ok (instr (bitsOf w 0 8))) : SelectsByte code instr :=
  fun w h => by
    rw [decode_jumpGroup ((bitsOf_of_mask h rfl).trans hgroup), hcond w (bitsOf_of_mask h rfl)]

theorem selectsByte_jap : SelectsByte 0o130000 .jap := selectsByte_jump rfl fun w h => by rw [decodeJump, h]; rfl
theorem selectsByte_jan : SelectsByte 0o130400 .jan := selectsByte_jump rfl fun w h => by rw [decodeJump, h]; rfl
theorem selectsByte_jaz : SelectsByte 0o131000 .jaz := selectsByte_jump rfl fun w h => by rw [decodeJump, h]; rfl
theorem selectsByte_jaf : SelectsByte 0o131400 .jaf := selectsByte_jump rfl fun w h => by rw [decodeJump, h]; rfl
theorem selectsByte_jpc : SelectsByte 0o132000 .jpc := selectsByte_jump rfl fun w h => by rw [decodeJump, h]; rfl
theorem selectsByte_jnc : SelectsByte 0o132400 .jnc := selectsByte_jump rfl fun w h => by rw [decodeJump, h]; rfl
theorem selectsByte_jxn : SelectsByte 0o133400 .jxn := selectsByte_jump rfl fun w h => by rw [decodeJump, h]; rfl

/-- A code of group 170000 selects the argument instruction of its function. -/
theorem selectsByte_argument {code : Word} {instr : BitVec 8 → Instr} (hgroup : bitsOf code 11 5 = 0o36)
    (hfn : ∀ w, bitsOf w 8 3 = bitsOf code 8 3 → decodeArgument w = instr (bitsOf w 0 8)) : SelectsByte code instr :=
  fun w h => by
    rw [decode_argumentGroup ((bitsOf_of_mask h rfl).trans hgroup), hfn w (bitsOf_of_mask h rfl)]

theorem selectsByte_sab : SelectsByte 0o170000 .sab := selectsByte_argument rfl fun w h => by rw [decodeArgument, h]; rfl
theorem selectsByte_saa : SelectsByte 0o170400 .saa := selectsByte_argument rfl fun w h => by rw [decodeArgument, h]; rfl
theorem selectsByte_sat : SelectsByte 0o171000 .sat := selectsByte_argument rfl fun w h => by rw [decodeArgument, h]; rfl
theorem selectsByte_sax : SelectsByte 0o171400 .sax := selectsByte_argument rfl fun w h => by rw [decodeArgument, h]; rfl
theorem selectsByte_aab : SelectsByte 0o172000 .aab := selectsByte_argument rfl fun w h => by rw [decodeArgument, h]; rfl
theorem selectsByte_aaa : SelectsByte 0o172400 .aaa := selectsByte_argument rfl fun w h => by rw [decodeArgument, h]; rfl
theorem selectsByte_aat : SelectsByte 0o173000 .aat := selectsByte_argument rfl fun w h => by rw [decodeArgument, h]; rfl
theorem selectsByte_aax : SelectsByte 0o173400 .aax := selectsByte_argument rfl fun w h => by rw [decodeArgument, h]; rfl

/-- Group 150000 holds TRA, TRR, NLZ, DNZ, SRB and LRB (R75). -/
theorem decode_transferGroup {w : Word} (hgroup : bitsOf w 11 5 = 0o32) : decode w = decodeTransfer w := by
  rw [decode, hgroup]; rfl

theorem selectsByte_nlz : SelectsByte 0o151400 .nlz := fun w h => by
  rw [decode_transferGroup (bitsOf_of_mask h rfl), decodeTransfer, if_neg (mask_ne h (by decide)), if_neg (mask_ne h (by decide)),
    if_pos h]
theorem selectsByte_dnz : SelectsByte 0o152000 .dnz := fun w h => by
  rw [decode_transferGroup (bitsOf_of_mask h rfl), decodeTransfer, if_neg (mask_ne h (by decide)), if_neg (mask_ne h (by decide)),
    if_neg (mask_ne h (by decide)), if_pos h]

/-- TRA and TRR: a number in bits 3 to 0 (R66). -/
theorem decode_tra (r : Fin 16) : decode (encode (.tra r)) = .ok (.tra r) := by
  have hrow : encode (.tra r) &&& 0o177760 = 0o150000 := Laws.EncodesRow.tra r
  have hfield : (bitsOf (encode (.tra r)) 0 4).toFin = r := by revert r; decide
  rw [decode_transferGroup (bitsOf_of_mask hrow rfl), decodeTransfer, if_pos hrow, hfield]

theorem decode_trr (r : Fin 16) : decode (encode (.trr r)) = .ok (.trr r) := by
  have hrow : encode (.trr r) &&& 0o177760 = 0o150100 := Laws.EncodesRow.trr r
  have hfield : (bitsOf (encode (.trr r)) 0 4).toFin = r := by revert r; decide
  rw [decode_transferGroup (bitsOf_of_mask hrow rfl), decodeTransfer, if_neg (mask_ne hrow (by decide)), if_pos hrow, hfield]

/-- SRB and LRB: a level in bits 6 to 3 (R67). -/
theorem decode_srb (n : Fin 16) : decode (encode (.srb n)) = .ok (.srb n) := by
  have hrow : encode (.srb n) &&& 0o177607 = 0o152402 := Laws.EncodesRow.srb n
  have hfield : fourOf (encode (.srb n)) = n := by revert n; decide
  rw [decode_transferGroup (bitsOf_of_mask hrow rfl), decodeTransfer, if_neg (mask_ne hrow (by decide)),
    if_neg (mask_ne hrow (by decide)), if_neg (mask_ne hrow (by decide)), if_neg (mask_ne hrow (by decide)), if_pos hrow, hfield]

theorem decode_lrb (n : Fin 16) : decode (encode (.lrb n)) = .ok (.lrb n) := by
  have hrow : encode (.lrb n) &&& 0o177607 = 0o152600 := Laws.EncodesRow.lrb n
  have hfield : fourOf (encode (.lrb n)) = n := by revert n; decide
  rw [decode_transferGroup (bitsOf_of_mask hrow rfl), decodeTransfer, if_neg (mask_ne hrow (by decide)),
    if_neg (mask_ne hrow (by decide)), if_neg (mask_ne hrow (by decide)), if_neg (mask_ne hrow (by decide)),
    if_neg (mask_ne hrow (by decide)), if_pos hrow, hfield]

/-- The code selects an instruction of bits 15 to 6 with a source and a destination (R62 to R64). -/
def SelectsPair (code : Word) (instr : Src → Dst → Instr) : Prop :=
  ∀ w, w &&& 0o177700 = code → decode w = .ok (instr (srcOf w) (dstOf w))

theorem decode_joined_pair {code : Word} {instr : Src → Dst → Instr} (hsel : SelectsPair code instr)
    (hcode : code &&& 0o177700 = code) (sr : Src) (dr : Dst) : decode (code ||| encSrcDst sr dr) = .ok (instr sr dr) := by
  have hlow {lo n : Nat} (hmask : bitsOf 0o000077 lo n = BitVec.allOnes n) : bitsOf code lo n = 0 := by
    refine bitsOf_eq_zero_of_mask ?_ hmask
    rw [← hcode, BitVec.and_assoc]
    exact BitVec.and_zero
  have hsrc : srcOf (code ||| encSrcDst sr dr) = sr := by
    rw [srcOf, bitsOf_joined _ (hlow rfl)]; exact srcOf_encSrcDst sr dr
  have hdst : dstOf (code ||| encSrcDst sr dr) = dr := by
    rw [dstOf, bitsOf_joined _ (hlow rfl)]; exact dstOf_encSrcDst sr dr
  rw [hsel _ ((Laws.joined (Laws.encSrcDst_fixed sr dr)).trans hcode), hsrc, hdst]

/-- Group 140000 holds SKP and the extended instructions (R75). -/
theorem decode_skipGroup {w : Word} (hgroup : bitsOf w 11 5 = 0o30) : decode w = decodeSkip w := by
  rw [decode, hgroup]; rfl

/-- A code of group 140000 with bits 7 and 6 zero selects the SKP of its condition. -/
theorem selectsPair_skip {code : Word} {instr : Src → Dst → Instr} (hgroup : bitsOf code 11 5 = 0o30) (hzero : bitsOf code 6 2 = 0)
    (hcond : ∀ w, bitsOf w 6 2 = 0 → bitsOf w 8 3 = bitsOf code 8 3 → decodeSkip w = .ok (instr (srcOf w) (dstOf w))) :
    SelectsPair code instr :=
  fun w h => by
    rw [decode_skipGroup ((bitsOf_of_mask h rfl).trans hgroup), hcond w ((bitsOf_of_mask h rfl).trans hzero) (bitsOf_of_mask h rfl)]

theorem selectsPair_skpEql : SelectsPair 0o140000 .skpEql := selectsPair_skip rfl rfl fun w hzero h => by
  rw [decodeSkip, if_pos hzero, h]; rfl
theorem selectsPair_skpGre : SelectsPair 0o141000 .skpGre := selectsPair_skip rfl rfl fun w hzero h => by
  rw [decodeSkip, if_pos hzero, h]; rfl
theorem selectsPair_skpMgre : SelectsPair 0o141400 .skpMgre := selectsPair_skip rfl rfl fun w hzero h => by
  rw [decodeSkip, if_pos hzero, h]; rfl
theorem selectsPair_skpUeq : SelectsPair 0o142000 .skpUeq := selectsPair_skip rfl rfl fun w hzero h => by
  rw [decodeSkip, if_pos hzero, h]; rfl
theorem selectsPair_skpLst : SelectsPair 0o143000 .skpLst := selectsPair_skip rfl rfl fun w hzero h => by
  rw [decodeSkip, if_pos hzero, h]; rfl
theorem selectsPair_skpMlst : SelectsPair 0o143400 .skpMlst := selectsPair_skip rfl rfl fun w hzero h => by
  rw [decodeSkip, if_pos hzero, h]; rfl

/-- An extended instruction has bits 7 and 6 not 00. -/
theorem decode_extended {w code mask : Word} (h : w &&& mask = code) (hmask : bitsOf mask 6 2 = BitVec.allOnes 2)
    (hcode : bitsOf code 6 2 ≠ 0) : bitsOf w 6 2 ≠ 0 := by
  rwa [bitsOf_of_mask h hmask]

theorem selectsPair_rmpy : SelectsPair 0o141200 .rmpy := fun w h => by
  rw [decode_skipGroup (bitsOf_of_mask h rfl), decodeSkip, if_neg (decode_extended h rfl (by decide)), if_pos h]

/-- Group 144000 holds the register operations (R75). -/
theorem decode_registerGroup {w : Word} (hgroup : bitsOf w 11 5 = 0o31) : decode w = .ok (decodeRegisterOp w) := by
  rw [decode, hgroup]; rfl

/-- RADD with its modifiers, under the name that the modifiers and operands have (R188, log 17). -/
theorem selectsPair_arith (adc ad1 cm1 cld : Bool) :
    SelectsPair (0o146000 ||| valueIf adc 0o001000 ||| valueIf ad1 0o000400 ||| encModifiers cm1 cld) (nameArith adc ad1 cm1 cld) :=
  fun w h => by
    have hgroup : bitsOf w 11 5 = 0o31 := by
      rw [bitsOf_of_mask h rfl]; cases adc <;> cases ad1 <;> cases cm1 <;> cases cld <;> rfl
    have hbits : w.getLsbD 10 = true ∧ w.getLsbD 9 = adc ∧ w.getLsbD 8 = ad1 ∧ w.getLsbD 7 = cm1 ∧ w.getLsbD 6 = cld := by
      rw [getLsbD_of_mask h rfl, getLsbD_of_mask h rfl, getLsbD_of_mask h rfl, getLsbD_of_mask h rfl, getLsbD_of_mask h rfl]
      cases adc <;> cases ad1 <;> cases cm1 <;> cases cld <;> decide
    obtain ⟨harith, hadc, had1, hcm1, hcld⟩ := hbits
    rw [decode_registerGroup hgroup, decodeRegisterOp, if_pos harith, hadc, had1, hcm1, hcld]

/-- A logical operation or SWAP with its modifiers, the operation in bits 9 and 8 (R196). -/
theorem selectsPair_logical {op : Word} {instr : Bool → Bool → Src → Dst → Instr} (cm1 cld : Bool)
    (hcode : bitsOf (op ||| encModifiers cm1 cld) 11 5 = 0o31 ∧ (op ||| encModifiers cm1 cld).getLsbD 10 = false ∧
      (op ||| encModifiers cm1 cld).getLsbD 7 = cm1 ∧ (op ||| encModifiers cm1 cld).getLsbD 6 = cld ∧
      bitsOf (op ||| encModifiers cm1 cld) 8 2 = bitsOf op 8 2)
    (hop : ∀ w, w.getLsbD 10 = false → bitsOf w 8 2 = bitsOf op 8 2 →
      decodeRegisterOp w = instr (w.getLsbD 7) (w.getLsbD 6) (srcOf w) (dstOf w)) :
    SelectsPair (op ||| encModifiers cm1 cld) (instr cm1 cld) :=
  fun w h => by
    obtain ⟨hgroup, hlogical, hcm1, hcld, hfn⟩ := hcode
    rw [decode_registerGroup ((bitsOf_of_mask h rfl).trans hgroup),
      hop w ((getLsbD_of_mask h rfl).trans hlogical) ((bitsOf_of_mask h rfl).trans hfn),
      (getLsbD_of_mask h rfl).trans hcm1, (getLsbD_of_mask h rfl).trans hcld]

theorem selectsPair_swap (cm1 cld : Bool) : SelectsPair (0o144000 ||| encModifiers cm1 cld) (nameSwap cm1 cld) :=
  selectsPair_logical cm1 cld (by cases cm1 <;> cases cld <;> decide) fun w hlogical hfn => by
    rw [decodeRegisterOp, if_neg (Bool.eq_false_iff.1 hlogical), hfn]; rfl
theorem selectsPair_rand (cm1 cld : Bool) : SelectsPair (0o144400 ||| encModifiers cm1 cld) (.rand cm1 cld) :=
  selectsPair_logical cm1 cld (by cases cm1 <;> cases cld <;> decide) fun w hlogical hfn => by
    rw [decodeRegisterOp, if_neg (Bool.eq_false_iff.1 hlogical), hfn]; rfl
theorem selectsPair_rexo (cm1 cld : Bool) : SelectsPair (0o145000 ||| encModifiers cm1 cld) (.rexo cm1 cld) :=
  selectsPair_logical cm1 cld (by cases cm1 <;> cases cld <;> decide) fun w hlogical hfn => by
    rw [decodeRegisterOp, if_neg (Bool.eq_false_iff.1 hlogical), hfn]; rfl
theorem selectsPair_rora (cm1 cld : Bool) : SelectsPair (0o145400 ||| encModifiers cm1 cld) (.rora cm1 cld) :=
  selectsPair_logical cm1 cld (by cases cm1 <;> cases cld <;> decide) fun w hlogical hfn => by
    rw [decodeRegisterOp, if_neg (Bool.eq_false_iff.1 hlogical), hfn]; rfl

/-- Group 154000 holds the shifts (R75). -/
theorem decode_shiftGroup {w : Word} (hgroup : bitsOf w 11 5 = 0o33) : decode w = decodeShift w := by
  rw [decode, hgroup]; rfl

/-- The code selects a shift: its register in bits 8 and 7, bit 6 zero, the kind and the count operands (R65). -/
def SelectsShift (code : Word) (instr : ShiftKind → BitVec 6 → Instr) : Prop :=
  ∀ w, w &&& 0o174700 = code → decode w = .ok (instr (ShiftKind.ofNum (bitsOf w 9 2)) (bitsOf w 0 6))

theorem decode_joined_shift {code : Word} {instr : ShiftKind → BitVec 6 → Instr} (hsel : SelectsShift code instr)
    (hcode : code &&& 0o174700 = code) (hkind : bitsOf code 9 2 = 0) (hcount : bitsOf code 0 6 = 0) (k : ShiftKind) (n : BitVec 6) :
    decode (code ||| encShift k n) = .ok (instr k n) := by
  rw [hsel _ ((Laws.joined (Laws.encShift_fixed k n)).trans hcode), bitsOf_joined _ hkind, bitsOf_joined _ hcount,
    kind_encShift, count_encShift]

/-- A code of group 154000 with bit 6 zero selects the shift of its register. -/
theorem selectsShift_of {code : Word} {instr : ShiftKind → BitVec 6 → Instr} (hgroup : bitsOf code 11 5 = 0o33)
    (hzero : code.getLsbD 6 = false)
    (hreg : ∀ w, w.getLsbD 6 = false → bitsOf w 7 2 = bitsOf code 7 2 →
      decodeShift w = .ok (instr (ShiftKind.ofNum (bitsOf w 9 2)) (bitsOf w 0 6))) : SelectsShift code instr :=
  fun w h => by
    rw [decode_shiftGroup ((bitsOf_of_mask h rfl).trans hgroup), hreg w ((getLsbD_of_mask h rfl).trans hzero) (bitsOf_of_mask h rfl)]

theorem selectsShift_sht : SelectsShift 0o154000 .sht := selectsShift_of rfl rfl fun w hblank h => by
  rw [decodeShift, if_neg (Bool.eq_false_iff.1 hblank), h]; rfl
theorem selectsShift_shd : SelectsShift 0o154200 .shd := selectsShift_of rfl rfl fun w hblank h => by
  rw [decodeShift, if_neg (Bool.eq_false_iff.1 hblank), h]; rfl
theorem selectsShift_sha : SelectsShift 0o154400 .sha := selectsShift_of rfl rfl fun w hblank h => by
  rw [decodeShift, if_neg (Bool.eq_false_iff.1 hblank), h]; rfl
theorem selectsShift_sad : SelectsShift 0o154600 .sad := selectsShift_of rfl rfl fun w hblank h => by
  rw [decodeShift, if_neg (Bool.eq_false_iff.1 hblank), h]; rfl

/-- A bit instruction joined with its bit number and register. -/
theorem decode_joined_bit {code : Word} {instr : Fin 16 → Reg → Instr} (hsel : SelectsBit code instr) (hcode : code &&& 0o177 = 0)
    (n : Fin 16) (r : Reg) : decode (code ||| encBit n r) = .ok (instr n r) := by
  rw [← add_encBit hcode, decode_add_encBit hsel hcode]

theorem selectsBit_bstc : SelectsBit 0o176000 .bstc := fun w hgroup hfn => by
  rw [decode_bitGroup hgroup, decodeBit, hfn]; rfl
theorem selectsBit_bsta : SelectsBit 0o176200 .bsta := fun w hgroup hfn => by
  rw [decode_bitGroup hgroup, decodeBit, hfn]; rfl

/-- Bits 8 and 7 lie within bits 10 to 7. -/
theorem bitsOf_condition (w : Word) : bitsOf w 7 2 = (bitsOf w 7 4).setWidth 2 := by
  refine BitVec.eq_of_getLsbD_eq fun j hj => ?_
  simp [bitsOf, hj, show j < 4 by omega]

theorem selectsBit_bset (c : BitCond) : SelectsBit (0o174000 ||| placed 7 c.num) (.bset c) := fun w hgroup hfn => by
  have hcond : BitCond.ofNum (bitsOf w 7 2) = c := by rw [bitsOf_condition, hfn]; cases c <;> rfl
  have hgroup' : bitsOf w 11 5 = 0o37 := hgroup.trans (by cases c <;> rfl)
  rw [decode_bitGroup hgroup', decodeBit, hcond, hfn]
  cases c <;> rfl

theorem selectsBit_bskp (c : BitCond) : SelectsBit (0o175000 ||| placed 7 c.num) (.bskp c) := fun w hgroup hfn => by
  have hcond : BitCond.ofNum (bitsOf w 7 2) = c := by rw [bitsOf_condition, hfn]; cases c <;> rfl
  have hgroup' : bitsOf w 11 5 = 0o37 := hgroup.trans (by cases c <;> rfl)
  rw [decode_bitGroup hgroup', decodeBit, hcond, hfn]
  cases c <;> rfl

/-! ### Names of register operations (log 17) -/

/-- RADD keeps its own name where no other row names its word. -/
theorem nameArith_of_wellFormed {adc ad1 cm1 cld : Bool} {sr : Src} {dr : Dst}
    (h : (Instr.radd adc ad1 cm1 cld sr dr).wellFormed = true) : nameArith adc ad1 cm1 cld sr dr = .radd adc ad1 cm1 cld sr dr := by
  cases adc <;> cases ad1 <;> cases cm1 <;> cases cld <;> simp_all [Instr.wellFormed, raddHasOwnName, nameArith]


/-- Settles O47: each constructor is a row, and its operands are read back from their fields. -/
theorem decodeReadsEveryEncodedInstruction : Obligations.DecodeReadsEveryEncodedInstruction := by
  intro i hi
  cases i with
  | stz m => exact decode_joined selects_stz rfl m
  | sta m => exact decode_joined selects_sta rfl m
  | stt m => exact decode_joined selects_stt rfl m
  | stx m => exact decode_joined selects_stx rfl m
  | std m => exact decode_joined selects_std rfl m
  | ldd m => exact decode_joined selects_ldd rfl m
  | stf m => exact decode_joined selects_stf rfl m
  | ldf m => exact decode_joined selects_ldf rfl m
  | min m => exact decode_joined selects_min rfl m
  | lda m => exact decode_joined selects_lda rfl m
  | ldt m => exact decode_joined selects_ldt rfl m
  | ldx m => exact decode_joined selects_ldx rfl m
  | add m => exact decode_joined selects_add rfl m
  | sub m => exact decode_joined selects_sub rfl m
  | and m => exact decode_joined selects_and rfl m
  | ora m => exact decode_joined selects_ora rfl m
  | fad m => exact decode_joined selects_fad rfl m
  | fsb m => exact decode_joined selects_fsb rfl m
  | fmu m => exact decode_joined selects_fmu rfl m
  | fdv m => exact decode_joined selects_fdv rfl m
  | mpy m => exact decode_joined selects_mpy rfl m
  | jmp m => exact decode_joined Sequencing.selects_jmp rfl m
  | jpl m => exact decode_joined selects_jpl rfl m
  | jap disp => exact decode_joined_byte selectsByte_jap rfl rfl disp
  | jan disp => exact decode_joined_byte selectsByte_jan rfl rfl disp
  | jaz disp => exact decode_joined_byte selectsByte_jaz rfl rfl disp
  | jaf disp => exact decode_joined_byte selectsByte_jaf rfl rfl disp
  | jpc disp => exact decode_joined_byte selectsByte_jpc rfl rfl disp
  | jnc disp => exact decode_joined_byte selectsByte_jnc rfl rfl disp
  | jxn disp => exact decode_joined_byte selectsByte_jxn rfl rfl disp
  | skpEql sr dr => exact decode_joined_pair selectsPair_skpEql rfl sr dr
  | skpGre sr dr => exact decode_joined_pair selectsPair_skpGre rfl sr dr
  | skpMgre sr dr => exact decode_joined_pair selectsPair_skpMgre rfl sr dr
  | skpUeq sr dr => exact decode_joined_pair selectsPair_skpUeq rfl sr dr
  | skpLst sr dr => exact decode_joined_pair selectsPair_skpLst rfl sr dr
  | skpMlst sr dr => exact decode_joined_pair selectsPair_skpMlst rfl sr dr
  | rmpy sr dr => exact decode_joined_pair selectsPair_rmpy rfl sr dr
  | rdiv sr => cases sr <;> rfl
  | lbyt | sbyt | exit => rfl
  | radd adc ad1 cm1 cld sr dr =>
    exact (decode_joined_pair (selectsPair_arith adc ad1 cm1 cld)
      (by cases adc <;> cases ad1 <;> cases cm1 <;> cases cld <;> rfl) sr dr).trans (congrArg Except.ok (nameArith_of_wellFormed hi))
  | rsub sr dr => exact decode_joined_pair (selectsPair_arith false true true false) rfl sr dr
  | copy sr dr =>
    have hname : nameArith false false false true sr dr = .copy sr dr := by
      simp only [Instr.wellFormed, Bool.and_eq_true, decide_eq_true_eq, Bool.not_eq_true', Bool.and_eq_false_iff,
        decide_eq_false_iff_not] at hi
      obtain ⟨hzero, hexit⟩ := hi
      rw [nameArith, if_neg hzero, if_neg (by tauto)]
    exact (decode_joined_pair (selectsPair_arith false false false true) rfl sr dr).trans (congrArg Except.ok hname)
  | ad1 sr dr =>
    have hname : nameArith false true false false sr dr = .ad1 sr dr := by
      simp only [Instr.wellFormed, Bool.or_eq_true, decide_eq_true_eq] at hi
      rw [nameArith, if_neg (by tauto)]
    exact (decode_joined_pair (selectsPair_arith false true false false) rfl sr dr).trans (congrArg Except.ok hname)
  | adc sr dr => exact decode_joined_pair (selectsPair_arith true false false false) rfl sr dr
  | rclr dr =>
    rw [encode, ← encSrcDst_zero]
    exact decode_joined_pair (selectsPair_arith false false false true) rfl .zero dr
  | rinc dr =>
    have hname : nameArith false true false false .zero dr = .rinc dr := by
      simp only [Instr.wellFormed, decide_eq_true_eq] at hi
      rw [nameArith, if_pos ⟨rfl, hi⟩]
    rw [encode, ← encSrcDst_zero]
    exact (decode_joined_pair (selectsPair_arith false true false false) rfl .zero dr).trans (congrArg Except.ok hname)
  | rcdr dr =>
    rw [encode, ← encSrcDst_zero]
    exact decode_joined_pair (selectsPair_arith false false true false) rfl .zero dr
  | cld sr dr => exact decode_joined_pair (selectsPair_swap false true) rfl sr dr
  | cm1 sr dr => exact decode_joined_pair (selectsPair_swap true false) rfl sr dr
  | swap cm1 cld sr dr =>
    obtain rfl : cm1 = cld := by simpa [Instr.wellFormed] using hi
    have hname : nameSwap cm1 cm1 sr dr = .swap cm1 cm1 sr dr := by cases cm1 <;> rfl
    exact (decode_joined_pair (selectsPair_swap cm1 cm1) (by cases cm1 <;> rfl) sr dr).trans (congrArg Except.ok hname)
  | rand cm1 cld sr dr => exact decode_joined_pair (selectsPair_rand cm1 cld) (by cases cm1 <;> cases cld <;> rfl) sr dr
  | rexo cm1 cld sr dr => exact decode_joined_pair (selectsPair_rexo cm1 cld) (by cases cm1 <;> cases cld <;> rfl) sr dr
  | rora cm1 cld sr dr => exact decode_joined_pair (selectsPair_rora cm1 cld) (by cases cm1 <;> cases cld <;> rfl) sr dr
  | tra r => exact decode_tra r
  | trr r => exact decode_trr r
  | nlz scaling => exact decode_joined_byte selectsByte_nlz rfl rfl scaling
  | dnz scaling => exact decode_joined_byte selectsByte_dnz rfl rfl scaling
  | srb level => exact decode_srb level
  | lrb level => exact decode_lrb level
  | sht kind count => exact decode_joined_shift selectsShift_sht rfl rfl rfl kind count
  | shd kind count => exact decode_joined_shift selectsShift_shd rfl rfl rfl kind count
  | sha kind count => exact decode_joined_shift selectsShift_sha rfl rfl rfl kind count
  | sad kind count => exact decode_joined_shift selectsShift_sad rfl rfl rfl kind count
  | sab arg => exact decode_joined_byte selectsByte_sab rfl rfl arg
  | saa arg => exact decode_joined_byte selectsByte_saa rfl rfl arg
  | sat arg => exact decode_joined_byte selectsByte_sat rfl rfl arg
  | sax arg => exact decode_joined_byte selectsByte_sax rfl rfl arg
  | aab arg => exact decode_joined_byte selectsByte_aab rfl rfl arg
  | aaa arg => exact decode_joined_byte selectsByte_aaa rfl rfl arg
  | aat arg => exact decode_joined_byte selectsByte_aat rfl rfl arg
  | aax arg => exact decode_joined_byte selectsByte_aax rfl rfl arg
  | bset cond n r => exact decode_joined_bit (selectsBit_bset cond) (by cases cond <;> rfl) n r
  | bskp cond n r => exact decode_joined_bit (selectsBit_bskp cond) (by cases cond <;> rfl) n r
  | bstc n r => exact decode_joined_bit selectsBit_bstc rfl n r
  | bsta n r => exact decode_joined_bit selectsBit_bsta rfl n r
  | bldc n r => exact decode_joined_bit selectsBit_bldc rfl n r
  | blda n r => exact decode_joined_bit selectsBit_blda rfl n r
  | banc n r => exact decode_joined_bit selectsBit_banc rfl n r
  | band n r => exact decode_joined_bit selectsBit_band rfl n r
  | borc n r => exact decode_joined_bit selectsBit_borc rfl n r
  | bora n r => exact decode_joined_bit selectsBit_bora rfl n r

/-! ### Every word of a row is its code joined with the operands read from it -/

section
variable {w code : Word}

theorem joined_memRef (hop : bitsOf w 11 5 = bitsOf code 11 5) (hcode : code &&& 0o174000 = code) :
    code ||| encMem (memRefOf w) = w :=
  join (mask := 0o174000) (and_fieldMask hop) (encMem_memRefOf w) hcode rfl

theorem joined_byte (hop : bitsOf w 11 5 = bitsOf code 11 5) (hfn : bitsOf w 8 3 = bitsOf code 8 3)
    (hcode : code &&& 0o177400 = code) : code ||| placed 0 (bitsOf w 0 8) = w :=
  join (mask := 0o177400) (and_or_mask (and_fieldMask hop) (and_fieldMask hfn)) (placed_bitsOf w 0 8) hcode rfl

theorem joined_pair (h : w &&& 0o177700 = code &&& 0o177700) (hcode : code &&& 0o177700 = code) :
    code ||| encSrcDst (srcOf w) (dstOf w) = w :=
  join h (encSrcDst_of w) hcode rfl

theorem joined_skip (hop : bitsOf w 11 5 = bitsOf code 11 5) (hcond : bitsOf w 8 3 = bitsOf code 8 3)
    (hzero : bitsOf w 6 2 = bitsOf code 6 2) (hcode : code &&& 0o177700 = code) :
    code ||| encSrcDst (srcOf w) (dstOf w) = w :=
  joined_pair (and_or_mask (and_or_mask (and_fieldMask hop) (and_fieldMask hcond)) (and_fieldMask hzero)) hcode

theorem joined_shift (hop : bitsOf w 11 5 = bitsOf code 11 5) (hreg : bitsOf w 7 2 = bitsOf code 7 2)
    (hblank : w.getLsbD 6 = code.getLsbD 6) (hcode : code &&& 0o174700 = code) :
    code ||| encShift (ShiftKind.ofNum (bitsOf w 9 2)) (bitsOf w 0 6) = w :=
  join (mask := 0o174700) (and_or_mask (and_or_mask (and_fieldMask hop) (and_fieldMask hreg)) (and_fieldMask_bit hblank))
    (encShift_of w) hcode rfl

theorem joined_bit (hop : bitsOf w 11 5 = bitsOf code 11 5) (hfn : bitsOf w 7 4 = bitsOf code 7 4)
    (hcode : code &&& 0o177600 = code) : code ||| encBit (fourOf w) (regOf w) = w :=
  join (mask := 0o177600) (and_or_mask (and_fieldMask hop) (and_fieldMask hfn)) (encBit_of w) hcode rfl

end

/-! ### The word of what each group decodes to -/

/-- The decoded instruction is well-formed and its word is the decoded one. -/
def GivesBack (w : Word) (i : Instr) : Prop := i.wellFormed = true ∧ encode i = w

theorem eq_bitsOf {w : Word} {lo n k : Nat} (h : (bitsOf w lo n).toNat = k) (code : Word)
    (hcode : (bitsOf code lo n).toNat = k := by rfl) : bitsOf w lo n = bitsOf code lo n :=
  BitVec.eq_of_toNat_eq (h.trans hcode.symm)

section
variable {w : Word} {i : Instr}

theorem decodeJump_givesBack (hop : bitsOf w 11 5 = 0o26) (h : decodeJump w = .ok i) : GivesBack w i := by
  unfold decodeJump at h
  split at h <;> cases h
  case h_1 hfn | h_2 hfn | h_3 hfn | h_4 hfn | h_5 hfn | h_6 hfn | h_7 hfn => exact ⟨rfl, joined_byte hop (eq_bitsOf hfn _) rfl⟩

theorem decodeArgument_givesBack (hop : bitsOf w 11 5 = 0o36) : GivesBack w (decodeArgument w) := by
  unfold decodeArgument
  split
  case h_1 hfn | h_2 hfn | h_3 hfn | h_4 hfn | h_5 hfn | h_6 hfn | h_7 hfn => exact ⟨rfl, joined_byte hop (eq_bitsOf hfn _) rfl⟩
  case h_8 =>
    have hfn : (bitsOf w 8 3).toNat = 7 := by
      have := (bitsOf w 8 3).isLt
      simp only [imp_false] at *
      omega
    exact ⟨rfl, joined_byte hop (eq_bitsOf hfn _) rfl⟩

theorem decodeShift_givesBack (hop : bitsOf w 11 5 = 0o33) (h : decodeShift w = .ok i) : GivesBack w i := by
  unfold decodeShift at h
  split at h
  next => cases h
  next hblank =>
    have hblank : w.getLsbD 6 = false := Bool.eq_false_iff.2 hblank
    split at h <;> cases h
    case h_1 hreg | h_2 hreg | h_3 hreg => exact ⟨rfl, joined_shift hop (eq_bitsOf hreg _) hblank rfl⟩
    case h_4 =>
      have hreg : (bitsOf w 7 2).toNat = 3 := by
        have := (bitsOf w 7 2).isLt
        simp only [imp_false] at *
        omega
      exact ⟨rfl, joined_shift hop (eq_bitsOf hreg _) hblank rfl⟩

theorem condition_of {k : Nat} (h : (bitsOf w 7 4).toNat = k) : bitsOf w 7 2 = BitVec.ofNat 2 k := by
  rw [bitsOf_condition, ← h, BitVec.ofNat_toNat]

theorem decodeBit_givesBack (hop : bitsOf w 11 5 = 0o37) : GivesBack w (decodeBit w) := by
  unfold decodeBit
  split
  case h_1 hfn | h_2 hfn | h_3 hfn | h_4 hfn =>
    refine ⟨rfl, ?_⟩
    rw [condition_of hfn]
    exact joined_bit hop (eq_bitsOf hfn _) rfl
  case h_5 hfn | h_6 hfn | h_7 hfn | h_8 hfn =>
    refine ⟨rfl, ?_⟩
    rw [condition_of hfn]
    exact joined_bit hop (eq_bitsOf hfn _) rfl
  case h_9 hfn | h_10 hfn | h_11 hfn | h_12 hfn | h_13 hfn | h_14 hfn | h_15 hfn => exact ⟨rfl, joined_bit hop (eq_bitsOf hfn _) rfl⟩
  case h_16 =>
    have hfn : (bitsOf w 7 4).toNat = 15 := by
      have := (bitsOf w 7 4).isLt
      simp only [imp_false] at *
      omega
    exact ⟨rfl, joined_bit hop (eq_bitsOf hfn _) rfl⟩

theorem decodeTransfer_givesBack (h : decodeTransfer w = .ok i) : GivesBack w i := by
  unfold decodeTransfer at h
  split_ifs at h with htra htrr hnlz hdnz hsrb hlrb <;> cases h
  · exact ⟨rfl, join htra (placed_bitsOf w 0 4) rfl rfl⟩
  · exact ⟨rfl, join htrr (placed_bitsOf w 0 4) rfl rfl⟩
  · exact ⟨rfl, join hnlz (placed_bitsOf w 0 8) rfl rfl⟩
  · exact ⟨rfl, join hdnz (placed_bitsOf w 0 8) rfl rfl⟩
  · exact ⟨rfl, join hsrb (placed_bitsOf w 3 4) rfl rfl⟩
  · exact ⟨rfl, join hlrb (placed_bitsOf w 3 4) rfl rfl⟩

theorem decodeSkip_givesBack (hop : bitsOf w 11 5 = 0o30) (h : decodeSkip w = .ok i) : GivesBack w i := by
  unfold decodeSkip at h
  split_ifs at h with hzero hrmpy hrdiv hlbyt hsbyt
  · split at h <;> cases h
    case h_1 hcond | h_2 hcond | h_3 hcond | h_4 hcond | h_5 hcond | h_6 hcond =>
      exact ⟨rfl, joined_skip hop (eq_bitsOf hcond _) hzero rfl⟩
  · cases h
    exact ⟨rfl, joined_pair hrmpy rfl⟩
  · cases h
    refine ⟨rfl, join hrdiv (rest := 0o000070) ?_ rfl rfl⟩
    rw [srcOf, srcNum_ofNum, placed_bitsOf]
    rfl
  · cases h
    exact ⟨rfl, hlbyt.symm⟩
  · cases h
    exact ⟨rfl, hsbyt.symm⟩

end

/-! ### Register operations: the word with its modifiers, and its name -/

section
variable {w : Word}

theorem encModifiers_of (w : Word) : encModifiers (w.getLsbD 7) (w.getLsbD 6) = w &&& 0o000300 := by
  rw [show (0o000300 : Word) = fieldMask 7 1 ||| fieldMask 6 1 by decide, BitVec.and_or_distrib_left, ← valueIf_getLsbD,
    ← valueIf_getLsbD]
  rfl

theorem joined_logical {op : Word} (h : w &&& 0o177400 = op &&& 0o177400) (hop : op &&& 0o177400 = op) :
    op ||| encModifiers (w.getLsbD 7) (w.getLsbD 6) ||| encSrcDst (srcOf w) (dstOf w) = w := by
  rw [encModifiers_of, encSrcDst_of, BitVec.or_assoc, ← BitVec.and_or_distrib_left]
  exact join h rfl hop rfl

theorem joined_radd (h : w &&& 0o176000 = 0o146000 &&& 0o176000) :
    encode (.radd (w.getLsbD 9) (w.getLsbD 8) (w.getLsbD 7) (w.getLsbD 6) (srcOf w) (dstOf w)) = w := by
  have hadc : valueIf (w.getLsbD 9) 0o001000 = w &&& 0o001000 := valueIf_getLsbD w 9
  have had1 : valueIf (w.getLsbD 8) 0o000400 = w &&& 0o000400 := valueIf_getLsbD w 8
  rw [encode, hadc, had1, encModifiers_of, encSrcDst_of, BitVec.or_assoc, BitVec.or_assoc, BitVec.or_assoc,
    ← BitVec.and_or_distrib_left, ← BitVec.and_or_distrib_left, ← BitVec.and_or_distrib_left]
  exact join h rfl rfl rfl

/-- The name of an arithmetic register operation is well-formed and names its word. -/
theorem nameArith_givesBack (adc ad1 cm1 cld : Bool) (sr : Src) (dr : Dst) :
    GivesBack (encode (.radd adc ad1 cm1 cld sr dr)) (nameArith adc ad1 cm1 cld sr dr) := by
  unfold nameArith
  split
  case h_1 =>
    split_ifs with hzero hexit
    · subst hzero
      exact ⟨rfl, (encode_rclr dr).trans (encode_copy .zero dr)⟩
    · obtain ⟨rfl, rfl⟩ := hexit
      exact ⟨rfl, encode_exit.trans (encode_copy .l .p)⟩
    · refine ⟨?_, encode_copy sr dr⟩
      simp only [Instr.wellFormed, Bool.and_eq_true, decide_eq_true_eq, Bool.not_eq_true', Bool.and_eq_false_iff,
        decide_eq_false_iff_not]
      tauto
  case h_2 =>
    split_ifs with hrinc
    · obtain ⟨rfl, hdr⟩ := hrinc
      exact ⟨by simpa [Instr.wellFormed] using hdr, encode_rinc dr⟩
    · refine ⟨?_, (encode_radd sr dr (by decide)).symm⟩
      simp only [Instr.wellFormed, Bool.or_eq_true, decide_eq_true_eq]
      tauto
  case h_3 => exact ⟨rfl, encode_rsub sr dr⟩
  case h_4 =>
    split_ifs with hzero
    · subst hzero
      exact ⟨rfl, encode_rcdr dr⟩
    · exact ⟨by simpa [Instr.wellFormed, raddHasOwnName] using hzero, rfl⟩
  case h_5 => exact ⟨rfl, (encode_radd sr dr (by decide)).symm⟩
  case h_6 hcopy had1 hrsub hrcdr hadc =>
    refine ⟨?_, rfl⟩
    cases adc <;> cases ad1 <;> cases cm1 <;> cases cld <;> simp_all [Instr.wellFormed, raddHasOwnName]

/-- The name of a SWAP is well-formed and names its word. -/
theorem nameSwap_givesBack (cm1 cld : Bool) (sr : Src) (dr : Dst) :
    GivesBack (encode (.swap cm1 cld sr dr)) (nameSwap cm1 cld sr dr) := by
  cases cm1 <;> cases cld <;> exact ⟨rfl, rfl⟩

theorem decodeRegisterOp_givesBack (hop : bitsOf w 11 5 = 0o31) : GivesBack w (decodeRegisterOp w) := by
  unfold decodeRegisterOp
  split
  next harith =>
    have hrow : w &&& 0o176000 = 0o146000 &&& 0o176000 :=
      and_or_mask (and_fieldMask (lo := 11) (n := 5) hop) (and_fieldMask_bit (j := 10) harith)
    have hname := nameArith_givesBack (w.getLsbD 9) (w.getLsbD 8) (w.getLsbD 7) (w.getLsbD 6) (srcOf w) (dstOf w)
    rwa [joined_radd hrow] at hname
  next hlogical =>
    have hbit : w.getLsbD 10 = false := Bool.eq_false_iff.2 hlogical
    have hrow {op : Word} (hop' : bitsOf w 11 5 = bitsOf op 11 5) (hbit' : w.getLsbD 10 = op.getLsbD 10)
        (hfn : bitsOf w 8 2 = bitsOf op 8 2) : w &&& 0o177400 = op &&& 0o177400 :=
      and_or_mask (and_or_mask (and_fieldMask hop') (and_fieldMask_bit hbit')) (and_fieldMask hfn)
    split
    case h_1 hfn =>
      have hname := nameSwap_givesBack (w.getLsbD 7) (w.getLsbD 6) (srcOf w) (dstOf w)
      have hword : encode (.swap (w.getLsbD 7) (w.getLsbD 6) (srcOf w) (dstOf w)) = w :=
        joined_logical (hrow hop hbit (eq_bitsOf hfn _)) rfl
      rwa [hword] at hname
    case h_2 hfn | h_3 hfn => exact ⟨rfl, joined_logical (hrow hop hbit (eq_bitsOf hfn _)) rfl⟩
    case h_4 =>
      have hfn : (bitsOf w 8 2).toNat = 3 := by
        have := (bitsOf w 8 2).isLt
        simp only [imp_false] at *
        omega
      exact ⟨rfl, joined_logical (hrow hop hbit (eq_bitsOf hfn _)) rfl⟩

end

/-- Settles O48: group by group, the code under the row's mask and the operands outside it make up the word. -/
theorem encodeGivesBackEveryDecodedWord : Obligations.EncodeGivesBackEveryDecodedWord := by
  intro w i h
  unfold decode at h
  split at h
  case h_1 hop | h_2 hop | h_3 hop | h_4 hop | h_5 hop | h_6 hop | h_7 hop | h_8 hop | h_9 hop | h_10 hop | h_11 hop | h_12 hop
    | h_13 hop | h_14 hop | h_15 hop | h_16 hop | h_17 hop | h_18 hop | h_19 hop | h_20 hop | h_21 hop | h_22 hop | h_24 hop =>
    cases h
    exact ⟨rfl, joined_memRef (eq_bitsOf hop _) rfl⟩
  case h_23 hop => exact decodeJump_givesBack (eq_bitsOf hop 0o130000) h
  case h_25 hop => exact decodeSkip_givesBack (eq_bitsOf hop 0o140000) h
  case h_26 hop =>
    cases h
    exact decodeRegisterOp_givesBack (eq_bitsOf hop 0o144000)
  case h_27 => exact decodeTransfer_givesBack h
  case h_28 hop => exact decodeShift_givesBack (eq_bitsOf hop 0o154000) h
  case h_29 hop =>
    cases h
    exact decodeArgument_givesBack (eq_bitsOf hop 0o170000)
  case h_30 hop =>
    cases h
    exact decodeBit_givesBack (eq_bitsOf hop 0o174000)
  case h_31 => cases h

end Sys2Proof.Coding
end

section
/-! The table of unassigned words (spec/30_encoding.md R80) against the decoder: both are read as conditions on the number of the word,
a field being a quotient and a remainder of it. The fetch (spec/10_state.md R13, R76) rests on the decoder alone. -/

namespace Sys2Proof.Coding

open Sys2Proof.Machine

/-! ### Fields and masks as numbers -/

section
variable {w code : Word}

theorem toNat_bitsOf (w : Word) (lo n : Nat) : (bitsOf w lo n).toNat = w.toNat / 2 ^ lo % 2 ^ n := by
  rw [bitsOf, BitVec.extractLsb'_toNat, Nat.shiftRight_eq_div_pow]

theorem bitsOf_iff_toNat {lo n : Nat} :
    bitsOf w lo n = bitsOf code lo n ↔ w.toNat / 2 ^ lo % 2 ^ n = code.toNat / 2 ^ lo % 2 ^ n := by
  rw [← toNat_bitsOf, ← toNat_bitsOf, BitVec.toNat_inj]

/-- The bits from `lo` up are the quotient alone. -/
theorem bitsOf_top_iff {lo n : Nat} (htop : lo + n = 16) :
    bitsOf w lo n = bitsOf code lo n ↔ w.toNat / 2 ^ lo = code.toNat / 2 ^ lo := by
  have hquotient (v : Word) : v.toNat / 2 ^ lo % 2 ^ n = v.toNat / 2 ^ lo :=
    Nat.mod_eq_of_lt (Nat.div_lt_of_lt_mul (by rw [← Nat.pow_add, htop]; exact v.isLt))
  rw [bitsOf_iff_toNat, hquotient, hquotient]

/-- The lowest bits are the remainder alone. -/
theorem bitsOf_low_iff {n : Nat} : bitsOf w 0 n = bitsOf code 0 n ↔ w.toNat % 2 ^ n = code.toNat % 2 ^ n := by
  rw [bitsOf_iff_toNat, Nat.pow_zero, Nat.div_one, Nat.div_one]

/-- A mask of one field asks for that field. -/
theorem mask_iff {lo n : Nat} (hmask : bitsOf (fieldMask lo n) lo n = BitVec.allOnes n) (hcode : code &&& fieldMask lo n = code) :
    w &&& fieldMask lo n = code ↔ bitsOf w lo n = bitsOf code lo n :=
  ⟨fun h => bitsOf_of_mask h hmask, fun h => (and_fieldMask h).trans hcode⟩

/-- A mask of two fields asks for both. -/
theorem mask_iff_two {lo n lo' n' : Nat} (hmask : bitsOf (fieldMask lo n ||| fieldMask lo' n') lo n = BitVec.allOnes n)
    (hmask' : bitsOf (fieldMask lo n ||| fieldMask lo' n') lo' n' = BitVec.allOnes n')
    (hcode : code &&& (fieldMask lo n ||| fieldMask lo' n') = code) :
    w &&& (fieldMask lo n ||| fieldMask lo' n') = code ↔ bitsOf w lo n = bitsOf code lo n ∧ bitsOf w lo' n' = bitsOf code lo' n' :=
  ⟨fun h => ⟨bitsOf_of_mask h hmask, bitsOf_of_mask h hmask'⟩,
    fun ⟨h, h'⟩ => (and_or_mask (and_fieldMask h) (and_fieldMask h')).trans hcode⟩

theorem getLsbD_iff_toNat (j : Nat) : w.getLsbD j = true ↔ w.toNat / 2 ^ j % 2 = 1 := by
  rw [BitVec.getLsbD, Nat.testBit_eq_decide_div_mod_eq, decide_eq_true_eq]

end

/-! ### The masks of the decoder and of the table -/

section
variable (w : Word)

/-- A mask of the bits from `lo` up. -/
theorem topMask_iff {code : Word} (lo n : Nat) (htop : lo + n = 16) (hmask : bitsOf (fieldMask lo n) lo n = BitVec.allOnes n)
    (hcode : code &&& fieldMask lo n = code) : w &&& fieldMask lo n = code ↔ w.toNat / 2 ^ lo = code.toNat / 2 ^ lo :=
  (mask_iff hmask hcode).trans (bitsOf_top_iff htop)

/-- A mask of the bits from `lo` up and the three lowest. -/
theorem topLowMask_iff {code : Word} (lo n : Nat) (htop : lo + n = 16)
    (hmask : bitsOf (fieldMask lo n ||| fieldMask 0 3) lo n = BitVec.allOnes n)
    (hmask' : bitsOf (fieldMask lo n ||| fieldMask 0 3) 0 3 = BitVec.allOnes 3)
    (hcode : code &&& (fieldMask lo n ||| fieldMask 0 3) = code) :
    w &&& (fieldMask lo n ||| fieldMask 0 3) = code ↔ w.toNat / 2 ^ lo = code.toNat / 2 ^ lo ∧ w.toNat % 2 ^ 3 = code.toNat % 2 ^ 3 :=
  (mask_iff_two hmask hmask' hcode).trans (and_congr (bitsOf_top_iff htop) bitsOf_low_iff)

theorem rmpyRow_iff : w &&& 0o177700 = 0o141200 ↔ w.toNat / 64 = 0o1412 := topMask_iff w 6 10 rfl rfl rfl
theorem rdivRow_iff : w &&& 0o177707 = 0o141600 ↔ w.toNat / 64 = 0o1416 ∧ w.toNat % 8 = 0 :=
  topLowMask_iff w 6 10 rfl rfl rfl rfl
theorem traRow_iff : w &&& 0o177760 = 0o150000 ↔ w.toNat / 16 = 0o6400 := topMask_iff w 4 12 rfl rfl rfl
theorem trrRow_iff : w &&& 0o177760 = 0o150100 ↔ w.toNat / 16 = 0o6404 := topMask_iff w 4 12 rfl rfl rfl
theorem nlzRow_iff : w &&& 0o177400 = 0o151400 ↔ w.toNat / 256 = 0o323 := topMask_iff w 8 8 rfl rfl rfl
theorem dnzRow_iff : w &&& 0o177400 = 0o152000 ↔ w.toNat / 256 = 0o324 := topMask_iff w 8 8 rfl rfl rfl
theorem srbRow_iff : w &&& 0o177607 = 0o152402 ↔ w.toNat / 128 = 0o652 ∧ w.toNat % 8 = 2 :=
  topLowMask_iff w 7 9 rfl rfl rfl rfl
theorem lrbRow_iff : w &&& 0o177607 = 0o152600 ↔ w.toNat / 128 = 0o653 ∧ w.toNat % 8 = 0 :=
  topLowMask_iff w 7 9 rfl rfl rfl rfl
theorem absentGroups_iff : w &&& 0o170000 = 0o160000 ↔ w.toNat / 4096 = 0o16 := topMask_iff w 12 4 rfl rfl rfl
theorem jumpSix_iff : w &&& 0o177400 = 0o133000 ↔ w.toNat / 256 = 0o266 := topMask_iff w 8 8 rfl rfl rfl
theorem skipOne_iff : w &&& 0o177700 = 0o140400 ↔ w.toNat / 64 = 0o1404 := topMask_iff w 6 10 rfl rfl rfl
theorem skipFive_iff : w &&& 0o177700 = 0o142400 ↔ w.toNat / 64 = 0o1424 := topMask_iff w 6 10 rfl rfl rfl
theorem skipGroup_iff : w &&& 0o174000 = 0o140000 ↔ w.toNat / 2048 = 0o30 := topMask_iff w 11 5 rfl rfl rfl
theorem skipForm_iff : w &&& 0o000300 = 0 ↔ w.toNat / 64 % 4 = 0 := (mask_iff (lo := 6) (n := 2) rfl rfl).trans bitsOf_iff_toNat
theorem shiftBlank_iff : w &&& 0o174100 = 0o154100 ↔ w.toNat / 2048 = 0o33 ∧ w.toNat / 64 % 2 = 1 :=
  (mask_iff_two (lo := 11) (n := 5) (lo' := 6) (n' := 1) rfl rfl rfl).trans (and_congr (bitsOf_top_iff rfl) bitsOf_iff_toNat)
theorem skipBits_iff : bitsOf w 6 2 = 0 ↔ w.toNat / 64 % 4 = 0 := bitsOf_iff_toNat (code := 0)
theorem lbytWord_iff : w = 0o142200 ↔ w.toNat = 0o142200 := BitVec.toNat_inj.symm
theorem sbytWord_iff : w = 0o142600 ↔ w.toNat = 0o142600 := BitVec.toNat_inj.symm

end

/-! ### What each decoder rejects, as conditions on the word's number -/

section
variable {w : Word}

theorem decodeJump_error : (∃ e, decodeJump w = .error e) ↔ w.toNat / 256 % 8 = 6 := by
  have hcond := toNat_bitsOf w 8 3
  unfold decodeJump
  split
  case h_8 =>
    simp only [imp_false] at *
    exact iff_of_true ⟨_, rfl⟩ (by omega)
  all_goals exact iff_of_false (by rintro ⟨_, ⟨⟩⟩) (by omega)

theorem decodeSkip_error : (∃ e, decodeSkip w = .error e) ↔
    (w.toNat / 64 % 4 = 0 ∧ (w.toNat / 256 % 8 = 1 ∨ w.toNat / 256 % 8 = 5)) ∨
      (w.toNat / 64 % 4 ≠ 0 ∧ w.toNat / 64 ≠ 0o1412 ∧ ¬(w.toNat / 64 = 0o1416 ∧ w.toNat % 8 = 0) ∧
        w.toNat ≠ 0o142200 ∧ w.toNat ≠ 0o142600) := by
  have hcond := toNat_bitsOf w 8 3
  simp only [decodeSkip, skipBits_iff, rmpyRow_iff, rdivRow_iff, lbytWord_iff, sbytWord_iff]
  split_ifs with hzero hrmpy hrdiv hlbyt hsbyt
  · split
    case h_7 =>
      simp only [imp_false] at *
      exact iff_of_true ⟨_, rfl⟩ (by omega)
    all_goals exact iff_of_false (by rintro ⟨_, ⟨⟩⟩) (by omega)
  · exact iff_of_false (by rintro ⟨_, ⟨⟩⟩) (by omega)
  · exact iff_of_false (by rintro ⟨_, ⟨⟩⟩) (by omega)
  · exact iff_of_false (by rintro ⟨_, ⟨⟩⟩) (by omega)
  · exact iff_of_false (by rintro ⟨_, ⟨⟩⟩) (by omega)
  · exact iff_of_true ⟨_, rfl⟩ (by omega)

theorem decodeTransfer_error : (∃ e, decodeTransfer w = .error e) ↔
    ¬(w.toNat / 16 = 0o6400 ∨ w.toNat / 16 = 0o6404 ∨ w.toNat / 256 = 0o323 ∨ w.toNat / 256 = 0o324 ∨
      (w.toNat / 128 = 0o652 ∧ w.toNat % 8 = 2) ∨ (w.toNat / 128 = 0o653 ∧ w.toNat % 8 = 0)) := by
  simp only [decodeTransfer, traRow_iff, trrRow_iff, nlzRow_iff, dnzRow_iff, srbRow_iff, lrbRow_iff]
  split_ifs with htra htrr hnlz hdnz hsrb hlrb
  case neg => exact iff_of_true ⟨_, rfl⟩ (by omega)
  all_goals exact iff_of_false (by rintro ⟨_, ⟨⟩⟩) (by omega)

theorem decodeShift_error : (∃ e, decodeShift w = .error e) ↔ w.toNat / 64 % 2 = 1 := by
  unfold decodeShift
  split
  next hblank => exact iff_of_true ⟨_, rfl⟩ ((getLsbD_iff_toNat 6).1 hblank)
  next hblank =>
    have hblank' : ¬ w.toNat / 64 % 2 = 1 := fun h => hblank ((getLsbD_iff_toNat 6).2 h)
    split <;> exact iff_of_false (by rintro ⟨_, ⟨⟩⟩) hblank'

end

/-- R80's table, read as a condition on the word's number. -/
def UnassignedNumber (n : Nat) : Prop :=
  n / 4096 = 0o16 ∨ n / 256 = 0o266 ∨ n / 64 = 0o1404 ∨ n / 64 = 0o1424 ∨
    (n / 2048 = 0o30 ∧ n / 64 % 4 ≠ 0 ∧ n / 64 ≠ 0o1412 ∧ ¬(n / 64 = 0o1416 ∧ n % 8 = 0) ∧
      n ≠ 0o142200 ∧ n ≠ 0o142600) ∨
    (0o150020 ≤ n ∧ n ≤ 0o150077) ∨ (0o150120 ≤ n ∧ n ≤ 0o151377) ∨
    (0o152400 ≤ n ∧ n ≤ 0o152777 ∧ ¬(n / 128 = 0o652 ∧ n % 8 = 2) ∧ ¬(n / 128 = 0o653 ∧ n % 8 = 0)) ∨
    (0o153000 ≤ n ∧ n ≤ 0o153777) ∨ (n / 2048 = 0o33 ∧ n / 64 % 2 = 1)

/-- The groups that the table has words of: it has none of a memory reference, register operation, argument or bit instruction. -/
theorem UnassignedNumber.group {n : Nat} (h : UnassignedNumber n) :
    n / 2048 = 0o26 ∨ n / 2048 = 0o30 ∨ (0o32 ≤ n / 2048 ∧ n / 2048 ≤ 0o35) := by
  unfold UnassignedNumber at h
  omega

/-- Settles O49: group by group, the words that the decoder rejects are those of the table. -/
theorem unassignedWordsAreExactlyTheTable : Obligations.UnassignedWordsAreExactlyTheTable := by
  intro w
  have hlt := w.isLt
  simp only [absentGroups_iff, jumpSix_iff, skipOne_iff, skipFive_iff, skipGroup_iff, skipForm_iff, rmpyRow_iff, rdivRow_iff,
    lbytWord_iff, sbytWord_iff, srbRow_iff, lrbRow_iff, shiftBlank_iff, ne_eq]
  change _ ↔ UnassignedNumber w.toNat
  have hgroup := toNat_bitsOf w 11 5
  unfold decode
  split
  case h_23 => exact decodeJump_error.trans (by unfold UnassignedNumber; omega)
  case h_25 => exact decodeSkip_error.trans (by unfold UnassignedNumber; omega)
  case h_27 => exact decodeTransfer_error.trans (by unfold UnassignedNumber; omega)
  case h_28 => exact decodeShift_error.trans (by unfold UnassignedNumber; omega)
  case h_31 =>
    simp only [imp_false] at *
    have habsent : w.toNat / 4096 = 0o16 := by omega
    exact iff_of_true ⟨_, rfl⟩ (.inl habsent)
  all_goals
    refine iff_of_false (by rintro ⟨_, ⟨⟩⟩) fun h => ?_
    have htable := h.group
    omega

/-- Settles O50: each word evaluates to its instruction. -/
theorem wordsOfTheSpecDecode : Obligations.WordsOfTheSpecDecode :=
  ⟨rfl, rfl, rfl, rfl, rfl, rfl, rfl, rfl, rfl, rfl, rfl, rfl, rfl, rfl⟩

end Sys2Proof.Coding

namespace Sys2Proof.Stepping

open Sys2Proof.Machine

/-- Settles O51: the fetch answers the word at P, and its decoding decides. -/
theorem stepRunsTheDecodedInstruction : Obligations.StepRunsTheDecodedInstruction := by
  rintro s _ hp rfl
  have hfetch : loadWord s (s.reg .p) = .next (s.wordAt (s.reg .p)) := loadWord_present hp
  refine ⟨fun i hdec => ?_, fun e hdec => ?_⟩
  · simp only [step, hfetch, andThen_next, hdec]
  · simp only [step, hfetch, andThen_next, hdec]

/-- Settles O52: STA leaves A in the word that it then advances P to. -/
theorem aStoreIsSeenByTheNextFetch : Obligations.AStoreIsSeenByTheNextFetch := by
  intro m s t i hea hsta hdec
  obtain ⟨el, hel, hstore⟩ := storeAtEa_eq_next.1 ((exec_sta m s).symm.trans hsta)
  obtain rfl : s.reg .p + 1 = el := Host.Outcome.next.inj (hea.symm.trans hel)
  obtain ⟨hp, hnil⟩ := storeWords_cons_eq_next.1 hstore
  obtain rfl := storeWords_nil_eq_next.1 hnil
  have hpc : (s.advance.putWord (s.reg .p + 1) (s.reg .a)).reg .p = s.reg .p + 1 := by rw [State.putWord_reg, State.advance_p]
  have hword : (s.advance.putWord (s.reg .p + 1) (s.reg .a)).wordAt (s.reg .p + 1) = s.reg .a := State.wordAt_putWord_same ..
  refine (stepRunsTheDecodedInstruction _ (s.reg .a) ?_ ?_).1 i hdec
  · rw [hpc]; exact hp
  · rw [hpc, hword]

end Sys2Proof.Stepping
end

section
/-! Reading and framing the composite updates: what each leaves in a register, in P and in a flag, and what frame it stays within. The
proofs of the instructions below rest on these and on the laws of the shared operations. -/

namespace Sys2Proof.Machine

/-! ### Registers and flags after composite updates -/

section
variable (s : State)

@[simp] theorem State.reg_setOverflow (v : Bool) {r : Reg} (hr : r ≠ .sts) : (s.setOverflow v).reg r = s.reg r := by
  rw [State.setOverflow, State.reg_setFlag _ _ _ hr, State.reg_setFlag _ _ _ hr]

@[simp] theorem State.reg_setAddFlags (c v : Bool) {r : Reg} (hr : r ≠ .sts) : (s.setAddFlags c v).reg r = s.reg r := by
  rw [State.setAddFlags, State.reg_setOverflow _ _ hr, State.reg_setFlag _ _ _ hr]

@[simp] theorem State.reg_setArgFlags (a b : Word) {r : Reg} (hr : r ≠ .sts) : (s.setArgFlags a b).reg r = s.reg r := by
  unfold State.setArgFlags
  split
  · rfl
  · exact State.reg_setAddFlags s _ _ hr
  · simp [hr]

@[simp] theorem State.flag_q_setOverflow (v : Bool) : (s.setOverflow v).flag .q = v := by
  rw [State.setOverflow, State.flag_setFlag_ne _ _ (by decide), State.flag_setFlag_same]

@[simp] theorem State.flag_o_setOverflow (v : Bool) : (s.setOverflow v).flag .o = (s.flag .o || v) := by
  rw [State.setOverflow, State.flag_setFlag_same]

@[simp] theorem State.flag_c_setAddFlags (c v : Bool) : (s.setAddFlags c v).flag .c = c := by
  rw [State.setAddFlags, State.flag_setOverflow _ _ (by decide), State.flag_setFlag_same]

@[simp] theorem State.flag_q_setAddFlags (c v : Bool) : (s.setAddFlags c v).flag .q = v := by
  rw [State.setAddFlags, State.flag_q_setOverflow]

@[simp] theorem State.flag_o_setAddFlags (c v : Bool) : (s.setAddFlags c v).flag .o = (s.flag .o || v) := by
  rw [State.setAddFlags, State.flag_o_setOverflow, State.flag_setFlag_ne _ _ (by decide)]

/-! ### The double and the floating accumulator -/

@[simp] theorem State.a_setDouble (v : BitVec 32) : (s.setDouble v).reg .a = v.extractLsb' 16 16 := by simp [State.setDouble]
@[simp] theorem State.d_setDouble (v : BitVec 32) : (s.setDouble v).reg .d = v.extractLsb' 0 16 := by simp [State.setDouble]
@[simp] theorem State.reg_setDouble (v : BitVec 32) {r : Reg} (hr : r ≠ .a ∧ r ≠ .d) : (s.setDouble v).reg r = s.reg r := by
  simp [State.setDouble, hr.1, hr.2]

@[simp] theorem State.t_setFloat (v : BitVec 48) : (s.setFloat v).reg .t = v.extractLsb' 32 16 := by simp [State.setFloat]
@[simp] theorem State.a_setFloat (v : BitVec 48) : (s.setFloat v).reg .a = v.extractLsb' 16 16 := by simp [State.setFloat]
@[simp] theorem State.d_setFloat (v : BitVec 48) : (s.setFloat v).reg .d = v.extractLsb' 0 16 := by simp [State.setFloat]
@[simp] theorem State.reg_setFloat (v : BitVec 48) {r : Reg} (hr : r ≠ .t ∧ r ≠ .a ∧ r ≠ .d) : (s.setFloat v).reg r = s.reg r := by
  simp [State.setFloat, hr.1, hr.2.1, hr.2.2]

@[simp] theorem State.reg_setFloatResult (out : Config.FloatResult) {r : Reg} (hr : r ≠ .sts) :
    (s.setFloatResult out).reg r = (s.setFloat out.tad).reg r := by
  rw [State.setFloatResult, State.reg_setFlag _ _ _ hr, State.reg_setFlag _ _ _ hr]

@[simp] theorem State.flag_c_setFloatResult (out : Config.FloatResult) : (s.setFloatResult out).flag .c = out.c := by
  rw [State.setFloatResult, State.flag_setFlag_ne _ _ (by decide), State.flag_setFlag_same]

@[simp] theorem State.flag_z_setFloatResult (out : Config.FloatResult) : (s.setFloatResult out).flag .z = out.z := by
  rw [State.setFloatResult, State.flag_setFlag_same]

/-- The two halves of a double word together are the double word. -/
theorem halves_of_double (v : BitVec 32) : v.extractLsb' 16 16 ++ v.extractLsb' 0 16 = v :=
  BitVec.extractLsb'_append_extractLsb' (w := 16) (len := 16)

/-- The three words of a floating value together are the value. -/
theorem words_of_float (v : BitVec 48) : v.extractLsb' 32 16 ++ v.extractLsb' 16 16 ++ v.extractLsb' 0 16 = v := by
  have hupper : v.extractLsb' 32 16 ++ v.extractLsb' 16 16 = v.extractLsb' 16 32 :=
    BitVec.extractLsb'_append_extractLsb'_eq_extractLsb' rfl
  rw [hupper]
  exact BitVec.extractLsb'_append_extractLsb' (w := 32) (len := 16)

theorem extract_float (t a d : Word) : (t ++ a ++ d).extractLsb' 32 16 = t ∧ (t ++ a ++ d).extractLsb' 16 16 = a ∧
    (t ++ a ++ d).extractLsb' 0 16 = d := by
  have hupper {lo : Nat} (hlo : 16 ≤ lo) : (t ++ a ++ d).extractLsb' lo 16 = (t ++ a).extractLsb' (lo - 16) 16 :=
    BitVec.extractLsb'_append_eq_of_le hlo
  refine ⟨?_, ?_, BitVec.extractLsb'_append_eq_right⟩
  · rw [hupper (by decide)]; exact BitVec.extractLsb'_append_eq_left
  · rw [hupper (by decide)]; exact BitVec.extractLsb'_append_eq_right

end

/-! ### Frames of composite updates -/

section
variable {regs : List Reg} {bits : List (Fin 16)} {words : List Word} {s t : State}

theorem Frame.setData (h : Frame regs bits words s t) {r : Reg} (v : Word) (hr : r ∈ regs ∧ r ≠ .sts := by decide) :
    Frame regs bits words s (t.setReg r v) :=
  h.setReg v (.inr hr.1) hr.2

theorem Frame.drew (h : Frame regs bits words s t) (n : Nat) : Frame regs bits words s (t.drew n) where
  level := h.level
  params := h.params
  otherLevels := h.otherLevels
  registers := h.registers
  status := h.status
  memory := h.memory

theorem Frame.skipIf (h : Frame regs bits words s t) (c : Bool) : Frame regs bits words s (t.skipIf c) := by
  cases c <;> exact h.setReg _ (.inl rfl) (by decide)

theorem Frame.condJump (h : Frame regs bits words s t) (c : Bool) (disp : BitVec 8) : Frame regs bits words s (condJump c disp t) := by
  cases c <;> exact h.setReg _ (.inl rfl) (by decide)

theorem Frame.setOverflow (h : Frame regs bits words s t) (v : Bool)
    (hbits : Flag.bit .q ∈ bits ∧ Flag.bit .o ∈ bits := by decide) : Frame regs bits words s (t.setOverflow v) :=
  (h.setFlag _ hbits.1).setFlag _ hbits.2

theorem Frame.setAddFlags (h : Frame regs additionBits words s t) (c v : Bool) : Frame regs additionBits words s (t.setAddFlags c v) :=
  (h.setFlag _ (by decide)).setOverflow v

theorem Frame.setArgFlags (h : Frame regs additionBits words s t) (a b : Word) :
    Frame regs additionBits words s (t.setArgFlags a b) := by
  unfold State.setArgFlags
  split
  · exact h
  · exact h.setAddFlags _ _
  · exact (((h.setFlag _ (by decide)).setFlag _ (by decide)).setFlag _ (by decide)).drew 3

theorem Frame.setDouble (h : Frame [.a, .d] bits words s t) (v : BitVec 32) : Frame [.a, .d] bits words s (t.setDouble v) :=
  (h.setData _).setData _

theorem Frame.setFloat (h : Frame [.t, .a, .d] bits words s t) (v : BitVec 48) : Frame [.t, .a, .d] bits words s (t.setFloat v) :=
  ((h.setData _).setData _).setData _

theorem Frame.setFloatResult (h : Frame [.t, .a, .d] [Flag.bit .c, Flag.bit .z] words s t) (out : Config.FloatResult) :
    Frame [.t, .a, .d] [Flag.bit .c, Flag.bit .z] words s (t.setFloatResult out) :=
  ((h.setFloat _).setFlag _ (by decide)).setFlag _ (by decide)

/-- P is outside every frame. -/
theorem Frame.dropP (h : Frame [.p] bits words s t) : Frame [] bits words s t where
  level := h.level
  params := h.params
  otherLevels := h.otherLevels
  registers r hp hsts _ := h.registers r hp hsts (by simpa using hp)
  status := h.status
  memory := h.memory

/-- Bits that are as they were are outside the frame. -/
theorem Frame.dropBits (h : Frame regs bits words s t) {bits' : List (Fin 16)}
    (hkept : ∀ i ∈ bits, i ∉ bits' → (t.reg .sts).getLsbD i.val = (s.reg .sts).getLsbD i.val) : Frame regs bits' words s t where
  level := h.level
  params := h.params
  otherLevels := h.otherLevels
  registers := h.registers
  status i hi := by
    by_cases hmem : i ∈ bits
    · exact hkept i hmem hi
    · exact h.status i hmem
  memory := h.memory

end

/-! ### Words of an operand -/

section
variable {s t : State} {a : Word} {n : Nat}

theorem allPresent_iff : allPresent s a n = true ↔ ∀ k < n, s.present (a + BitVec.ofNat 16 k) = true := by
  simp [allPresent]

/-- A store of several words leaves each at its address, and every other word, every register and the parameters alone. No address
comes twice, as long as the words are no more than memory has. -/
theorem storeWords_writes {vs : List Word} (hlen : vs.length ≤ 65536)
    (hp : ∀ k < vs.length, s.present (a + BitVec.ofNat 16 k) = true) :
    ∃ t, storeWords a vs s = .next t ∧ (∀ k (hk : k < vs.length), t.wordAt (a + BitVec.ofNat 16 k) = vs[k]) ∧
      ∀ b, (∀ k < vs.length, b ≠ a + BitVec.ofNat 16 k) → t.wordAt b = s.wordAt b := by
  induction vs generalizing a s with
  | nil => exact ⟨s, rfl, by simp, fun _ _ => rfl⟩
  | cons v vs ih =>
    have hshift (k : Nat) : a + 1 + BitVec.ofNat 16 k = a + BitVec.ofNat 16 (k + 1) := by
      rw [Nat.add_comm k 1, BitVec.ofNat_add, BitVec.add_assoc]; rfl
    have hfirst : a + BitVec.ofNat 16 0 = a := BitVec.add_zero a
    have hlen' : vs.length + 1 ≤ 65536 := hlen
    have hhead : s.present a = true := hfirst ▸ hp 0 (Nat.succ_pos _)
    have htail : ∀ k < vs.length, (s.putWord a v).present (a + 1 + BitVec.ofNat 16 k) = true := fun k hk => by
      rw [hshift, State.present_of_params (State.putWord_params s a v)]
      exact hp (k + 1) (Nat.succ_lt_succ hk)
    obtain ⟨t, hstore, hwords, hothers⟩ := ih (by omega) htail
    have hdistinct (k : Nat) (hk : k < vs.length) : a ≠ a + 1 + BitVec.ofNat 16 k := fun e => by
      have := congrArg BitVec.toNat (BitVec.self_eq_add_right.1 (e.trans (hshift k)))
      rw [BitVec.toNat_ofNat, BitVec.toNat_ofNat] at this
      omega
    refine ⟨t, storeWords_cons_eq_next.2 ⟨hhead, hstore⟩, fun k hk => ?_, fun b hb => ?_⟩
    · cases k with
      | zero => rw [hfirst, hothers a hdistinct, State.wordAt_putWord_same]; rfl
      | succ k => rw [← hshift]; exact hwords k (Nat.lt_of_succ_lt_succ hk)
    · have hba : b ≠ a := hfirst ▸ hb 0 (Nat.succ_pos _)
      rw [hothers b fun k hk => hshift k ▸ hb (k + 1) (Nat.succ_lt_succ hk), State.wordAt_putWord_ne _ _ hba]

/-- A store of words stays within a frame that has their addresses. -/
theorem Frame.storeWords {regs : List Reg} {bits : List (Fin 16)} {words : List Word} {s₀ : State} {vs : List Word}
    (h : Frame regs bits words s₀ s) (hstore : storeWords a vs s = .next t)
    (ha : ∀ k < vs.length, a + BitVec.ofNat 16 k ∈ words) : Frame regs bits words s₀ t := by
  induction vs generalizing a s with
  | nil => exact storeWords_nil_eq_next.1 hstore ▸ h
  | cons v vs ih =>
    obtain ⟨-, hrest⟩ := storeWords_cons_eq_next.1 hstore
    have hhead : a ∈ words := by simpa using ha 0 (Nat.succ_pos _)
    refine ih (h.putWord v hhead) hrest fun k hk => ?_
    have hmem := ha (k + 1) (Nat.succ_lt_succ hk)
    rwa [Nat.add_comm k 1, BitVec.ofNat_add, ← BitVec.add_assoc] at hmem

/-- A store of words writes no register. -/
theorem storeWords_regAt {vs : List Word} (h : storeWords a vs s = .next t) (k : Fin 16) (r : Reg) : t.regAt k r = s.regAt k r := by
  obtain ⟨hlevels, -⟩ := storeWords_spec h
  rw [State.regAt, State.blockAt, hlevels, State.regAt, State.blockAt]

theorem storeWords_reg {vs : List Word} (h : storeWords a vs s = .next t) (r : Reg) : t.reg r = s.reg r := by
  obtain ⟨-, hlevel, -⟩ := storeWords_spec h
  rw [State.reg, hlevel, storeWords_regAt h, State.reg]

end

end Sys2Proof.Machine
end

section
/-! Memory reference instructions (spec/40_memory_reference.md): the effective address, loads and stores of several words, MIN, the
arithmetic with a memory operand, floating instructions and conversions, and the byte instructions. -/

namespace Sys2Proof.Machine

/-! ### Additions and subtractions -/

/-- The result of an addition in a register, with C, Q and O by the law of additions, and P advanced unless it is the register
(R116): what ADD, SUB and the arithmetic register operations do. -/
structure AdditionTo (r : Reg) (a b : Word) (cin : Bool) (s t : State) : Prop where
  result : t.reg r = a + b + BitVec.ofNat 16 cin.toNat
  flags : AdditionFlags a b cin s t
  next : r ≠ .p → t.reg .p = s.reg .p + 1
  frame : Frame [r] additionBits [] s t

section
variable {s t : State} {r : Reg} {a b : Word} {cin : Bool}

/-- The flags of an addition, written on a state that still has the old O. -/
theorem additionFlags_setAddFlags (ho : t.flag .o = s.flag .o) :
    AdditionFlags a b cin s (t.setAddFlags (add16 a b cin).c (add16 a b cin).v) := by
  obtain ⟨-, hc, hv⟩ := add16_spec a b cin
  rw [AdditionFlags, State.flag_c_setAddFlags, State.flag_q_setAddFlags, State.flag_o_setAddFlags, ho]
  exact ⟨hc, hv, rfl⟩

theorem additionTo_setSum (hr : r ≠ .sts) : AdditionTo r a b cin s (s.advance.setSum r (add16 a b cin)) where
  result := by
    rw [State.setSum, State.reg_setAddFlags _ _ _ hr, State.reg_setReg_same]
    exact (add16_spec a b cin).1
  flags := additionFlags_setAddFlags (by rw [State.flag_setReg _ _ _ hr, State.advance_flag])
  next hp := by rw [State.setSum, State.reg_setAddFlags _ _ _ (by decide), State.reg_setReg_ne _ _ hp.symm, State.advance_p]
  frame := ((Frame.refl ..).advance.setReg _ (.inr (by simp)) hr).setAddFlags _ _

theorem toNat_not (b : Word) : (~~~b).toNat = 65535 - b.toNat := BitVec.toNat_not

theorem toInt_not (b : Word) : (~~~b).toInt = -b.toInt - 1 := by
  have hb := b.isLt
  rw [BitVec.toInt_eq_toNat_cond, BitVec.toInt_eq_toNat_cond, toNat_not]
  split <;> split <;> omega

/-- Adding the one's complement and one subtracts: C says that no borrow occurs, Q is the overflow of the difference (D6, D40). -/
theorem AdditionTo.subtracts (h : AdditionTo r a (~~~b) true s t) : t.reg r = a - b ∧ t.flag .c = decide (b.toNat ≤ a.toNat) ∧
    t.flag .q = decide (a.toInt - b.toInt < -32768 ∨ 32767 < a.toInt - b.toInt) ∧ t.flag .o = (s.flag .o || t.flag .q) := by
  obtain ⟨hc, hq, ho⟩ := h.flags
  have hb := b.isLt
  refine ⟨?_, ?_, ?_, ho⟩
  · rw [h.result, BitVec.sub_eq_add_neg, BitVec.neg_eq_not_add, ← BitVec.add_assoc]
    rfl
  · rw [hc, toNat_not, decide_eq_decide, Bool.toNat_true]
    omega
  · rw [hq, toInt_not, decide_eq_decide, Bool.toNat_true]
    omega

end

/-! ### Stores and loads of several words -/

section
variable {m : MemRef} {s : State} {el : Word}

/-- A store of several words leaves each at its address and changes nothing else but P. -/
theorem storeAtEa_writes {vs : List Word} {words : List Word} (hea : ea m s = .next el) (hlen : vs.length ≤ 65536)
    (hp : allPresent s el vs.length = true) (hwords : ∀ k < vs.length, el + BitVec.ofNat 16 k ∈ words) :
    ∃ t, storeAtEa m vs s = .next t ∧ (∀ k (hk : k < vs.length), t.wordAt (el + BitVec.ofNat 16 k) = vs[k]) ∧
      Frame [] [] words s t := by
  have hp' : ∀ k < vs.length, s.advance.present (el + BitVec.ofNat 16 k) = true := fun k hk =>
    (State.present_of_params s.advance_params _).trans (allPresent_iff.1 hp k hk)
  obtain ⟨t, hstore, hvalues, -⟩ := storeWords_writes hlen hp'
  exact ⟨t, storeAtEa_eq_next.2 ⟨el, hea, hstore⟩, hvalues, (Frame.refl ..).advance.storeWords hstore hwords⟩

theorem allPresent_two (h : allPresent s el 2 = true) : s.present el = true ∧ s.present (el + 1) = true :=
  ⟨by simpa using allPresent_iff.1 h 0 (by decide), allPresent_iff.1 h 1 (by decide)⟩

theorem allPresent_three (h : allPresent s el 3 = true) :
    s.present el = true ∧ s.present (el + 1) = true ∧ s.present (el + 2) = true :=
  ⟨by simpa using allPresent_iff.1 h 0 (by decide), allPresent_iff.1 h 1 (by decide), allPresent_iff.1 h 2 (by decide)⟩

theorem floatOp_writes (f : Bool → Bool → Bool → BitVec 48 → BitVec 48 → Config.FloatResult) (hea : ea m s = .next el)
    (hp : allPresent s el 3 = true) : floatOp f m s = .next (s.advance.setFloatResult (f (s.flag .tg) (s.flag .c) (s.flag .z) s.float
      (s.wordAt el ++ s.wordAt (el + 1) ++ s.wordAt (el + 2)))) := by
  obtain ⟨h0, h1, h2⟩ := allPresent_three hp
  exact floatOp_eq_next.2 ⟨el, hea, h0, h1, h2, rfl⟩

/-- What the result of a floating function is on the state with P advanced: in T, A, D, C and Z, and nowhere else. -/
theorem setFloatResult_advance (s : State) (out : Config.FloatResult) :
    (s.advance.setFloatResult out).reg .t = out.tad.extractLsb' 32 16 ∧
      (s.advance.setFloatResult out).reg .a = out.tad.extractLsb' 16 16 ∧
      (s.advance.setFloatResult out).reg .d = out.tad.extractLsb' 0 16 ∧
      (s.advance.setFloatResult out).reg .p = s.reg .p + 1 ∧
      Frame [.t, .a, .d] [Flag.bit .c, Flag.bit .z] [] s (s.advance.setFloatResult out) :=
  ⟨by simp, by simp, by simp, by simp, (Frame.refl ..).advance.setFloatResult out⟩

end

/-! ### Where a word does not exist (R53, decisions D38 and D43) -/

section
variable {s : State} {a : Word}

theorem loadWord_absent (h : s.present a = false) : loadWord s a = .fault (.noMemory a) := by
  simp [loadWord, h]

theorem storeWord_absent (h : s.present a = false) (v : Word) : storeWord a v s = .fault (.noMemory a) := by
  simp [storeWord, h]

theorem firstAbsent_iff {n k : Nat} : firstAbsent s a n k = true ↔
    k < n ∧ (∀ j < k, s.present (a + BitVec.ofNat 16 j) = true) ∧ s.present (a + BitVec.ofNat 16 k) = false := by
  simp [firstAbsent, allPresent_iff, and_assoc]

/-- A word after word read: present words are read, and the first absent one stops. -/
theorem andThen_loadWord {α : Type} (k : Word → Result α) :
    andThen (loadWord s a) k = if s.present a = true then k (s.wordAt a) else .fault (.noMemory a) := by
  unfold loadWord
  split <;> rfl

theorem storeWords_absent {vs : List Word} {k : Nat} (h : firstAbsent s a vs.length k = true) :
    storeWords a vs s = .fault (.noMemory (a + BitVec.ofNat 16 k)) := by
  obtain ⟨hk, hpresent, habsent⟩ := firstAbsent_iff.1 h
  induction vs generalizing a s k with
  | nil => exact absurd hk (Nat.not_lt_zero k)
  | cons v vs ih =>
    have hfirst : a + BitVec.ofNat 16 0 = a := BitVec.add_zero a
    have hshift (j : Nat) : a + 1 + BitVec.ofNat 16 j = a + BitVec.ofNat 16 (j + 1) := by
      rw [Nat.add_comm j 1, BitVec.ofNat_add, BitVec.add_assoc]; rfl
    cases k with
    | zero =>
      rw [hfirst] at habsent ⊢
      rw [storeWords, storeWord_absent habsent, andThen_fault]
    | succ k =>
      have hhead : s.present a = true := hfirst ▸ hpresent 0 (Nat.succ_pos k)
      have hk' : k < vs.length := Nat.lt_of_succ_lt_succ hk
      have hpresent' : ∀ j < k, (s.putWord a v).present (a + 1 + BitVec.ofNat 16 j) = true := fun j hj => by
        rw [hshift]; exact hpresent (j + 1) (Nat.succ_lt_succ hj)
      have habsent' : (s.putWord a v).present (a + 1 + BitVec.ofNat 16 k) = false := by
        rw [hshift]; exact habsent
      rw [storeWords, storeWord_present hhead, andThen_next, ← hshift,
        ih (firstAbsent_iff.2 ⟨hk', hpresent', habsent'⟩) hk' hpresent' habsent']

theorem loadTwo_absent {k : Nat} (h : firstAbsent s a 2 k = true) : loadTwo s a = .fault (.noMemory (a + BitVec.ofNat 16 k)) := by
  obtain ⟨hk, -, -⟩ := firstAbsent_iff.1 h
  interval_cases k <;> simp_all [firstAbsent, allPresent, List.range_succ, loadTwo, andThen_loadWord]

theorem loadFloat_absent {k : Nat} (h : firstAbsent s a 3 k = true) :
    loadFloat s a = .fault (.noMemory (a + BitVec.ofNat 16 k)) := by
  obtain ⟨hk, -, -⟩ := firstAbsent_iff.1 h
  interval_cases k <;> simp_all [firstAbsent, allPresent, List.range_succ, loadFloat, andThen_loadWord]

theorem loadBlock_absent {k : Nat} (h : firstAbsent s a 8 k = true) :
    loadBlock s a = .fault (.noMemory (a + BitVec.ofNat 16 k)) := by
  obtain ⟨hk, -, -⟩ := firstAbsent_iff.1 h
  interval_cases k <;> simp_all [firstAbsent, allPresent, List.range_succ, loadBlock, andThen_loadWord]

end

end Sys2Proof.Machine

namespace Sys2Proof.MemoryReference

open Sys2Proof.Machine

/-! ### The effective address -/

theorem signed8_eq_ofInt (d : BitVec 8) : signed8 d = BitVec.ofInt 16 d.toInt := rfl

/-- Settles O1: each mode by the one equation of the effective address. -/
theorem effectiveAddressFollowsTheModeTable : Obligations.EffectiveAddressFollowsTheModeTable := by
  rintro d s _ rfl
  rw [← signed8_eq_ofInt]
  refine ⟨?_, ?_, ?_, ?_, fun hp => ⟨?_, ?_⟩, fun hp => ⟨?_, ?_⟩⟩ <;> rw [ea_eq_next]
  · exact ⟨nofun, (BitVec.add_zero _).symm⟩
  · refine ⟨nofun, ?_⟩
    show _ = 0 + signed8 d + s.reg .x
    rw [BitVec.ofNat_eq_ofNat, BitVec.zero_add, BitVec.add_comm]
  · exact ⟨nofun, (BitVec.add_zero _).symm⟩
  · exact ⟨nofun, rfl⟩
  · exact ⟨fun _ => hp, (BitVec.add_zero _).symm⟩
  · exact ⟨fun _ => hp, rfl⟩
  · exact ⟨fun _ => hp, (BitVec.add_zero _).symm⟩
  · exact ⟨fun _ => hp, rfl⟩

/-! ### Absent words -/

/-- The instruction computes the effective address and goes on with it. -/
def StartsAtEa (m : MemRef) (s : State) (i : Instr) : Prop := ∃ k : Word → Result State, exec i s = andThen (ea m s) k

theorem StartsAtEa.fault {m : MemRef} {s : State} {i : Instr} (h : StartsAtEa m s i) {f : Fault} (hea : ea m s = .fault f) :
    exec i s = .fault f := by
  obtain ⟨k, hk⟩ := h
  rw [hk, hea, andThen_fault]

/-- An indirect word that does not exist leaves no effective address. -/
theorem ea_absent {m : MemRef} {s : State} (hi : m.i = true)
    (hp : s.present ((if m.b then s.reg .b else s.reg .p) + BitVec.ofInt 16 m.disp.toInt) = false) :
    ea m s = .fault (.noMemory ((if m.b then s.reg .b else s.reg .p) + BitVec.ofInt 16 m.disp.toInt)) := by
  have hbase : eaBase m s = if m.b then s.reg .b else s.reg .p := by simp [eaBase, hi]
  rw [ea, eaIndirect, if_pos hi, hbase, signed8_eq_ofInt, loadWord_absent hp, andThen_fault]

/-- Settles O2: the access that finds no word stops the sequence that it begins or is reached in. -/
theorem absentMemoryStopsTheStep : Obligations.AbsentMemoryStopsTheStep := by
  refine ⟨fun s hp => ?_, fun m s a hi ha hp i hmem => ?_, fun m s el hea => ⟨fun hp i hmem => ?_, fun k hk i hmem => ?_,
    fun k hk i hmem => ?_⟩, fun s hp i hmem => ?_, fun n s k hlevel hk i hmem => ?_⟩
  · rw [step, loadWord_absent hp, andThen_fault]
  · subst ha
    refine StartsAtEa.fault (m := m) ?_ (ea_absent hi hp)
    simp only [List.mem_cons, List.not_mem_nil, or_false] at hmem
    rcases hmem with rfl | rfl | rfl | rfl | rfl | rfl | rfl | rfl | rfl | rfl | rfl | rfl | rfl | rfl | rfl | rfl | rfl | rfl | rfl |
      rfl | rfl | rfl | rfl <;> exact ⟨_, rfl⟩
  · have hload := loadWord_absent hp
    have hstore (v : Word) : storeWords el [v] s.advance = .fault (.noMemory el) := by
      rw [storeWords, storeWord_absent (by rwa [State.present_of_params s.advance_params]), andThen_fault]
    simp only [List.mem_cons, List.not_mem_nil, or_false] at hmem
    rcases hmem with rfl | rfl | rfl | rfl | rfl | rfl | rfl | rfl | rfl | rfl | rfl | rfl | rfl
    · rw [exec_stz, storeAtEa, hea, andThen_next, hstore]
    · rw [exec_sta, storeAtEa, hea, andThen_next, hstore]
    · rw [exec_stt, storeAtEa, hea, andThen_next, hstore]
    · rw [exec_stx, storeAtEa, hea, andThen_next, hstore]
    · rw [exec, execMin, hea, andThen_next, hload, andThen_fault]
    · rw [exec_lda, loadReg, hea, andThen_next, hload, andThen_fault]
    · rw [exec_ldt, loadReg, hea, andThen_next, hload, andThen_fault]
    · rw [exec_ldx, loadReg, hea, andThen_next, hload, andThen_fault]
    · rw [exec, execAdd, withOperand, hea, andThen_next, hload, andThen_fault]
    · rw [exec, execSub, withOperand, hea, andThen_next, hload, andThen_fault]
    · rw [exec_and, withOperand, hea, andThen_next, hload, andThen_fault]
    · rw [exec_ora, withOperand, hea, andThen_next, hload, andThen_fault]
    · rw [exec, execMpy, withOperand, hea, andThen_next, hload, andThen_fault]
  · simp only [List.mem_cons, List.not_mem_nil, or_false] at hmem
    rcases hmem with rfl | rfl
    · rw [exec, execStd, storeAtEa, hea, andThen_next]; exact storeWords_absent (s := s.advance) hk
    · rw [exec, execLdd, hea, andThen_next, loadTwo_absent hk, andThen_fault]
  · have hload := loadFloat_absent hk
    simp only [List.mem_cons, List.not_mem_nil, or_false] at hmem
    rcases hmem with rfl | rfl | rfl | rfl | rfl | rfl
    · rw [exec, execStf, storeAtEa, hea, andThen_next]; exact storeWords_absent (s := s.advance) hk
    · rw [exec, execLdf, hea, andThen_next, hload, andThen_fault]
    · rw [exec, execFad, floatOp, hea, andThen_next, hload, andThen_fault]
    · rw [exec, execFsb, floatOp, hea, andThen_next, hload, andThen_fault]
    · rw [exec, execFmu, floatOp, hea, andThen_next, hload, andThen_fault]
    · rw [exec, execFdv, floatOp, hea, andThen_next, hload, andThen_fault]
  · simp only [List.mem_cons, List.not_mem_nil, or_false] at hmem
    rcases hmem with rfl | rfl
    · rw [exec, execLbyt, loadWord_absent hp, andThen_fault]
    · rw [exec, execSbyt, loadWord_absent hp, andThen_fault]
  · have hblock : blockAddress n s = .next (s.reg .x) :=
      blockAddress_eq_next.2 ⟨by rcases hlevel with h | h <;> simp [blockRefused, h], rfl⟩
    simp only [List.mem_cons, List.not_mem_nil, or_false] at hmem
    rcases hmem with rfl | rfl
    · rw [exec, execLrb, hblock, andThen_next, loadBlock_absent hk, andThen_fault]
    · rw [exec, execSrb, hblock, andThen_next]; exact storeWords_absent (s := s.advance.drew 1) hk

/-! ### Loads and stores of several words, and MIN -/

/-- Settles O4: the words of the two stores, in the order of their addresses. -/
theorem doubleAndFloatingStoresWriteTheirWords : Obligations.DoubleAndFloatingStoresWriteTheirWords := by
  refine fun m s el hea => ⟨fun hp => ?_, fun hp => ?_⟩
  · have haddr : ∀ k < 2, el + BitVec.ofNat 16 k ∈ [el, el + 1] := fun k hk => by interval_cases k <;> simp
    obtain ⟨t, hstore, hwords, hframe⟩ := storeAtEa_writes (vs := [s.reg .a, s.reg .d]) hea (by simp) hp haddr
    exact ⟨t, hstore, by simpa using hwords 0 (by simp), hwords 1 (by simp), hframe⟩
  · have haddr : ∀ k < 3, el + BitVec.ofNat 16 k ∈ [el, el + 1, el + 2] := fun k hk => by interval_cases k <;> simp
    obtain ⟨t, hstore, hwords, hframe⟩ := storeAtEa_writes (vs := [s.reg .t, s.reg .a, s.reg .d]) hea (by simp) hp haddr
    exact ⟨t, hstore, by simpa using hwords 0 (by simp), hwords 1 (by simp), hwords 2 (by simp), hframe⟩

/-- Settles O7: the words of the two loads, in the order of their addresses. -/
theorem doubleAndFloatingLoadsReadTheirWords : Obligations.DoubleAndFloatingLoadsReadTheirWords := by
  refine fun m s el hea => ⟨fun hp => ?_, fun hp => ?_⟩
  · obtain ⟨h0, h1⟩ := allPresent_two hp
    refine ⟨_, andThen_eq_next.2 ⟨el, hea, andThen_eq_next.2 ⟨_, loadTwo_eq_next.2 ⟨h0, h1, rfl⟩, rfl⟩⟩, ?_, ?_, ?_⟩
    · rw [State.reg_setReg_ne _ _ (by decide), State.reg_setReg_same]
    · rw [State.reg_setReg_same]
    · exact ((Frame.refl ..).advance.setData _).setData _
  · obtain ⟨h0, h1, h2⟩ := allPresent_three hp
    obtain ⟨ht, ha, hd⟩ := extract_float (s.wordAt el) (s.wordAt (el + 1)) (s.wordAt (el + 2))
    refine ⟨_, andThen_eq_next.2 ⟨el, hea, andThen_eq_next.2 ⟨_, loadFloat_eq_next.2 ⟨h0, h1, h2, rfl⟩, rfl⟩⟩, ?_, ?_, ?_, ?_⟩
    · rw [State.t_setFloat, ht]
    · rw [State.a_setFloat, ha]
    · rw [State.d_setFloat, hd]
    · exact (Frame.refl ..).advance.setFloat _

/-- Settles O5: the new word is zero exactly from 177777. -/
theorem minIncrementsAndSkipsOnZero : Obligations.MinIncrementsAndSkipsOnZero := by
  intro m s el hea hp
  have hzero : (s.wordAt el + 1 == 0) = decide (s.wordAt el = 0o177777) := by
    rw [Bool.eq_iff_iff, beq_iff_eq, decide_eq_true_eq]
    bv_omega
  have hp' : (s.skipIf (s.wordAt el + 1 == 0)).present el = true := (State.present_of_params (State.skipIf_params ..) el).trans hp
  refine ⟨_, andThen_eq_next.2 ⟨el, hea, andThen_eq_next.2 ⟨_, loadWord_present hp, storeWord_present hp'⟩⟩, ?_, ?_, ?_⟩
  · exact State.wordAt_putWord_same ..
  · rw [State.putWord_reg, State.skipIf_p, hzero]
    simp only [decide_eq_true_eq]
  · exact ((Frame.refl ..).skipIf _).putWord _ (by simp)

/-! ### Arithmetic -/

/-- Settles O8: ADD is an addition without a carry in. -/
theorem addSumsWithCarryAndOverflow : Obligations.AddSumsWithCarryAndOverflow := by
  intro m s el hea hp
  have hadd := additionTo_setSum (r := .a) (a := s.reg .a) (b := s.wordAt el) (cin := false) (s := s) (by decide)
  exact ⟨_, withOperand_eq_next.2 ⟨el, hea, hp, rfl⟩, hadd.result.trans (BitVec.add_zero _), hadd.flags, hadd.next (by decide),
    hadd.frame⟩

/-- Settles O9: SUB adds the one's complement and one. -/
theorem subSubtractsWithNoBorrowCarry : Obligations.SubSubtractsWithNoBorrowCarry := by
  intro m s el hea hp
  have hadd := additionTo_setSum (r := .a) (a := s.reg .a) (b := ~~~(s.wordAt el)) (cin := true) (s := s) (by decide)
  obtain ⟨hresult, hc, hq, ho⟩ := hadd.subtracts
  exact ⟨_, withOperand_eq_next.2 ⟨el, hea, hp, rfl⟩, hresult, hc, hq, ho, hadd.next (by decide), hadd.frame⟩

/-- A number fits 16 signed bits exactly where its low half read as signed is the number. -/
theorem overflows16_iff (n : Int) : overflows16 n = true ↔ (BitVec.ofInt 16 n).toInt ≠ n := by
  have hlt := (BitVec.ofInt 16 n).isLt
  have hvalue := BitVec.toInt_ofInt (n := 16) n
  rw [Int.bmod_def] at hvalue
  simp only [overflows16, Bool.or_eq_true, decide_eq_true_eq]
  split at hvalue <;> omega

/-- Settles O11: the low half of the product, and its overflow. -/
theorem mpyMultipliesAndFlagsOverflow : Obligations.MpyMultipliesAndFlagsOverflow := by
  intro m s el hea hp
  refine ⟨_, withOperand_eq_next.2 ⟨el, hea, hp, rfl⟩, ?_, ?_, ?_, ?_, ?_⟩
  · rw [State.reg_setOverflow _ _ (by decide), State.reg_setReg_same, BitVec.ofInt_mul, BitVec.ofInt_toInt, BitVec.ofInt_toInt]
  · rw [State.flag_q_setOverflow, State.reg_setOverflow _ _ (by decide), State.reg_setReg_same, overflows16_iff]
  · rw [State.flag_o_setOverflow, State.flag_q_setOverflow, State.flag_setReg _ _ _ (by decide), State.advance_flag]
  · rw [State.reg_setOverflow _ _ (by decide), State.reg_setReg_ne _ _ (by decide), State.advance_p]
  · exact ((Frame.refl ..).advance.setData _).setOverflow _

/-! ### Floating functions -/

/-- Settles O12: each instruction is the shared operation with its function. -/
theorem floatingOperationsApplyTheirFunction : Obligations.FloatingOperationsApplyTheirFunction := by
  rintro m s el _ hea hp rfl i f hmem
  obtain ⟨ht, ha, hd, hpc, hframe⟩ := setFloatResult_advance s (f (s.flag .tg) (s.flag .c) (s.flag .z) s.float
    (s.wordAt el ++ s.wordAt (el + 1) ++ s.wordAt (el + 2)))
  have hexec : exec i s = floatOp f m s := by
    simp only [List.mem_cons, List.not_mem_nil, or_false, Prod.mk.injEq] at hmem
    obtain ⟨rfl, rfl⟩ | ⟨rfl, rfl⟩ | ⟨rfl, rfl⟩ | ⟨rfl, rfl⟩ := hmem <;> rfl
  refine ⟨_, hexec.trans (floatOp_writes f hea hp), ?_, State.flag_c_setFloatResult .., State.flag_z_setFloatResult .., hpc, hframe⟩
  rw [ht, ha, hd, words_of_float]

/-- Settles O13: each conversion writes the result of its function. -/
theorem conversionsApplyTheirFunction : Obligations.ConversionsApplyTheirFunction := by
  intro k s i f hmem
  obtain ⟨ht, ha, hd, hpc, hframe⟩ := setFloatResult_advance s f
  have hexec : exec i s = .next (s.advance.setFloatResult f) := by
    simp only [List.mem_cons, List.not_mem_nil, or_false, Prod.mk.injEq] at hmem
    obtain ⟨rfl, rfl⟩ | ⟨rfl, rfl⟩ := hmem <;> rfl
  exact ⟨_, hexec, ht, ha, hd, State.flag_c_setFloatResult .., State.flag_z_setFloatResult .., hpc, hframe⟩

/-! ### Bytes -/

/-- Settles O14: twice the word's number and bit 0 of X make up the byte's number. -/
theorem bytesOfAStringAreNumberedByX : Obligations.BytesOfAStringAreNumberedByX := by
  intro s
  have hright : (byteRight s).toNat = (s.reg .x).toNat % 2 := by
    rw [byteRight, BitVec.getLsbD, Nat.testBit_zero]
    rcases Nat.mod_two_eq_zero_or_one (s.reg .x).toNat with h | h <;> rw [h] <;> rfl
  have ht := (s.reg .t).isLt
  have hx := (s.reg .x).isLt
  refine ⟨fun hmode => ?_, fun hmode => ?_⟩
  · have hhalf : (halved s.params.byteXHalving (s.reg .x)).toNat = (s.reg .x).toNat / 2 := by
      rw [hmode, halved, BitVec.toNat_ushiftRight, Nat.shiftRight_one]
    rw [byteNumber, hright, byteWord, BitVec.toNat_add, hhalf]
    omega
  · have hhalf : (halved s.params.byteXHalving (s.reg .x)).toInt = (s.reg .x).toInt / 2 := by
      rw [hmode, halved, BitVec.toInt_sshiftRight, Int.shiftRight_eq_div_pow]
      rfl
    have hh := (halved s.params.byteXHalving (s.reg .x)).isLt
    rw [byteNumber, hright, byteWord, BitVec.toNat_add]
    rw [BitVec.toInt_eq_toNat_cond, BitVec.toInt_eq_toNat_cond] at hhalf
    rw [BitVec.toInt_eq_toNat_cond]
    split at hhalf <;> split at hhalf <;> omega

/-- The byte of a word that LBYT loads and SBYT replaces. -/
theorem byte_of_word (s : State) (a : Word) (right : Bool) :
    (if right then (s.wordAt a).extractLsb' 0 8 else (s.wordAt a).extractLsb' 8 8) = s.byteAt (byteNumber a right) := by
  cases right with
  | true => exact BitVec.extractLsb'_append_eq_right
  | false => exact BitVec.extractLsb'_append_eq_left

/-- Settles O15: the addressed half of the word, extended by zeros. -/
theorem lbytLoadsTheAddressedByte : Obligations.LbytLoadsTheAddressedByte := by
  intro s hp
  refine ⟨_, andThen_eq_next.2 ⟨_, loadWord_present hp, rfl⟩, ?_, ?_, (Frame.refl ..).advance.setData _⟩
  · rw [State.reg_setReg_same, byte_of_word, BitVec.toNat_setWidth]
    exact Nat.mod_eq_of_lt (Nat.lt_trans (BitVec.isLt _) (by decide))
  · rw [State.reg_setReg_ne _ _ (by decide), State.advance_p]

/-- A word put back with one of its bytes replaced changes that byte alone. -/
theorem byteAt_replaceByte (s : State) (a : Word) (right : Bool) (v : Byte) (j : Nat) :
    (s.putWord a (if right then (s.wordAt a).extractLsb' 8 8 ++ v else v ++ (s.wordAt a).extractLsb' 0 8)).byteAt j =
      if j = byteNumber a right then v else s.byteAt j := by
  have hleft := byte_of_word s a false
  have hright := byte_of_word s a true
  have hne : byteNumber a false ≠ byteNumber a true := by rw [byteNumber_false, byteNumber_true]; omega
  rw [if_neg Bool.false_ne_true] at hleft
  rw [if_pos rfl] at hright
  cases right with
  | true =>
    rw [State.byteAt_putWord, if_pos rfl, BitVec.extractLsb'_append_eq_right, BitVec.extractLsb'_append_eq_left, hleft]
    split_ifs with h h' <;> simp_all
  | false =>
    rw [State.byteAt_putWord, if_neg Bool.false_ne_true, BitVec.extractLsb'_append_eq_right, BitVec.extractLsb'_append_eq_left, hright]
    split_ifs with h h' <;> simp_all

/-- Settles O16: the word is put back with the addressed half replaced, and its other half as it was. -/
theorem sbytStoresOnlyTheAddressedByte : Obligations.SbytStoresOnlyTheAddressedByte := by
  intro s hp
  have hp' : s.advance.present (byteWord s) = true := (State.present_of_params s.advance_params _).trans hp
  refine ⟨_, andThen_eq_next.2 ⟨_, loadWord_present hp, storeWord_present hp'⟩, ?_, fun k hk => ?_, ?_,
    (Frame.refl ..).advance.putWord _ (by simp)⟩
  · exact (byteAt_replaceByte s.advance _ _ _ _).trans (if_pos rfl)
  · exact (byteAt_replaceByte s.advance _ _ _ k).trans (if_neg hk)
  · rw [State.putWord_reg, State.advance_p]

end Sys2Proof.MemoryReference
end

section
/-! Register operations (spec/44_register_operations.md), argument additions (spec/43_argument.md) and the transfer TRA
(spec/48_transfer.md). Every arithmetic register operation is one addition; its rows are read off the operands of that addition. -/

namespace Sys2Proof.Machine

/-! ### Operand fields -/

section
variable {s t : State} {r : Reg}

/-- A field's number is one of eight. -/
theorem field_cases (n : BitVec 3) : n = 0 ∨ n = 1 ∨ n = 2 ∨ n = 3 ∨ n = 4 ∨ n = 5 ∨ n = 6 ∨ n = 7 := by revert n; decide

theorem sourceValue_ofNum (n : BitVec 3) (s : State) :
    sourceValue (Src.ofNum n) s = if n = 0 then 0 else s.reg (Reg.ofNum n) := by
  rcases field_cases n with rfl | rfl | rfl | rfl | rfl | rfl | rfl | rfl <;> rfl

theorem destination_ofNum (n : BitVec 3) : destination (Dst.ofNum n) = if n = 0 then .refused .dest0 else .next (Reg.ofNum n) := by
  rcases field_cases n with rfl | rfl | rfl | rfl | rfl | rfl | rfl | rfl <;> rfl

/-! ### The arithmetic register operation -/

/-- With a destination and not both ADC and AD1, the operation is the addition of its operands (R188). -/
theorem arithOp_adds {adc ad1 : Bool} {dr : Dst} (hdst : destination dr = .next r) (hmod : (adc && ad1) = false) (cm1 cld : Bool)
    (sr : Src) (s : State) : ∃ t, arithOp adc ad1 cm1 cld sr dr s = .next t ∧
      AdditionTo r (destOperand cld r s) (sourceOperand cm1 sr s) (carryIn adc ad1 s) s t :=
  ⟨_, arithOp_eq_next.2 ⟨hmod, r, hdst, rfl⟩, additionTo_setSum (destination_ne_sts hdst)⟩

/-- Adding to zero moves the other operand, with C and Q zero and O as it was (D6). -/
theorem AdditionTo.moves {b : Word} (h : AdditionTo r 0 b false s t) :
    t.reg r = b ∧ t.flag .c = false ∧ t.flag .q = false ∧ Frame [r] [Flag.bit .c, Flag.bit .q] [] s t := by
  obtain ⟨hc, hq, ho⟩ := h.flags
  have hzero : (0 : Word).toInt = 0 ∧ (0 : Word).toNat = 0 := by decide
  have hlow := b.le_toInt
  have hhigh := b.toInt_lt
  have hlt := b.isLt
  have hq' : t.flag .q = false := by
    rw [hq, decide_eq_false_iff_not, hzero.1, Bool.toNat_false]
    omega
  refine ⟨?_, ?_, hq', h.frame.dropBits fun i hi hkept => ?_⟩
  · rw [h.result]
    exact (BitVec.add_zero _).trans (BitVec.zero_add b)
  · rw [hc, decide_eq_false_iff_not, hzero.2, Bool.toNat_false]
    omega
  · obtain rfl : i = Flag.bit .o := by simp only [additionBits, List.mem_cons, List.not_mem_nil, or_false] at hi hkept; tauto
    rw [hq', Bool.or_false] at ho
    exact ho

/-- Adding one carries out of 177777 and overflows from 077777. -/
theorem AdditionTo.increments {a : Word} (h : AdditionTo r a 0 true s t) : t.reg r = a + 1 ∧
    t.flag .c = decide (a = 0o177777) ∧ t.flag .q = decide (a = 0o077777) ∧ t.flag .o = (s.flag .o || t.flag .q) := by
  obtain ⟨hc, hq, ho⟩ := h.flags
  have hlt := a.isLt
  refine ⟨?_, ?_, ?_, ho⟩
  · rw [h.result]
    exact congrArg (· + 1) (BitVec.add_zero a)
  · rw [hc, decide_eq_decide, BitVec.toNat_inj.symm]
    show 65536 ≤ a.toNat + 0 + 1 ↔ a.toNat = 65535
    omega
  · rw [hq, decide_eq_decide, BitVec.toNat_inj.symm]
    show a.toInt + 0 + 1 < -32768 ∨ 32767 < a.toInt + 0 + 1 ↔ a.toNat = 32767
    rw [BitVec.toInt_eq_toNat_cond]
    split <;> omega

/-- Adding minus one carries unless from 000000 and overflows from 100000. -/
theorem AdditionTo.decrements {a : Word} (h : AdditionTo r a (~~~0) false s t) : t.reg r = a - 1 ∧
    t.flag .c = decide (a ≠ 0) ∧ t.flag .q = decide (a = 0o100000) ∧ t.flag .o = (s.flag .o || t.flag .q) := by
  obtain ⟨hc, hq, ho⟩ := h.flags
  have hlt := a.isLt
  refine ⟨?_, ?_, ?_, ho⟩
  · rw [h.result, BitVec.sub_eq_add_neg]
    exact BitVec.add_zero _
  · rw [hc, decide_eq_decide, ne_eq, BitVec.toNat_inj.symm]
    show 65536 ≤ a.toNat + 65535 + 0 ↔ ¬a.toNat = 0
    omega
  · rw [hq, decide_eq_decide, BitVec.toNat_inj.symm]
    show a.toInt + -1 + 0 < -32768 ∨ 32767 < a.toInt + -1 + 0 ↔ a.toNat = 32768
    rw [BitVec.toInt_eq_toNat_cond]
    split <;> omega

/-! ### Logical operations and exchange -/

/-- Writing a register on the state with P advanced: the value, P, and nothing else. -/
theorem setReg_advance (hr : r ≠ .sts) (v : Word) : (s.advance.setReg r v).reg r = v ∧
    (r ≠ .p → (s.advance.setReg r v).reg .p = s.reg .p + 1) ∧ Frame [r] [] [] s (s.advance.setReg r v) :=
  ⟨State.reg_setReg_same .., fun hp => by rw [State.reg_setReg_ne _ _ hp.symm, State.advance_p],
    (Frame.refl ..).advance.setReg _ (.inr (by simp)) hr⟩

theorem logicOp_writes {dr : Dst} (hdst : destination dr = .next r) (f : Word → Word → Word) (cm1 cld : Bool) (sr : Src) (s : State) :
    ∃ t, logicOp f cm1 cld sr dr s = .next t ∧ t.reg r = f (destOperand cld r s) (sourceOperand cm1 sr s) ∧
      (r ≠ .p → t.reg .p = s.reg .p + 1) ∧ Frame [r] [] [] s t :=
  ⟨_, logicOp_eq_next.2 ⟨r, hdst, rfl⟩, setReg_advance (destination_ne_sts hdst) _⟩

/-- The destination is written last, so it holds the source operand also where the source is the destination itself. -/
theorem swapOp_writes {dr : Dst} (hdst : destination dr = .next r) (cm1 cld : Bool) (sr : Src) (s : State) :
    ∃ t, swapOp cm1 cld sr dr s = .next t ∧ t.reg r = sourceOperand cm1 sr s ∧
      (∀ q, sourceReg sr = some q → q ≠ r → t.reg q = destOperand cld r s) ∧
      (r ≠ .p → sourceReg sr ≠ some .p → t.reg .p = s.reg .p + 1) ∧ Frame (r :: (sourceReg sr).toList) [] [] s t := by
  have hr := destination_ne_sts hdst
  refine ⟨_, swapOp_eq_next.2 ⟨r, hdst, rfl⟩, State.reg_setReg_same .., ?_⟩
  cases hsrc : sourceReg sr with
  | none =>
    obtain ⟨-, hp, hframe⟩ := setReg_advance (s := s) hr (sourceOperand cm1 sr s)
    exact ⟨nofun, fun h _ => hp h, hframe⟩
  | some q =>
    refine ⟨fun q' hq' hne => ?_, fun hp hq => ?_, ?_⟩
    · obtain rfl := Option.some.inj hq'
      rw [State.reg_setReg_ne _ _ hne, State.reg_setReg_same]
    · have hqp : Reg.p ≠ q := fun e => hq (congrArg some e.symm)
      rw [State.reg_setReg_ne _ _ hp.symm, State.reg_setReg_ne _ _ hqp, State.advance_p]
    · exact ((Frame.refl ..).advance.setReg _ (.inr (by simp)) (sourceReg_ne_sts hsrc)).setReg _ (.inr (by simp)) hr

/-! ### Multiplication and division -/

/-- The product of two signed words is a signed double word. -/
theorem toInt_product (a b : Word) : (BitVec.ofInt 32 (a.toInt * b.toInt)).toInt = a.toInt * b.toInt := by
  have hhigh := BitVec.toInt_mul_toInt_le (x := a) (y := b)
  have hlow := BitVec.le_toInt_mul_toInt (x := a) (y := b)
  refine BitVec.toInt_ofInt_eq_self (by decide) ?_ ?_
  · exact le_trans (by decide) hlow
  · exact lt_of_le_of_lt hhigh (by decide)

/-- A word written from a number that fits holds the number. -/
theorem toInt_ofInt_of_fits {n : Int} (h : -32768 ≤ n ∧ n ≤ 32767) : (BitVec.ofInt 16 n).toInt = n :=
  BitVec.toInt_ofInt_eq_self (by decide) h.1 (Int.lt_add_one_of_le h.2)

theorem overflows16_eq_false {n : Int} : overflows16 n = false ↔ -32768 ≤ n ∧ n ≤ 32767 := by
  simp only [overflows16, Bool.or_eq_false_iff, decide_eq_false_iff_not]
  omega

/-- The remainder of a division by a word is a word. -/
theorem tmod_fits (n : Int) {d : Word} (hd : d.toInt ≠ 0) : -32768 ≤ Int.tmod n d.toInt ∧ Int.tmod n d.toInt ≤ 32767 := by
  have hlow := d.le_toInt
  have hhigh := d.toInt_lt
  have hmod := Nat.mod_lt n.natAbs (Int.natAbs_pos.2 hd)
  rw [← Int.natAbs_tmod] at hmod
  omega

/-- RDIV on its defined path (R206). -/
theorem execRdiv_writes {sr : Src} (hd : sourceValue sr s ≠ 0)
    (hfits : -32768 ≤ Int.tdiv s.double.toInt (sourceValue sr s).toInt ∧ Int.tdiv s.double.toInt (sourceValue sr s).toInt ≤ 32767) :
    ∃ t, exec (.rdiv sr) s = .next t ∧ (t.reg .a).toInt = Int.tdiv s.double.toInt (sourceValue sr s).toInt ∧
      (t.reg .d).toInt = Int.tmod s.double.toInt (sourceValue sr s).toInt ∧ t.reg .p = s.reg .p + 1 ∧ Frame [.a, .d] [] [] s t := by
  have hd' : (sourceValue sr s).toInt ≠ 0 := fun h => hd (BitVec.eq_of_toInt_eq h)
  refine ⟨_, andThen_eq_next.2 ⟨_, quotientRemainder_eq_next.2 ⟨hd, overflows16_eq_false.2 hfits, rfl⟩, rfl⟩, ?_, ?_, ?_, ?_⟩
  · rw [State.reg_setReg_ne _ _ (by decide), State.reg_setReg_same, toInt_ofInt_of_fits hfits]
  · rw [State.reg_setReg_same, Int.mul_comm, ← Int.tmod_def, toInt_ofInt_of_fits (tmod_fits _ hd')]
  · rw [State.reg_setReg_ne _ _ (by decide), State.reg_setReg_ne _ _ (by decide), State.advance_p]
  · exact ((Frame.refl ..).advance.setData _).setData _

/-- Quotient and remainder are the only numbers with these bounds and signs. -/
theorem tdiv_tmod_unique {n d q r : Int} (heq : n = q * d + r) (hlt : r.natAbs < d.natAbs) (hsign : r = 0 ∨ (0 < r ↔ 0 < n)) :
    Int.tdiv n d = q ∧ Int.tmod n d = r := by
  have hd : d ≠ 0 := by rintro rfl; simp at hlt
  have heq' : r + d * q = n := by rw [heq, Int.mul_comm, Int.add_comm]
  by_cases hn : 0 ≤ n
  · refine (Int.tdiv_tmod_unique hn hd).2 ⟨heq', ?_, by omega⟩
    by_contra hr
    obtain rfl : n = 0 := by omega
    have hprod : d.natAbs * q.natAbs = r.natAbs := by rw [← Int.natAbs_mul]; omega
    have hq : q.natAbs = 0 := by
      by_contra hq
      have := Nat.le_mul_of_pos_right d.natAbs (Nat.pos_of_ne_zero hq)
      omega
    rw [hq, Nat.mul_zero] at hprod
    omega
  · refine (Int.tdiv_tmod_unique' (by omega) hd).2 ⟨heq', by omega, ?_⟩
    omega

end

end Sys2Proof.Machine

namespace Sys2Proof.RegisterOperation

open Sys2Proof.Machine

/-! ### Operands -/

/-- Settles O22: field by field. -/
theorem operandFieldsNameTheRegisters : Obligations.OperandFieldsNameTheRegisters := fun n s =>
  ⟨sourceValue_ofNum n s, destination_ofNum n⟩

/-! ### Arithmetic operations -/

/-- Settles O23: the operation and its two rows are the one addition. -/
theorem arithmeticRegisterOperationsAdd : Obligations.ArithmeticRegisterOperationsAdd := by
  rintro adc ad1 cm1 cld sr dr r s _ _ _ i hdst hmod rfl rfl rfl hi
  have hexec : exec i s = arithOp adc ad1 cm1 cld sr dr s := by
    obtain rfl | ⟨rfl, rfl, rfl, rfl, rfl⟩ | ⟨rfl, rfl, rfl, rfl, rfl⟩ := hi <;> rfl
  have hcarry : (if ad1 then true else if adc then s.flag .c else false) = carryIn adc ad1 s := by
    cases ad1 <;> cases adc <;> rfl
  obtain ⟨t, ht, hadd⟩ := arithOp_adds hdst hmod cm1 cld sr s
  rw [hcarry]
  exact ⟨t, hexec.trans ht, hadd.result, hadd.flags, hadd.next, hadd.frame⟩

/-- Settles O24: the addition of the complement and one. -/
theorem rsubSubtractsTheSource : Obligations.RsubSubtractsTheSource := by
  intro sr dr r s hdst
  obtain ⟨t, ht, hadd⟩ := arithOp_adds (adc := false) (ad1 := true) hdst rfl true false sr s
  obtain ⟨hresult, hc, hq, ho⟩ := hadd.subtracts
  exact ⟨t, ht, hresult, hc, hq, ho, hadd.next, hadd.frame⟩

/-- Settles O25: each is an addition to a cleared destination. -/
theorem copyExitAndRclrTransfer : Obligations.CopyExitAndRclrTransfer := by
  have hcopy (sr : Src) {dr : Dst} {r : Reg} (s : State) (hdst : destination dr = .next r) :=
    arithOp_adds (adc := false) (ad1 := false) hdst rfl false true sr s
  refine ⟨fun sr dr r s hdst => ⟨?_, ?_⟩, fun s => ?_⟩
  · obtain ⟨t, ht, hadd⟩ := hcopy sr s hdst
    obtain ⟨hresult, hc, hq, hframe⟩ := hadd.moves
    exact ⟨t, ht, hresult, hc, hq, hadd.next, hframe⟩
  · obtain ⟨t, ht, hadd⟩ := hcopy .zero s hdst
    obtain ⟨hresult, hc, hq, hframe⟩ := hadd.moves
    exact ⟨t, ht, hresult, hc, hq, hadd.next, hframe⟩
  · obtain ⟨t, ht, hadd⟩ := hcopy .l (dr := .p) s rfl
    obtain ⟨hresult, hc, hq, hframe⟩ := hadd.moves
    exact ⟨t, ht, hresult, hc, hq, hframe.dropP⟩

/-- Settles O26: additions of one, and of minus one. -/
theorem rincAndRcdrCount : Obligations.RincAndRcdrCount := by
  intro dr r s hdst
  refine ⟨?_, ?_⟩
  · obtain ⟨t, ht, hadd⟩ := arithOp_adds (adc := false) (ad1 := true) hdst rfl false false .zero s
    obtain ⟨hresult, hc, hq, ho⟩ := AdditionTo.increments hadd
    exact ⟨t, ht, hresult, hc, hq, ho, hadd.next, hadd.frame⟩
  · obtain ⟨t, ht, hadd⟩ := arithOp_adds (adc := false) (ad1 := false) hdst rfl true false .zero s
    obtain ⟨hresult, hc, hq, ho⟩ := AdditionTo.decrements hadd
    exact ⟨t, ht, hresult, hc, hq, ho, hadd.next, hadd.frame⟩

/-! ### Logical operations -/

/-- Settles O27: each is the shared operation with its connective. -/
theorem logicalRegisterOperationsCombine : Obligations.LogicalRegisterOperationsCombine := by
  rintro cm1 cld sr dr r s _ _ hdst rfl rfl i w hmem
  simp only [List.mem_cons, List.not_mem_nil, or_false, Prod.mk.injEq] at hmem
  obtain ⟨rfl, rfl⟩ | ⟨rfl, rfl⟩ | ⟨rfl, rfl⟩ := hmem
  · exact logicOp_writes hdst (fun d v => d &&& v) cm1 cld sr s
  · exact logicOp_writes hdst (fun d v => d ^^^ v) cm1 cld sr s
  · exact logicOp_writes hdst (fun d v => d ||| v) cm1 cld sr s

/-- Settles O28: SWAP and its two rows are the one exchange. -/
theorem swapExchangesTheOperands : Obligations.SwapExchangesTheOperands := by
  intro cm1 cld sr dr r s i hdst hi
  have hexec : exec i s = swapOp cm1 cld sr dr s := by
    obtain rfl | ⟨rfl, rfl, rfl⟩ | ⟨rfl, rfl, rfl⟩ := hi <;> rfl
  rw [hexec]
  exact swapOp_writes hdst cm1 cld sr s

/-! ### Extended arithmetic -/

/-- Settles O31: the two halves of the product are the product. -/
theorem rmpyLeavesTheExactProduct : Obligations.RmpyLeavesTheExactProduct := by
  intro sr dr r s hdst
  refine ⟨_, andThen_eq_next.2 ⟨r, hdst, rfl⟩, ?_, ?_, (Frame.refl ..).advance.setDouble _⟩
  · rw [State.a_setDouble, State.d_setDouble, halves_of_double, toInt_product]
  · rw [State.reg_setDouble _ _ (by decide), State.advance_p]

/-- Settles O32: the given quotient and remainder are the truncated ones. -/
theorem rdivLeavesQuotientAndRemainder : Obligations.RdivLeavesQuotientAndRemainder := by
  intro sr s q r heq hlt hsign hlow hhigh
  obtain ⟨hquot, hrem⟩ := tdiv_tmod_unique heq hlt hsign
  have hd : sourceValue sr s ≠ 0 := by
    intro h
    rw [h] at hlt
    exact Nat.not_lt_zero _ hlt
  obtain ⟨t, ht, ha, hdr, hp, hframe⟩ := execRdiv_writes (s := s) hd (hquot.symm ▸ ⟨hlow, hhigh⟩)
  exact ⟨t, ht, ha.trans hquot, hdr.trans hrem, hp, hframe⟩

theorem rdiv_by_zero {sr : Src} {s : State} (hd : sourceValue sr s = 0) : exec (.rdiv sr) s = .refused .rdivByZero := by
  rw [exec, execRdiv, quotientRemainder, if_pos hd, andThen_refused]

theorem rdiv_overflow {sr : Src} {s : State} (hd : sourceValue sr s ≠ 0)
    (hover : Int.tdiv s.double.toInt (sourceValue sr s).toInt < -32768 ∨
      32767 < Int.tdiv s.double.toInt (sourceValue sr s).toInt) : exec (.rdiv sr) s = .refused .rdivOverflow := by
  have hover' : overflows16 (Int.tdiv s.double.toInt (sourceValue sr s).toInt) = true := by simpa [overflows16] using hover
  rw [exec, execRdiv, quotientRemainder, if_neg hd]
  simp only [hover', if_true, andThen_refused]

/-- Settles O33: the three paths of RDIV. -/
theorem rdivCompletesExactlyOnItsDefinedPath : Obligations.RdivCompletesExactlyOnItsDefinedPath := by
  rintro sr s _ _ rfl rfl
  refine ⟨fun hd => rdiv_by_zero (BitVec.eq_of_toInt_eq hd), fun hd hover => rdiv_overflow (fun h => hd ?_) hover,
    fun hd hlow hhigh => execRdiv_writes (fun h => hd ?_) ⟨hlow, hhigh⟩⟩ <;> rw [h] <;> rfl

/-! ### Arguments and transfer -/

theorem addArgument_adds {r : Reg} (hr : r ≠ .sts ∧ r ≠ .p) (v : BitVec 8) (s : State) :
    ∃ t, addArgument r v s = .next t ∧ t.reg r = s.reg r + signed8 v ∧
      (s.params.argAddFlags = .unchanged → t.reg .sts = s.reg .sts) ∧
      (s.params.argAddFlags = .asAdd → AdditionFlags (s.reg r) (signed8 v) false s t) ∧
      t.reg .p = s.reg .p + 1 ∧ Frame [r] additionBits [] s t := by
  obtain ⟨hsts, hp⟩ := hr
  refine ⟨_, rfl, ?_, fun hmode => ?_, fun hmode => ?_, ?_, ?_⟩
  · rw [State.reg_setArgFlags _ _ _ hsts, State.reg_setReg_same]
  · rw [State.setArgFlags, State.setReg_params, State.advance_params, hmode]
    rw [State.reg_setReg_ne _ _ hsts.symm, State.advance_reg _ (by decide)]
  · rw [State.setArgFlags, State.setReg_params, State.advance_params, hmode]
    exact additionFlags_setAddFlags (by rw [State.flag_setReg _ _ _ hsts, State.advance_flag])
  · rw [State.reg_setArgFlags _ _ _ (by decide), State.reg_setReg_ne _ _ hp.symm, State.advance_p]
  · exact ((Frame.refl ..).advance.setReg _ (.inr (by simp)) hsts).setArgFlags _ _

/-- Settles O21: the four instructions are the shared operation on their register. -/
theorem addArgumentAddsTheSignedArgument : Obligations.AddArgumentAddsTheSignedArgument := by
  intro v s i r hmem
  simp only [List.mem_cons, List.not_mem_nil, or_false, Prod.mk.injEq] at hmem
  obtain ⟨rfl, rfl⟩ | ⟨rfl, rfl⟩ | ⟨rfl, rfl⟩ | ⟨rfl, rfl⟩ := hmem <;> exact addArgument_adds (by decide) v s

/-- TRA writes one word to A, with one draw; what the word is depends on the register alone. -/
theorem execTra_writes {r : Fin 16} {s : State} {v : Word} (h : execTra r s = .next ((s.advance.setReg .a v).drew 1)) :
    ∃ t, exec (.tra r) s = .next t ∧ t.reg .a = v ∧ t.reg .p = s.reg .p + 1 ∧ Frame [.a] [] [] s t := by
  refine ⟨_, h, ?_, ?_, ((Frame.refl ..).advance.setData _).drew 1⟩
  · rw [State.drew_reg, State.reg_setReg_same]
  · rw [State.drew_reg, State.reg_setReg_ne _ _ (by decide), State.advance_p]

/-- Settles O46: STS is merged with a drawn word outside the flags; any other listed register is drawn. -/
theorem traWritesAOnly : Obligations.TraWritesAOnly := by
  intro r s hmem
  by_cases hr : r = 1
  · obtain ⟨t, ht, ha, hp, hframe⟩ := execTra_writes (if_pos (c := r = 1) hr)
    refine ⟨t, ht, fun _ f => ?_, fun h => absurd hr h, hp, hframe⟩
    rw [ha, getLsbD_mergeSts, if_pos (by cases f <;> decide), State.flag]
  · have hdrawn : ∀ q : Fin 16, q ∈ [0o1, 0o2, 0o3, 0o4, 0o5, 0o6, 0o7, 0o12, 0o13, 0o15] → q ≠ 1 → drawnRegister q = true := by
      decide
    obtain ⟨t, ht, ha, hp, hframe⟩ := execTra_writes (s := s) ((if_neg hr).trans (if_pos (hdrawn r hmem hr)))
    exact ⟨t, ht, fun h => absurd h hr, fun _ => ha, hp, hframe⟩

end Sys2Proof.RegisterOperation
end

section
/-! Bit instructions (spec/45_bit.md), jumps and skips (spec/46_sequencing.md), and the forms that are refused (spec/60_exceptions.md
R323). -/

namespace Sys2Proof.Machine

section
variable {n : Fin 16} {r : Reg} {s t : State}

/-! ### A write of one bit -/

/-- A register with one bit replaced, as read before the instruction: that bit, P, and nothing else. -/
theorem writeBit_writes (hdef : bitDefined n r = true) (b : Bool) (s : State) : ∃ t, writeBit n r b s = .next t ∧
    (∀ i : Fin 16, (t.reg r).getLsbD i.val = if i = n then b else (s.reg r).getLsbD i.val) ∧
    (r ≠ .p → t.reg .p = s.reg .p + 1) ∧ Frame [r] (if r = .sts then [n] else []) [] s t := by
  refine ⟨_, writeBit_eq_next.2 ⟨hdef, rfl⟩, fun i => ?_, fun hp => ?_, ?_⟩
  · rw [State.reg_setReg_same, getLsbD_putBitOf]
    simp only [Fin.ext_iff]
  · rw [State.reg_setReg_ne _ _ hp.symm, State.advance_p]
  · by_cases hr : r = .sts
    · subst hr
      obtain ⟨f, rfl⟩ := exists_flag_of_bitDefined hdef
      rw [if_pos rfl, ← State.advance_reg s (r := .sts) (by decide)]
      exact (Frame.refl ..).advance.setFlag b (by simp)
    · rw [if_neg hr]
      exact (setReg_advance hr _).2.2

/-- A frame may be read with more bits. -/
theorem Frame.addBits {regs : List Reg} {bits bits' : List (Fin 16)} {words : List Word} (h : Frame regs bits words s t)
    (hsub : bits ⊆ bits') : Frame regs bits' words s t :=
  h.dropBits fun _ hi hi' => absurd (hsub hi) hi'

/-- Of STS, a write of a flag changes the bit of that flag alone. -/
theorem getLsbD_reg_setFlag (f : Flag) (b : Bool) (r : Reg) {j : Fin 16} (hj : ¬(r = .sts ∧ j = f.bit)) :
    ((t.setFlag f b).reg r).getLsbD j.val = (t.reg r).getLsbD j.val := by
  by_cases hr : r = .sts
  · subst hr
    rw [State.setFlag, State.reg_setReg_same, getLsbD_putBitOf, if_neg (fun h => hj ⟨rfl, Fin.ext h⟩)]
  · rw [State.reg_setFlag _ _ _ hr]

/-! ### Skips and conditional jumps -/

theorem skipIf_writes (c : Bool) (s : State) : (s.skipIf c).reg .p = (if c then s.reg .p + 2 else s.reg .p + 1) ∧
    Frame [] [] [] s (s.skipIf c) :=
  ⟨State.skipIf_p s c, (Frame.refl ..).skipIf c⟩

theorem condJump_writes (c : Bool) (d : BitVec 8) (s : State) :
    (condJump c d s).reg .p = (if c then s.reg .p + BitVec.ofInt 16 d.toInt else s.reg .p + 1) ∧ Frame [] [] [] s (condJump c d s) :=
  ⟨condJump_p c d s, (Frame.refl ..).condJump c d⟩

/-- The sign bit is the test of a signed number against zero. -/
theorem msb_eq_decide_neg (v : Word) : v.msb = decide (v.toInt < 0) := BitVec.msb_eq_toInt

theorem not_msb_eq_decide_nonneg (v : Word) : (!v.msb) = decide (0 ≤ v.toInt) := by
  rw [msb_eq_decide_neg, ← decide_not]
  exact decide_eq_decide.2 Int.not_lt

end

end Sys2Proof.Machine

namespace Sys2Proof.BitInstruction

open Sys2Proof.Machine

/-- Settles O34: each condition is a write of its bit. -/
theorem bsetSetsTheAddressedBit : Obligations.BsetSetsTheAddressedBit := by
  intro c n r s hdef
  cases c with
  | zro => exact writeBit_writes hdef false s
  | one => exact writeBit_writes hdef true s
  | bac => exact writeBit_writes hdef (s.flag .k) s
  | bcm =>
    obtain ⟨t, ht, hwrites⟩ := writeBit_writes hdef (!(s.reg r).getLsbD n.val) s
    exact ⟨t, andThen_eq_next.2 ⟨_, getBit_eq_next.2 ⟨hdef, rfl⟩, ht⟩, hwrites⟩

/-- A skip that compares the addressed bit. -/
theorem execBskp_writes {c : BitCond} {n : Fin 16} {r : Reg} {s : State} {q : Bool}
    (h : execBskp c n r s = .next (s.skipIf ((s.reg r).getLsbD n.val == q))) : ∃ t, exec (.bskp c n r) s = .next t ∧
      t.reg .p = (if (s.reg r).getLsbD n.val = q then s.reg .p + 2 else s.reg .p + 1) ∧ Frame [] [] [] s t := by
  obtain ⟨hp, hframe⟩ := skipIf_writes ((s.reg r).getLsbD n.val == q) s
  refine ⟨_, h, ?_, hframe⟩
  rw [hp]
  simp only [beq_iff_eq]

/-- Settles O35: each condition compares the bit with 0, with 1 or with K. -/
theorem bskpSkipsOnItsCondition : Obligations.BskpSkipsOnItsCondition := by
  intro c n r s hdef hc
  have hbit : getBit n r s = .next ((s.reg r).getLsbD n.val) := getBit_eq_next.2 ⟨hdef, rfl⟩
  cases c with
  | zro => exact execBskp_writes (by rw [execBskp, hbit, andThen_next, beq_false])
  | one => exact execBskp_writes (by rw [execBskp, hbit, andThen_next, beq_true])
  | bac => exact execBskp_writes (by rw [execBskp, hbit, andThen_next])
  | bcm => exact absurd rfl hc

/-- Settles O36: the bit is written first, K second. -/
theorem bstaAndBstcStoreK : Obligations.BstaAndBstcStoreK := by
  intro n r s hdef i b k hmem
  have hexec : exec i s = storeBit n r b k s := by
    simp only [List.mem_cons, List.not_mem_nil, or_false, Prod.mk.injEq] at hmem
    obtain ⟨rfl, rfl, rfl⟩ | ⟨rfl, rfl, rfl⟩ := hmem <;> rfl
  obtain ⟨t, ht, hbits, hp, hframe⟩ := writeBit_writes hdef b s
  refine ⟨t.setFlag .k k, hexec.trans (andThen_eq_next.2 ⟨t, ht, rfl⟩), State.flag_setFlag_same .., fun j hj => ?_, fun h => ?_, ?_⟩
  · rw [getLsbD_reg_setFlag _ _ _ hj, hbits]
  · rw [State.reg_setFlag _ _ _ (by decide), hp h]
  · refine (hframe.addBits ?_).setFlag k ?_
    all_goals split <;> simp

end Sys2Proof.BitInstruction

namespace Sys2Proof.Sequencing

open Sys2Proof.Machine

/-- Settles O39: the link, and its use by a COPY of L to P. -/
theorem jplLinksAndExitReturns : Obligations.JplLinksAndExitReturns := by
  intro m s el hea
  refine ⟨_, andThen_eq_next.2 ⟨el, hea, rfl⟩, State.reg_setReg_same .., ?_, ?_, fun u hu => ?_⟩
  · rw [State.reg_setReg_ne _ _ (by decide), State.reg_setReg_same]
  · exact ((Frame.refl ..).setData _).setReg _ (.inl rfl) (by decide)
  · obtain ⟨v, hv, hadd⟩ := arithOp_adds (adc := false) (ad1 := false) (dr := .p) (r := .p) rfl rfl false true .l u
    refine ⟨v, hv, (AdditionTo.moves hadd).1.trans ?_⟩
    exact hu.trans ((State.reg_setReg_ne _ _ (by decide)).trans (State.reg_setReg_same ..))

/-- Settles O40: each instruction is the conditional jump on its test. -/
theorem conditionalJumpsTestAOrX : Obligations.ConditionalJumpsTestAOrX := by
  intro d s i c hmem
  have hexec : exec i s = .next (condJump c d s) := by
    simp only [List.mem_cons, List.not_mem_nil, or_false, Prod.mk.injEq] at hmem
    obtain ⟨rfl, rfl⟩ | ⟨rfl, rfl⟩ | ⟨rfl, rfl⟩ | ⟨rfl, rfl⟩ | ⟨rfl, rfl⟩ := hmem
    · rw [← not_msb_eq_decide_nonneg]; rfl
    · rw [← msb_eq_decide_neg]; rfl
    · rw [← beq_eq_decide]; rfl
    · rw [exec, execJaf, bne, beq_eq_decide, ← decide_not]
    · rw [← msb_eq_decide_neg]; rfl
  exact ⟨_, hexec, condJump_writes c d s⟩

/-- Settles O41: the conditional jump on the state with X incremented, whose P is that before. -/
theorem countingJumpsTestTheNewX : Obligations.CountingJumpsTestTheNewX := by
  intro d s i c hmem
  have hx : (incrementX s).reg .x = s.reg .x + 1 := State.reg_setReg_same ..
  have hp : (incrementX s).reg .p = s.reg .p := State.reg_setReg_ne _ _ (by decide)
  have hexec : exec i s = .next (condJump c d (incrementX s)) := by
    simp only [List.mem_cons, List.not_mem_nil, or_false, Prod.mk.injEq] at hmem
    obtain ⟨rfl, rfl⟩ | ⟨rfl, rfl⟩ := hmem
    · rw [← not_msb_eq_decide_nonneg, ← hx]; rfl
    · rw [← msb_eq_decide_neg, ← hx]; rfl
  obtain ⟨hjump, -⟩ := condJump_writes c d (incrementX s)
  refine ⟨_, hexec, ?_, ?_, ((Frame.refl ..).setData _).condJump c d⟩
  · rw [condJump_reg _ _ _ (by decide), hx]
  · rw [hjump, hp]

/-- Settles O42: each condition is the skip on its relation. -/
theorem skpSkipsOnTheNamedRelation : Obligations.SkpSkipsOnTheNamedRelation := by
  rintro sr dr r s _ _ hdst rfl rfl i c hmem
  have hskip (rel : Word → Word → Bool) : skipOn rel sr dr s = .next (s.skipIf (rel (s.reg r) (sourceValue sr s))) :=
    skipOn_eq_next.2 ⟨r, hdst, rfl⟩
  have hexec : exec i s = .next (s.skipIf c) := by
    simp only [List.mem_cons, List.not_mem_nil, or_false, Prod.mk.injEq] at hmem
    obtain ⟨rfl, rfl⟩ | ⟨rfl, rfl⟩ | ⟨rfl, rfl⟩ | ⟨rfl, rfl⟩ | ⟨rfl, rfl⟩ | ⟨rfl, rfl⟩ := hmem
    · rw [← beq_eq_decide]; exact hskip _
    · rw [decide_not, ← beq_eq_decide]; exact hskip _
    · exact hskip fun d v => decide (v.toInt ≤ d.toInt)
    · exact hskip fun d v => decide (d.toInt < v.toInt)
    · exact hskip fun d v => decide (v.toNat ≤ d.toNat)
    · exact hskip fun d v => decide (d.toNat < v.toNat)
  exact ⟨_, hexec, skipIf_writes c s⟩

end Sys2Proof.Sequencing

namespace Sys2Proof.Refusals

open Sys2Proof.Machine

section
variable {n : Fin 16} {r : Reg} {s : State}

/-- STS has no bit 0 and no bits 8 to 15. -/
theorem bitDefined_sts_eq_false (h : n = 0 ∨ 8 ≤ n.val) : bitDefined n .sts = false := by
  revert n
  decide

theorem getBit_refused (h : bitDefined n r = false) : getBit n r s = .refused .stsUndefinedBit := by simp [getBit, h]

theorem writeBit_refused (h : bitDefined n r = false) (b : Bool) : writeBit n r b s = .refused .stsUndefinedBit := by
  simp [writeBit, putBit, h]

theorem storeBit_refused (h : bitDefined n r = false) (b k : Bool) : storeBit n r b k s = .refused .stsUndefinedBit := by
  rw [storeBit, writeBit_refused h, andThen_refused]

theorem combineK_refused (h : bitDefined n r = false) (f : Bool → Bool → Bool) : combineK f n r s = .refused .stsUndefinedBit := by
  rw [combineK, getBit_refused h, andThen_refused]

theorem execBset_refused (h : bitDefined n r = false) (c : BitCond) : execBset c n r s = .refused .stsUndefinedBit := by
  cases c with
  | zro | one | bac => exact writeBit_refused h _
  | bcm => rw [execBset, getBit_refused h, andThen_refused]

theorem shifted_refused {w : Nat} {count : BitVec 6} (hcount : 1 < count.toInt.natAbs) (hmode : s.params.linMulti = .refuse)
    (v : BitVec w) : shifted s .lin count v = .refused .linMulti := by
  simp [shifted, linRefused, hcount, hmode]

/-- A count of several places is not the count 0. -/
theorem ne_zero_of_several {count : BitVec 6} (h : 1 < count.toInt.natAbs) : count ≠ 0 := by
  rintro rfl
  exact absurd h (by decide)

theorem shiftReg_refused {count : BitVec 6} (hcount : 1 < count.toInt.natAbs) (hmode : s.params.linMulti = .refuse) (r : Reg) :
    shiftReg r .lin count s = .refused .linMulti := by
  rw [shiftReg, if_neg (ne_zero_of_several hcount), shifted_refused hcount hmode, andThen_refused]

theorem execSad_refused {count : BitVec 6} (hcount : 1 < count.toInt.natAbs) (hmode : s.params.linMulti = .refuse) :
    execSad .lin count s = .refused .linMulti := by
  rw [execSad, if_neg (ne_zero_of_several hcount), shifted_refused hcount hmode, andThen_refused]

theorem blockAddress_refused (hmode : s.params.rbCurrentLevel = .refuse) : blockAddress s.level s = .refused .rbCurrentLevel := by
  simp [blockAddress, blockRefused, hmode]

/-- ADC with AD1 is refused once the destination names a register. -/
theorem arithOp_adc_ad1 {dr : Dst} (hdr : dr ≠ .undef) (cm1 cld : Bool) (sr : Src) :
    arithOp true true cm1 cld sr dr s = .refused .adcAndAd1 := by
  rw [arithOp, destination_eq_next.2 ⟨hdr, rfl⟩]
  rfl

end

/-- Settles O30: the reasons one by one. -/
theorem formsTheSpecRefusesStop : Obligations.FormsTheSpecRefusesStop := by
  refine ⟨fun s sr adc ad1 cm1 cld i hmem => ?_, fun s cm1 cld sr dr hdr => arithOp_adc_ad1 hdr cm1 cld sr,
    fun s n c i hn hmem => ?_, fun s n r hdef => ?_, fun s r hmem => ?_, fun s r => rfl, fun s hmode i hmem => ?_,
    fun s n hn hmode i hmem => ?_, fun s sr => ⟨RegisterOperation.rdiv_by_zero, RegisterOperation.rdiv_overflow⟩⟩
  · simp only [List.mem_cons, List.not_mem_nil, or_false] at hmem
    rcases hmem with rfl | rfl | rfl | rfl | rfl | rfl | rfl | rfl | rfl | rfl | rfl | rfl | rfl | rfl | rfl | rfl | rfl | rfl |
      rfl | rfl | rfl <;> rfl
  · have hdef : bitDefined n .sts = false := bitDefined_sts_eq_false hn
    simp only [List.mem_cons, List.not_mem_nil, or_false] at hmem
    rcases hmem with rfl | rfl | rfl | rfl | rfl | rfl | rfl | rfl | rfl | rfl
    · exact execBset_refused hdef c
    · rw [exec, execBskp, getBit_refused hdef, andThen_refused]
    · exact storeBit_refused hdef _ _
    · exact storeBit_refused hdef _ _
    · exact combineK_refused hdef fun _ b => !b
    · exact combineK_refused hdef fun _ b => b
    · exact combineK_refused hdef fun k b => k && !b
    · exact combineK_refused hdef fun k b => k && b
    · exact combineK_refused hdef fun k b => k || !b
    · exact combineK_refused hdef fun k b => k || b
  · rw [exec, execBskp, getBit_eq_next.2 ⟨hdef, rfl⟩, andThen_next]
  · simp only [List.mem_cons, List.not_mem_nil, or_false] at hmem
    rcases hmem with rfl | rfl | rfl | rfl | rfl | rfl <;> rfl
  · simp only [List.mem_cons, List.not_mem_nil, or_false] at hmem
    rcases hmem with rfl | rfl
    · rw [exec, execLrb, blockAddress_refused hmode, andThen_refused]
    · rw [exec, execSrb, blockAddress_refused hmode, andThen_refused]
  · simp only [List.mem_cons, List.not_mem_nil, or_false] at hmem
    rcases hmem with rfl | rfl | rfl | rfl
    · exact shiftReg_refused hn hmode .t
    · exact shiftReg_refused hn hmode .d
    · exact shiftReg_refused hn hmode .a
    · exact execSad_refused hn hmode

end Sys2Proof.Refusals
end

section
/-! Register blocks (spec/41_register_block.md): what LRB loads, what SRB stores, and the round trip. -/

namespace Sys2Proof.Machine

/-- The register block that memory holds from `a` on, in the order P, X, T, A, D, L, STS, B (R150). -/
def blockInMemory (s : State) (a : Word) : RegBlock :=
  { p := s.wordAt a, x := s.wordAt (a + 1), t := s.wordAt (a + 2), a := s.wordAt (a + 3), d := s.wordAt (a + 4),
    l := s.wordAt (a + 5), sts := s.wordAt (a + 6), b := s.wordAt (a + 7) }

section
variable {n : Fin 16} {s t : State} {a : Word}

theorem loadBlock_present (hp : allPresent s a 8 = true) : loadBlock s a = .next (blockInMemory s a) :=
  loadBlock_eq_next.2 ⟨fun k => allPresent_iff.1 hp k.val k.isLt, rfl⟩

theorem blockInMemory_of_mem (h : t.mem = s.mem) : blockInMemory t a = blockInMemory s a := by
  simp only [blockInMemory, State.wordAt_of_mem h]

theorem blockRefused_eq_false (h : n ≠ s.level ∨ s.params.rbCurrentLevel = .literal) : blockRefused n s = false := by
  rcases h with h | h <;> simp [blockRefused, h]

/-! ### LRB -/

/-- LRB leaves the block of memory in the level it names, of STS the flags (R151). -/
theorem execLrb_writes (hlevel : n ≠ s.level ∨ s.params.rbCurrentLevel = .literal) (hp : allPresent s (s.reg .x) 8 = true) :
    ∃ t, exec (.lrb n) s = .next t ∧ (∀ r, r ≠ .sts → t.regAt n r = (blockInMemory s (s.reg .x)).get r) ∧
      t.regAt n .sts = mergeSts (s.wordAt (s.reg .x + 6)) (s.regAt n .sts) ∧
      (∀ k, k ≠ n → ∀ r, t.regAt k r = s.advance.regAt k r) ∧ t.level = s.level ∧ t.params = s.params ∧ t.mem = s.mem := by
  refine ⟨_, exec_lrb_eq_next.2 ⟨blockRefused_eq_false hlevel, _, loadBlock_present hp, rfl⟩, fun r hr => ?_, ?_, fun k hk r => ?_,
    rfl, rfl, rfl⟩
  · rw [State.regAt, State.blockAt_setBlockAt_same]
    cases r with
    | sts => exact absurd rfl hr
    | _ => rfl
  · rw [State.regAt, State.blockAt_setBlockAt_same]
    rfl
  · rw [State.regAt, State.blockAt_setBlockAt_ne _ _ hk, State.regAt]

/-- An advance of P changes no other register of any level. -/
theorem State.advance_regAt (s : State) {k : Fin 16} {r : Reg} (h : k ≠ s.level ∨ r ≠ .p) : s.advance.regAt k r = s.regAt k r := by
  by_cases hk : k = s.level
  · subst hk
    exact State.advance_reg s (h.resolve_left fun h => h rfl)
  · exact State.advance_regAt_other s r hk

/-! ### SRB -/

/-- A store of words that answers found every word. -/
theorem present_of_storeWords {vs : List Word} (h : storeWords a vs s = .next t) {k : Nat} (hk : k < vs.length) :
    s.present (a + BitVec.ofNat 16 k) = true := by
  induction vs generalizing a s k with
  | nil => exact absurd hk (Nat.not_lt_zero k)
  | cons v vs ih =>
    obtain ⟨hhead, hrest⟩ := storeWords_cons_eq_next.1 h
    cases k with
    | zero => exact (BitVec.add_zero a).symm ▸ hhead
    | succ k =>
      have htail := ih hrest (Nat.lt_of_succ_lt_succ hk)
      rwa [BitVec.add_assoc, BitVec.ofNat_eq_ofNat, ← BitVec.ofNat_add, Nat.add_comm 1 k] at htail

/-- SRB answers only where the level may be named and all eight words exist. -/
theorem execSrb_next (h : exec (.srb n) s = .next t) : blockRefused n s = false ∧ allPresent s (s.reg .x) 8 = true := by
  obtain ⟨_, hblock, hstore⟩ := andThen_eq_next.1 h
  obtain ⟨hlevel, rfl⟩ := blockAddress_eq_next.1 hblock
  exact ⟨hlevel, allPresent_iff.2 fun k hk => present_of_storeWords hstore hk⟩

/-- SRB leaves the block of the level it names in memory, of STS the flags (R152). -/
theorem execSrb_writes (hlevel : blockRefused n s = false) (hp : allPresent s (s.reg .x) 8 = true) :
    ∃ t, exec (.srb n) s = .next t ∧ (∀ r, r ≠ .sts → (blockInMemory t (s.reg .x)).get r = s.regAt n r) ∧
      (∀ f : Flag, (t.wordAt (s.reg .x + 6)).getLsbD f.bit.val = (s.regAt n .sts).getLsbD f.bit.val) ∧
      t.reg .p = s.reg .p + 1 ∧ Frame [] [] ((List.range 8).map fun k => s.reg .x + BitVec.ofNat 16 k) s t := by
  obtain ⟨t, hstore, hwords, -⟩ := storeWords_writes (s := s.advance.drew 1) (a := s.reg .x)
    (vs := [s.regAt n .p, s.regAt n .x, s.regAt n .t, s.regAt n .a, s.regAt n .d, s.regAt n .l,
      mergeSts (s.regAt n .sts) (Config.drawWord s.draws), s.regAt n .b]) (by simp) (allPresent_iff.1 hp)
  have hword (k : Nat) (hk : k < 8) := hwords k hk
  refine ⟨t, andThen_eq_next.2 ⟨_, blockAddress_eq_next.2 ⟨hlevel, rfl⟩, hstore⟩, fun r hr => ?_, fun f => ?_, ?_, ?_⟩
  · cases r with
    | sts => exact absurd rfl hr
    | p => exact (congrArg t.wordAt (BitVec.add_zero _).symm).trans (hword 0 (by decide))
    | x => exact hword 1 (by decide)
    | t => exact hword 2 (by decide)
    | a => exact hword 3 (by decide)
    | d => exact hword 4 (by decide)
    | l => exact hword 5 (by decide)
    | b => exact hword 7 (by decide)
  · have hsts : t.wordAt (s.reg .x + 6) = mergeSts (s.regAt n .sts) (Config.drawWord s.draws) := hword 6 (by decide)
    rw [hsts, getLsbD_mergeSts, if_pos (by cases f <;> decide)]
  · rw [storeWords_reg hstore, State.drew_reg, State.advance_p]
  · exact ((Frame.refl ..).advance.drew 1).storeWords hstore fun k hk => List.mem_map.2 ⟨k, List.mem_range.2 hk, rfl⟩

end

end Sys2Proof.Machine

namespace Sys2Proof.RegisterBlock

open Sys2Proof.Machine

/-- Settles O17: register by register of the block in memory. -/
theorem lrbLoadsTheNamedLevel : Obligations.LrbLoadsTheNamedLevel := by
  intro n s hlevel hp
  obtain ⟨t, ht, hregs, hsts, hothers, hlev, hparams, hmem⟩ := execLrb_writes hlevel hp
  refine ⟨t, ht, hregs .p (by decide), hregs .x (by decide), hregs .t (by decide), hregs .a (by decide), hregs .d (by decide),
    hregs .l (by decide), hregs .b (by decide), fun i => ?_, fun hn => ?_, fun k hk r hr => ?_, hlev, hparams,
    State.byteAt_of_mem hmem⟩
  · rw [hsts, getLsbD_mergeSts]
  · rw [State.reg, hlev, hothers _ hn.symm]
    exact State.advance_p s
  · rw [hothers k hk, State.advance_regAt s hr]

/-- Settles O18: word by word of the block in memory. -/
theorem srbStoresTheNamedLevel : Obligations.SrbStoresTheNamedLevel := by
  intro n s hlevel hp
  obtain ⟨t, ht, hregs, hflags, hpc, hframe⟩ := execSrb_writes (blockRefused_eq_false hlevel) hp
  exact ⟨t, ht, hregs .p (by decide), hregs .x (by decide), hregs .t (by decide), hregs .a (by decide), hregs .d (by decide),
    hregs .l (by decide), hregs .b (by decide), hflags, hpc, hframe⟩

/-- Settles O19: LRB reads the block that SRB left in memory. -/
theorem lrbRestoresWhatSrbSaved : Obligations.LrbRestoresWhatSrbSaved := by
  intro n s t u hsrb hmem hparams hx hlevel
  obtain ⟨hallowed, hp⟩ := execSrb_next hsrb
  obtain ⟨t', ht', hsaved, hflags, -, hframe⟩ := execSrb_writes hallowed hp
  obtain rfl : t = t' := Host.Outcome.next.inj (hsrb.symm.trans ht')
  have hp' : allPresent u (u.reg .x) 8 = true := by
    rw [hx]
    exact allPresent_iff.2 fun k hk => (State.present_of_params (hparams.trans hframe.params) _).trans (allPresent_iff.1 hp k hk)
  obtain ⟨v, hv, hregs, hsts, -⟩ := execLrb_writes hlevel hp'
  refine ⟨v, hv, fun r hr => ?_, fun f => ?_⟩
  · rw [hregs r hr, hx, blockInMemory_of_mem hmem, hsaved r hr]
  · rw [hsts, getLsbD_mergeSts, if_pos (by cases f <;> decide), hx, State.wordAt_of_mem hmem, hflags]

end Sys2Proof.RegisterBlock
end

section
/-! Shifts (spec/47_shift.md): going place by place is the closed form, bit by bit for every width, and the shift instructions. -/

namespace Sys2Proof.Machine

/-! ### Rotations by one more place -/

section
variable {w n i : Nat} (x : BitVec w)

/-- A counter mod `w` goes up by one, or from `w - 1` to zero. -/
theorem succ_mod_cases (hw : 0 < w) (n : Nat) :
    (n % w + 1 < w ∧ (n + 1) % w = n % w + 1) ∨ (n % w + 1 = w ∧ (n + 1) % w = 0) := by
  have hlt := Nat.mod_lt n hw
  rw [← Nat.mod_add_mod]
  rcases Nat.lt_or_eq_of_le (Nat.succ_le_of_lt hlt) with h | h
  · exact .inl ⟨h, Nat.mod_eq_of_lt h⟩
  · exact .inr ⟨h, by rw [show n % w + 1 = w from h, Nat.mod_self]⟩

theorem rotateLeft_zero : x.rotateLeft 0 = x :=
  BitVec.eq_of_getLsbD_eq fun i hi => by simp [hi]

theorem rotateRight_zero : x.rotateRight 0 = x :=
  BitVec.eq_of_getLsbD_eq fun i hi => by simp [hi]

/-- One more place to the left: the top bit enters at bit 0. -/
theorem getLsbD_rotateLeft_succ (hi : i < w) : (x.rotateLeft (n + 1)).getLsbD i =
    if i = 0 then (x.rotateLeft n).msb else (x.rotateLeft n).getLsbD (i - 1) := by
  simp only [BitVec.msb_eq_getLsbD_last, BitVec.getLsbD_rotateLeft]
  rcases succ_mod_cases (Nat.zero_lt_of_lt hi) n with ⟨hlt, hsucc⟩ | ⟨hlast, hsucc⟩ <;> grind

/-- One more place to the right: bit 0 enters at the top. -/
theorem getLsbD_rotateRight_succ (hi : i < w) : (x.rotateRight (n + 1)).getLsbD i =
    if i + 1 = w then (x.rotateRight n).getLsbD 0 else (x.rotateRight n).getLsbD (i + 1) := by
  simp only [BitVec.getLsbD_rotateRight]
  rcases Nat.lt_or_eq_of_le (Nat.succ_le_of_lt hi) with htop | htop <;>
    rcases succ_mod_cases (Nat.zero_lt_of_lt hi) n with ⟨hlt, hsucc⟩ | ⟨hlast, hsucc⟩ <;> grind

end

/-! ### One place -/

section
variable {w : Nat} {kind : ShiftKind} {link : Bool} {u v : BitVec w}

/-- One place to the left, by what it leaves in each bit. -/
theorem shiftPlace_left_eq {out : Bool} (hout : v.msb = out)
    (hbits : ∀ i < w, u.getLsbD i = if i = 0 then leftInput kind link v else v.getLsbD (i - 1)) :
    shiftPlace true kind link v = (u, out) := by
  refine Prod.ext (BitVec.eq_of_getLsbD_eq fun i hi => ?_) hout
  rw [hbits i hi]
  show (v <<< 1 ||| (BitVec.ofBool (leftInput kind link v)).setWidth w).getLsbD i = _
  rw [BitVec.getLsbD_or, BitVec.getLsbD_shiftLeft, BitVec.getLsbD_setWidth, BitVec.getLsbD_ofBool]
  split
  next h => simp [h, Nat.zero_lt_of_lt hi]
  next h => simp [h, hi]

/-- One place to the right, in the same way. -/
theorem shiftPlace_right_eq {out : Bool} (hout : v.getLsbD 0 = out)
    (hbits : ∀ i < w, u.getLsbD i = if i + 1 = w then rightInput kind link v else v.getLsbD (i + 1)) :
    shiftPlace false kind link v = (u, out) := by
  refine Prod.ext (BitVec.eq_of_getLsbD_eq fun i hi => ?_) hout
  rw [hbits i hi]
  show (v >>> 1 ||| (if rightInput kind link v then BitVec.twoPow w (w - 1) else 0)).getLsbD i = _
  have htop : (if rightInput kind link v then BitVec.twoPow w (w - 1) else 0).getLsbD i =
      (rightInput kind link v && decide (i + 1 = w)) := by
    cases rightInput kind link v with
    | false => simp
    | true =>
      rw [if_pos rfl, BitVec.getLsbD_twoPow, Bool.true_and, ← Bool.decide_and, decide_eq_decide]
      omega
  rw [BitVec.getLsbD_or, BitVec.getLsbD_ushiftRight, htop, Nat.add_comm 1 i]
  split
  next h => simp [h]
  next h => simp [h]

end

/-! ### Places in sequence -/

section
variable {w : Nat} {mode : Config.LinMulti} {left : Bool} {kind : ShiftKind} {m0 : Bool} {v : BitVec w}

/-- The last of several places comes after the others. -/
theorem shiftPlaces_succ (n : Nat) (v : BitVec w) (last : Bool) : shiftPlaces mode left kind m0 (n + 1) v last =
    shiftPlace left kind (linkInput mode m0 (shiftPlaces mode left kind m0 n v last).2) (shiftPlaces mode left kind m0 n v last).1 := by
  induction n generalizing v last with
  | zero => rfl
  | succ n ih => exact ih _ _

/-- A closed form that is the register at no place, and is carried from each number of places to the next by one place, is what the
places give. What the last place shifted out matters from the first place on; before it, it is the old M. -/
theorem shiftPlaces_eq_closed {closed : Nat → BitVec w × Bool} (hzero : (closed 0).1 = v)
    (hsucc : ∀ n last, last = (if n = 0 then m0 else (closed n).2) →
      shiftPlace left kind (linkInput mode m0 last) (closed n).1 = closed (n + 1)) {n : Nat} (hn : 0 < n) :
    shiftPlaces mode left kind m0 n v m0 = closed n := by
  have hall (n : Nat) : shiftPlaces mode left kind m0 n v m0 = ((closed n).1, if n = 0 then m0 else (closed n).2) := by
    induction n with
    | zero => rw [hzero]; rfl
    | succ n ih => rw [shiftPlaces_succ, ih, hsucc n _ rfl, if_neg n.succ_ne_zero]
  rw [hall, if_neg hn.ne']

end

/-! ### The closed form, one place on -/

section
variable {w : Nat} {m0 : Bool} {v : BitVec w} (n : Nat)

/-- A left shift that feeds in `b` at every place. -/
theorem getLsbD_shiftLeft_fill (b : Bool) {i : Nat} (hi : i < w) :
    (v <<< n ||| (if b then BitVec.ofNat w (2 ^ n - 1) else 0)).getLsbD i = if i < n then b else v.getLsbD (i - n) := by
  have hfill : (if b then BitVec.ofNat w (2 ^ n - 1) else 0).getLsbD i = (b && decide (i < n)) := by
    cases b with
    | false => simp
    | true => rw [if_pos rfl, BitVec.getLsbD_ofNat, Nat.testBit_two_pow_sub_one, decide_eq_true hi, Bool.true_and]
  rw [BitVec.getLsbD_or, BitVec.getLsbD_shiftLeft, hfill]
  by_cases h : i < n <;> simp [h, hi]

/-- A right shift that feeds in `b` at every place. -/
theorem getLsbD_shiftRight_fill (b : Bool) {i : Nat} (hi : i < w) :
    (v >>> n ||| (if b then ~~~(BitVec.allOnes w >>> n) else 0)).getLsbD i = if n + i < w then v.getLsbD (n + i) else b := by
  rw [BitVec.getLsbD_or, BitVec.getLsbD_ushiftRight]
  by_cases h : n + i < w
  · cases b <;> simp [h]
  · cases b <;> simp [h, hi, BitVec.getLsbD_of_ge v (n + i) (Nat.le_of_not_lt h)]

/-- Zeros enter at the right. -/
theorem shiftPlace_left_zeros {kind : ShiftKind} {link : Bool} (hw : 0 < w) (hin : leftInput kind link (v <<< n) = false) :
    shiftPlace true kind link (v <<< n) = (v <<< (n + 1), decide (n + 1 ≤ w) && v.getLsbD (w - (n + 1))) := by
  refine shiftPlace_left_eq ?_ fun i hi => ?_
  · rw [BitVec.msb_eq_getLsbD_last, BitVec.getLsbD_shiftLeft]
    grind
  · rw [hin, BitVec.getLsbD_shiftLeft, BitVec.getLsbD_shiftLeft]
    grind

/-- The old M enters at the right. -/
theorem shiftPlace_left_constant (hw : 0 < w) :
    shiftPlace true .lin m0 (v <<< n ||| (if m0 then BitVec.ofNat w (2 ^ n - 1) else 0)) =
      (v <<< (n + 1) ||| (if m0 then BitVec.ofNat w (2 ^ (n + 1) - 1) else 0),
        if n + 1 ≤ w then v.getLsbD (w - (n + 1)) else m0) := by
  refine shiftPlace_left_eq ?_ fun i hi => ?_
  · rw [BitVec.msb_eq_getLsbD_last, getLsbD_shiftLeft_fill n m0 (by omega)]
    grind
  · rw [leftInput, getLsbD_shiftLeft_fill (n + 1) m0 hi, getLsbD_shiftLeft_fill n m0 (by omega)]
    grind

theorem shiftPlace_left_rot (hw : 0 < w) (link : Bool) :
    shiftPlace true .rot link (v.rotateLeft n) = (v.rotateLeft (n + 1), (v.rotateLeft (n + 1)).getLsbD 0) :=
  shiftPlace_left_eq (by rw [getLsbD_rotateLeft_succ v hw, if_pos rfl]) fun _ hi => getLsbD_rotateLeft_succ v hi

/-- Through M: register and M together rotate, M above the register. -/
theorem shiftPlace_left_chain (hw : 0 < w) (x : BitVec (w + 1)) :
    shiftPlace true .lin (x.rotateLeft n).msb ((x.rotateLeft n).setWidth w) =
      ((x.rotateLeft (n + 1)).setWidth w, (x.rotateLeft (n + 1)).msb) := by
  refine shiftPlace_left_eq ?_ fun i hi => ?_
  · rw [BitVec.msb_eq_getLsbD_last, BitVec.msb_eq_getLsbD_last, getLsbD_rotateLeft_succ x (by omega), BitVec.getLsbD_setWidth]
    grind
  · rw [leftInput, BitVec.getLsbD_setWidth, getLsbD_rotateLeft_succ x (by omega), BitVec.getLsbD_setWidth]
    grind

theorem shiftPlace_right_zeros (link : Bool) :
    shiftPlace false .zin link (v >>> n) = (v >>> (n + 1), v.getLsbD n) := by
  refine shiftPlace_right_eq ?_ fun i hi => ?_
  · rw [BitVec.getLsbD_ushiftRight, Nat.add_zero]
  · rw [rightInput, BitVec.getLsbD_ushiftRight, BitVec.getLsbD_ushiftRight]
    grind

/-- Copies of the sign enter at the left. -/
theorem shiftPlace_right_sign (hw : 0 < w) (link : Bool) :
    shiftPlace false .arith link (v.sshiftRight n) =
      (v.sshiftRight (n + 1), if n + 1 ≤ w then v.getLsbD n else v.msb) := by
  refine shiftPlace_right_eq ?_ fun i hi => ?_
  · rw [BitVec.getLsbD_sshiftRight]
    grind
  · rw [rightInput, BitVec.msb_sshiftRight, BitVec.getLsbD_sshiftRight, BitVec.getLsbD_sshiftRight]
    grind

/-- The old M enters at the left. -/
theorem shiftPlace_right_constant (hw : 0 < w) :
    shiftPlace false .lin m0 (v >>> n ||| (if m0 then ~~~(BitVec.allOnes w >>> n) else 0)) =
      (v >>> (n + 1) ||| (if m0 then ~~~(BitVec.allOnes w >>> (n + 1)) else 0), if n + 1 ≤ w then v.getLsbD n else m0) := by
  refine shiftPlace_right_eq ?_ fun i hi => ?_
  · rw [getLsbD_shiftRight_fill n m0 hw]
    rfl
  · rw [rightInput, getLsbD_shiftRight_fill (n + 1) m0 hi]
    by_cases htop : i + 1 = w
    · rw [if_neg (by omega), if_pos htop]
    · rw [if_neg htop, getLsbD_shiftRight_fill n m0 (by omega), Nat.add_assoc, Nat.add_comm 1 i]

theorem shiftPlace_right_rot (hw : 0 < w) (link : Bool) :
    shiftPlace false .rot link (v.rotateRight n) = (v.rotateRight (n + 1), (v.rotateRight (n + 1)).msb) := by
  refine shiftPlace_right_eq ?_ fun _ hi => getLsbD_rotateRight_succ v hi
  rw [BitVec.msb_eq_getLsbD_last, getLsbD_rotateRight_succ v (by omega), if_pos (by omega)]

theorem shiftPlace_right_chain (hw : 0 < w) (x : BitVec (w + 1)) :
    shiftPlace false .lin (x.rotateRight n).msb ((x.rotateRight n).setWidth w) =
      ((x.rotateRight (n + 1)).setWidth w, (x.rotateRight (n + 1)).msb) := by
  refine shiftPlace_right_eq ?_ fun i hi => ?_
  · rw [BitVec.msb_eq_getLsbD_last, getLsbD_rotateRight_succ x (by omega), BitVec.getLsbD_setWidth]
    grind
  · rw [rightInput, BitVec.getLsbD_setWidth, getLsbD_rotateRight_succ x (by omega), BitVec.getLsbD_setWidth,
      BitVec.msb_eq_getLsbD_last]
    grind

end

end Sys2Proof.Machine

namespace Sys2Proof.Shift

open Sys2Proof.Machine

/-! ### The closed form -/

section
variable {w : Nat} {mode : Config.LinMulti} {kind : ShiftKind} {m0 : Bool} {n : Nat} {v : BitVec w}

theorem shiftPlaces_left (hw : 0 < w) (hn : 0 < n) :
    shiftPlaces mode true kind m0 n v m0 = shiftLeftClosed mode kind m0 n v := by
  refine shiftPlaces_eq_closed (closed := fun n => shiftLeftClosed mode kind m0 n v) ?_ (fun n last hlast => ?_) hn
  · cases kind with
    | arith | zin => exact BitVec.shiftLeft_zero v
    | rot => exact rotateLeft_zero v
    | lin =>
      cases mode with
      | constant => simp [shiftLeftClosed]
      | chain | refuse => exact (congrArg (BitVec.setWidth w) (rotateLeft_zero _)).trans BitVec.setWidth_cons
  · cases kind with
    | arith | zin => exact shiftPlace_left_zeros n hw rfl
    | rot => exact shiftPlace_left_rot n hw _
    | lin =>
      cases mode with
      | constant => exact shiftPlace_left_constant n hw
      | chain | refuse =>
        have hlink : last = ((BitVec.cons m0 v).rotateLeft n).msb := by
          subst hlast
          cases n with
          | zero => rw [rotateLeft_zero, BitVec.msb_cons, if_pos rfl]
          | succ n => rfl
        rw [linkInput, hlink]
        exact shiftPlace_left_chain n hw _

theorem shiftPlaces_right (hw : 0 < w) (hn : 0 < n) :
    shiftPlaces mode false kind m0 n v m0 = shiftRightClosed mode kind m0 n v := by
  refine shiftPlaces_eq_closed (closed := fun n => shiftRightClosed mode kind m0 n v) ?_ (fun n last hlast => ?_) hn
  · cases kind with
    | arith => exact BitVec.sshiftRight_zero
    | zin => exact BitVec.ushiftRight_zero v
    | rot => exact rotateRight_zero v
    | lin =>
      cases mode with
      | constant => simp [shiftRightClosed]
      | chain | refuse => exact (congrArg (BitVec.setWidth w) (rotateRight_zero _)).trans BitVec.setWidth_cons
  · cases kind with
    | arith => exact shiftPlace_right_sign n hw _
    | zin => exact shiftPlace_right_zeros n _
    | rot => exact shiftPlace_right_rot n hw _
    | lin =>
      cases mode with
      | constant => exact shiftPlace_right_constant n hw
      | chain | refuse =>
        have hlink : last = ((BitVec.cons m0 v).rotateRight n).msb := by
          subst hlast
          cases n with
          | zero => rw [rotateRight_zero, BitVec.msb_cons, if_pos rfl]
          | succ n => rfl
        rw [linkInput, hlink]
        exact shiftPlace_right_chain n hw _

end

/-- Settles O43: kind by kind, each closed form is carried from one number of places to the next. -/
theorem placeByPlaceIsTheClosedForm : Obligations.PlaceByPlaceIsTheClosedForm :=
  fun _ _ _ _ _ _ hw hn => ⟨shiftPlaces_left hw hn, shiftPlaces_right hw hn⟩

/-! ### The instructions -/

/-- A shift by a counter other than 0, where LIN_MULTI does not refuse it, is the closed form. -/
theorem shifted_eq_closed {w : Nat} {s : State} {k : ShiftKind} {n : BitVec 6} (hw : 0 < w) (hn : n ≠ 0)
    (hlin : k ≠ .lin ∨ n.toInt.natAbs ≤ 1 ∨ s.params.linMulti ≠ .refuse) (v : BitVec w) :
    shifted s k n v = .next (shiftClosed s.params.linMulti k (s.flag .m) n.toInt v) := by
  have hrefused : linRefused k n s = false := by
    simp only [linRefused, Bool.and_eq_false_iff, decide_eq_false_iff_not, Nat.not_lt, or_assoc]
    exact hlin
  have hcount : 0 < n.toInt.natAbs := Int.natAbs_pos.2 fun h => hn (BitVec.eq_of_toInt_eq h)
  rw [shifted_eq_next.2 ⟨hrefused, rfl⟩, shiftClosed]
  by_cases hleft : 0 < n.toInt
  · rw [if_pos hleft, decide_eq_true hleft, shiftPlaces_left hw hcount]
  · rw [if_neg hleft, decide_eq_false hleft, shiftPlaces_right hw hcount]

/-- Settles O44: the closed form in the shifted register and M. -/
theorem singleShiftsShiftTheirRegister : Obligations.SingleShiftsShiftTheirRegister := by
  intro k n s i r hlin hmem
  have hexec : exec i s = shiftReg r k n s ∧ r ≠ .sts ∧ r ≠ .p := by
    simp only [List.mem_cons, List.not_mem_nil, or_false, Prod.mk.injEq] at hmem
    obtain ⟨rfl, rfl⟩ | ⟨rfl, rfl⟩ | ⟨rfl, rfl⟩ := hmem <;> exact ⟨rfl, by decide, by decide⟩
  obtain ⟨hexec, hsts, hp⟩ := hexec
  by_cases hn : n = 0
  · exact ⟨_, hexec.trans (shiftReg_eq_next.2 (.inl ⟨hn, rfl⟩)), State.advance_p s, fun _ => (Frame.refl ..).advance,
      fun h => absurd hn h⟩
  · refine ⟨_, hexec.trans (shiftReg_eq_next.2 (.inr ⟨hn, _, shifted_eq_closed (by decide) hn hlin _, rfl⟩)), ?_,
      fun h => absurd h hn, fun _ => ⟨?_, ?_⟩⟩
    · rw [State.reg_setFlag _ _ _ (by decide), State.reg_setReg_ne _ _ hp.symm, State.advance_p]
    · rw [State.reg_setFlag _ _ _ hsts, State.reg_setReg_same, State.flag_setFlag_same]
    · exact ((Frame.refl ..).advance.setReg _ (.inr (by simp)) hsts).setFlag _ (by decide)

/-- Settles O45: the closed form in the double accumulator and M. -/
theorem sadShiftsTheDoubleAccumulator : Obligations.SadShiftsTheDoubleAccumulator := by
  intro k n s hlin
  by_cases hn : n = 0
  · exact ⟨_, if_pos hn, State.advance_p s, fun _ => (Frame.refl ..).advance, fun h => absurd hn h⟩
  · refine ⟨_, (if_neg hn).trans (andThen_eq_next.2 ⟨_, shifted_eq_closed (by decide) hn hlin s.double, rfl⟩), ?_,
      fun h => absurd h hn, fun _ => ⟨?_, ?_⟩⟩
    · rw [State.reg_setFlag _ _ _ (by decide), State.reg_setDouble _ _ (by decide), State.advance_p]
    · rw [State.reg_setFlag _ _ _ (by decide), State.reg_setFlag _ _ _ (by decide), State.a_setDouble, State.d_setDouble,
        halves_of_double, State.flag_setFlag_same]
      rfl
    · exact ((Frame.refl ..).advance.setDouble _).setFlag _ (by decide)

end Sys2Proof.Shift
end
